-- ==== Sys2Proof/Word.lean ====
section
/-! DEFINITION. The word types of the block (spec/00_scope.md R5, R6; spec/30_encoding.md R55, R63). -/

namespace Sys2Proof

/-- One transfer unit, one byte of buffer memory (R41). -/
abbrev Byte := BitVec 8

/-- A pointer, a length, an index, a limit or a baud rate: 32 bits (R5: PTRBITS, LENBITS). -/
abbrev Word := BitVec 32

/-- The event-enable mask (R26). -/
abbrev EventMask := BitVec 16

/-- A word of the machine: a host command descriptor (R55) or a schedule word (R63). -/
inductive HwWord where
  | cmd (w : BitVec 80)
  | sch (w : BitVec 16)
deriving DecidableEq, Repr

end Sys2Proof
end

