-- ==== Sys2Proof/Config.lean ====
section
/-! DEFINITION. What an implementation fixes (the parameters of spec/00_scope.md R5) and the free values
(the draws of R7). The parameters are plain data that State carries and no step writes, so a statement about every
state holds for every value of them (log 3); the draws are constants without a body (log 5). -/

namespace Sys2Proof

/-- RX_MIXED_POLICY (R143): what the receive handler does when exactly one of RXLOCK, RXBUSY is set. -/
inductive MixedPolicy where
  | noop
  | unsolicited
deriving DecidableEq, Repr

/-- The parameters of one channel (R5, R20, R21). -/
structure ChanParams where
  /-- TXCAP: transmit FIFO capacity, 0 for byte mode. -/
  txCap : Nat
  /-- RXCAP: receive FIFO capacity, 0 for byte mode. -/
  rxCap : Nat
  /-- TXLIM: the transmit trigger limit programmed at open. -/
  txLim : Word
  /-- RXLIM0: the receive trigger limit programmed at open. -/
  rxLim0 : Word
  /-- BAUD0: the stored baud rate at reset. -/
  baud0 : Word
  /-- FRAME: passed through, read by no rule (log 19). -/
  frame : Nat
  /-- OVERSAMPLING: passed through, read by no rule (log 19). -/
  oversampling : Nat
  /-- INSRC: the input source selector; its only modelled effect is `loopTo` (log 19). -/
  inSrc : Nat
  /-- LOOPTO: the channel whose receiver is wired to this channel's transmitter. -/
  loopTo : Option Nat
  /-- TXIRQ: number of the transmit vector. -/
  txIrq : Nat
  /-- RXIRQ: number of the receive vector. -/
  rxIrq : Nat
  /-- PRIRQ: number of the protocol vector. -/
  prIrq : Nat
  /-- TXPRIO: a lower number preempts a higher one. -/
  txPrio : BitVec 8
  /-- RXPRIO. -/
  rxPrio : BitVec 8
  /-- PRPRIO. -/
  prPrio : BitVec 8
  /-- SRIDX: always routed to the transmit vector (R114), read by no rule (log 19). -/
  srIdx : Nat
  /-- EVOPEN: the event-enable mask `configure` establishes at open (R108). -/
  evOpen : EventMask
deriving DecidableEq, Repr

/-- The parameters all channels share (R5). -/
structure Params where
  /-- BAUDWL: the whitelist of baud rates. -/
  baudWl : List Word
  /-- PROTO_MON: whether the protocol vector exists (R159). -/
  protoMon : Bool
  /-- RX_MIXED_POLICY (R143). -/
  mixed : MixedPolicy
  /-- The relaxation R178 allows: the host may step while a vector is dispatchable (log 8). -/
  hostRelaxed : Bool
deriving DecidableEq, Repr

namespace Config

/-- Bits of EVEN that R26 says are always 0 (7:5 and 15:13), as the complement of the ten it names. -/
def namedEvents : EventMask := 0x1F1F

/-- The constraints R5 and U14 put on one channel's parameters by themselves, with `nch` channels and whitelist `wl`. -/
def chanParamsOk (nch : Nat) (wl : List Word) (p : ChanParams) : Bool :=
  (p.txCap == 0 || (decide (1 ≤ p.txLim.toNat) && decide (p.txLim.toNat ≤ p.txCap)))
    && (p.rxCap == 0 || decide (p.rxLim0.toNat + 1 ≤ p.rxCap))
    && wl.contains p.baud0
    && (p.evOpen &&& ~~~namedEvents == 0)
    && (match p.loopTo with | none => true | some d => decide (d < nch))

/-- The interrupt numbers of all vectors, channel by channel (R5, R170). -/
def irqNumbers (ps : List ChanParams) : List Nat := ps.flatMap fun p => [p.txIrq, p.rxIrq, p.prIrq]

/-- The six rates of R5. -/
def defaultBaudWl : List Word := [1200, 4800, 9600, 19200, 38400, 115200]

/-- R5, D23: a whitelist holds the six rates and not 57600. -/
def baudWlOk (wl : List Word) : Bool := defaultBaudWl.all wl.contains && !wl.contains 57600

/-- R5's constraints on all parameters: the whitelist's, each channel's own, and the interrupt numbers pairwise distinct. -/
def paramsOk (wl : List Word) (ps : List ChanParams) : Bool :=
  baudWlOk wl && ps.all (chanParamsOk ps.length wl) && decide (irqNumbers ps).Nodup

/-- The default number of channels (R5, D35). -/
def defaultNch : Nat := 4

/-- The default parameters of channel `c`: R5's values where it gives one, the choices of log 4 where it says OPEN. -/
def defaultChan (c : Nat) : ChanParams where
  txCap := 0
  rxCap := 0
  txLim := 1
  rxLim0 := 0
  baud0 := 9600
  frame := 0
  oversampling := 0
  inSrc := 0
  loopTo := none
  txIrq := 3 * c
  rxIrq := 3 * c + 1
  prIrq := 3 * c + 2
  txPrio := 0
  rxPrio := 0
  prPrio := 0
  srIdx := 0
  evOpen := 0

/-- The default shared parameters: R5's values, the choices of log 4 and log 8 where it says OPEN. -/
def defaultParams : Params where
  baudWl := defaultBaudWl
  protoMon := true
  mixed := .noop
  hostRelaxed := false

/-- The draw `ok` of R78: the hardware's answer to a baud-rate reprogramming (U10). -/
opaque drawBaudOk : Nat → Bool

/-- The draw `u` of R103: the byte an empty receive buffer reads as (U2). -/
opaque drawUnit : Nat → BitVec 8

/-- The draw `keep` of R118: whether the old unit survives a byte-mode overrun (U4). -/
opaque drawKeep : Nat → Bool

/-- The draw `drop` of R116: whether a FIFO-mode abort drops the head unit (U5). -/
opaque drawDrop : Nat → Bool

/-- The unspecified PTR field of a CHAR_RECEIVED record (R61, U9; log 6). -/
opaque drawCharPtr : Nat → BitVec 32

end Config
end Sys2Proof
end

