-- ==== Sys2Proof/Syntax.lean ====
section
/-! DEFINITION. The operations of the block: one constructor per row of spec/opcode_table.json. -/

namespace Sys2Proof

/-- R56 and R63: nine host commands, then eight steps of the other agents. `ch` is the channel index. -/
inductive Instr where
  /-- R75 -/
  | initOpen (ch : Nat)
  /-- R76 -/
  | initClose (ch : Nat)
  /-- R77: `request` is neither 0 nor 1. -/
  | initInvalid (ch : Nat) (request : Word)
  /-- R78 -/
  | setBaud (ch : Nat) (speed : Word)
  /-- R85 -/
  | tx (ch : Nat) (source length : Word)
  /-- R86 -/
  | rx (ch : Nat) (destination length : Word)
  /-- R87 -/
  | abortTx (ch : Nat)
  /-- R88 -/
  | abortRx (ch : Nat)
  /-- R89 -/
  | abortTxRx (ch : Nat)
  /-- R130 -/
  | irqTx (ch : Nat)
  /-- R140 -/
  | irqRx (ch : Nat)
  /-- R155 -/
  | irqProto (ch : Nat)
  /-- R134 -/
  | txDone (ch : Nat)
  /-- R117 -/
  | envTxShift (ch : Nat)
  /-- R118 -/
  | envRxArrive (ch : Nat) (unit : Byte)
  /-- R118, flagged alternate -/
  | envRxArriveAlt (ch : Nat) (unit : Byte)
  /-- R119: `flag` is the index 0 to 4 into PSTAT. -/
  | envPFlag (ch : Nat) (flag : Nat)
deriving DecidableEq, Repr

end Sys2Proof
end

