-- ==== Sys2Proof/WellFormed.lean ====
section
/-! DEFINITION. Which operations the words of spec/30_encoding.md can spell, with `nch` channels (R11, R58, R63, R64). -/

namespace Sys2Proof

/-- A command's CH field is 8 bits and names a channel that exists (R55, R64 (b)). -/
def commandChannelOk (nch ch : Nat) : Bool := decide (ch < nch) && decide (ch < 256)

/-- A schedule word's CH field is 4 bits and names a channel that exists (R63, R64 (b)). -/
def scheduleChannelOk (nch ch : Nat) : Bool := decide (ch < nch) && decide (ch < 16)

/-- The buffer does not run past the top of the address space (R43, R64 (f)). -/
def bufferFits (addr len : Word) : Bool := decide (addr.toNat + len.toNat ≤ 2 ^ 32)

/-- An operation some word spells (R64). -/
def Instr.wf (nch : Nat) : Instr → Bool
  | .initOpen c => commandChannelOk nch c
  | .initClose c => commandChannelOk nch c
  | .initInvalid c r => commandChannelOk nch c && r != 0 && r != 1
  | .setBaud c _ => commandChannelOk nch c
  | .tx c a b => commandChannelOk nch c && bufferFits a b
  | .rx c a b => commandChannelOk nch c && bufferFits a b
  | .abortTx c => commandChannelOk nch c
  | .abortRx c => commandChannelOk nch c
  | .abortTxRx c => commandChannelOk nch c
  | .irqTx c => scheduleChannelOk nch c
  | .irqRx c => scheduleChannelOk nch c
  | .irqProto c => scheduleChannelOk nch c
  | .txDone c => scheduleChannelOk nch c
  | .envTxShift c => scheduleChannelOk nch c
  | .envRxArrive c _ => scheduleChannelOk nch c
  | .envRxArriveAlt c _ => scheduleChannelOk nch c
  | .envPFlag c i => scheduleChannelOk nch c && decide (i < 5)

end Sys2Proof
end

