-- ==== Sys2Proof/Decode.lean ====
section
/-! DEFINITION. Decoding of the words of spec/30_encoding.md (R55 to R66), total, rejecting by name, and the encoder. -/

namespace Sys2Proof

/-- Why a word is refused: the cases of R64. -/
inductive Reject where
  /-- R64 (a): OP outside 0x01 to 0x05. -/
  | reservedOp
  /-- R64 (b): CH names no channel. -/
  | channelOutOfRange
  /-- R64 (c): ABORT with a direction outside 1, 2, 3. -/
  | reservedDirection
  /-- R64 (d): KIND in 4 to 7 or 12 to 15. -/
  | reservedKind
  /-- R64 (e): ARG not 0 for a kind without argument, or 5 and above for ENV.PFLAG. -/
  | reservedArg
  /-- R64 (f): TX or RX with A + B above 2^32. -/
  | bufferPastTop
deriving DecidableEq, Repr

/-- CMD.OP, bits 79:72 (R55). -/
def cmdOp (w : BitVec 80) : BitVec 8 := w.extractLsb' 72 8
/-- CMD.CH, bits 71:64. -/
def cmdCh (w : BitVec 80) : BitVec 8 := w.extractLsb' 64 8
/-- CMD.A, bits 63:32. -/
def cmdA (w : BitVec 80) : Word := w.extractLsb' 32 32
/-- CMD.B, bits 31:0. -/
def cmdB (w : BitVec 80) : Word := w.extractLsb' 0 32

/-- SCH.KIND, bits 15:12 (R63). -/
def schKind (w : BitVec 16) : BitVec 4 := w.extractLsb' 12 4
/-- SCH.CH, bits 11:8. -/
def schCh (w : BitVec 16) : BitVec 4 := w.extractLsb' 8 4
/-- SCH.ARG, bits 7:0. -/
def schArg (w : BitVec 16) : BitVec 8 := w.extractLsb' 0 8

/-- The request field of INIT (R58): the rows INIT.OPEN and INIT.CLOSE come before INIT.INVALID (R66). -/
def decodeInit (c : Nat) (a : Word) : Instr :=
  if a = 1 then .initOpen c else if a = 0 then .initClose c else .initInvalid c a

/-- The direction field of ABORT (R59). -/
def decodeAbort (c : Nat) (a : Word) : Except Reject Instr :=
  if a = 1 then .ok (.abortTx c)
  else if a = 2 then .ok (.abortRx c)
  else if a = 3 then .ok (.abortTxRx c)
  else .error .reservedDirection

/-- The decoding algorithm of R66, with the wrap check of R64 (f). -/
def decodeCmd (nch : Nat) (w : BitVec 80) : Except Reject Instr :=
  let c := (cmdCh w).toNat
  let a := cmdA w
  let b := cmdB w
  if nch ≤ c then .error .channelOutOfRange
  else match (cmdOp w).toNat with
    | 1 => .ok (decodeInit c a)
    | 2 => .ok (.setBaud c a)
    | 3 => if bufferFits a b then .ok (.tx c a b) else .error .bufferPastTop
    | 4 => if bufferFits a b then .ok (.rx c a b) else .error .bufferPastTop
    | 5 => decodeAbort c a
    | _ => .error .reservedOp

/-- A kind without argument: ARG must be 0 (R64 (e)). -/
def decodeNoArg (arg : BitVec 8) (i : Instr) : Except Reject Instr :=
  if arg = 0 then .ok i else .error .reservedArg

/-- The kinds of R63. -/
def decodeSch (nch : Nat) (w : BitVec 16) : Except Reject Instr :=
  let c := (schCh w).toNat
  let arg := schArg w
  if nch ≤ c then .error .channelOutOfRange
  else match (schKind w).toNat with
    | 0 => decodeNoArg arg (.irqTx c)
    | 1 => decodeNoArg arg (.irqRx c)
    | 2 => decodeNoArg arg (.irqProto c)
    | 3 => decodeNoArg arg (.txDone c)
    | 8 => decodeNoArg arg (.envTxShift c)
    | 9 => .ok (.envRxArrive c arg)
    | 10 => .ok (.envRxArriveAlt c arg)
    | 11 => if arg.toNat < 5 then .ok (.envPFlag c arg.toNat) else .error .reservedArg
    | _ => .error .reservedKind

/-- The operation a word spells in a machine of `nch` channels (R55, R63, R66). -/
def decode (nch : Nat) : HwWord → Except Reject Instr
  | .cmd w => decodeCmd nch w
  | .sch w => decodeSch nch w

/-- A descriptor from its fields, most significant first (R55); a channel number is cut to the field's 8 bits. -/
def encodeCmd (op : BitVec 8) (c : Nat) (a b : Word) : HwWord :=
  .cmd (op ++ BitVec.ofNat 8 c ++ a ++ b)

/-- A schedule word from its fields (R63); a channel number is cut to the field's 4 bits. -/
def encodeSch (kind : BitVec 4) (c : Nat) (arg : BitVec 8) : HwWord :=
  .sch (kind ++ BitVec.ofNat 4 c ++ arg)

/-- The word of an operation, with 0 in the fields it ignores (R56 to R59, R63, R67). -/
def encode : Instr → HwWord
  | .initOpen c => encodeCmd 0x01 c 1 0
  | .initClose c => encodeCmd 0x01 c 0 0
  | .initInvalid c r => encodeCmd 0x01 c r 0
  | .setBaud c v => encodeCmd 0x02 c v 0
  | .tx c a b => encodeCmd 0x03 c a b
  | .rx c a b => encodeCmd 0x04 c a b
  | .abortTx c => encodeCmd 0x05 c 1 0
  | .abortRx c => encodeCmd 0x05 c 2 0
  | .abortTxRx c => encodeCmd 0x05 c 3 0
  | .irqTx c => encodeSch 0x0 c 0
  | .irqRx c => encodeSch 0x1 c 0
  | .irqProto c => encodeSch 0x2 c 0
  | .txDone c => encodeSch 0x3 c 0
  | .envTxShift c => encodeSch 0x8 c 0
  | .envRxArrive c u => encodeSch 0x9 c u
  | .envRxArriveAlt c u => encodeSch 0xA c u
  | .envPFlag c i => encodeSch 0xB c (BitVec.ofNat 8 i)

/-- The channel an operation names (R4: every step is a step on one channel). -/
def Instr.ch : Instr → Nat
  | .initOpen c => c
  | .initClose c => c
  | .initInvalid c _ => c
  | .setBaud c _ => c
  | .tx c _ _ => c
  | .rx c _ _ => c
  | .abortTx c => c
  | .abortRx c => c
  | .abortTxRx c => c
  | .irqTx c => c
  | .irqRx c => c
  | .irqProto c => c
  | .txDone c => c
  | .envTxShift c => c
  | .envRxArrive c _ => c
  | .envRxArriveAlt c _ => c
  | .envPFlag c _ => c

/-- Whether an operation is a host command, that is an 80-bit descriptor (R4, R55). -/
def Instr.isCommand : Instr → Bool
  | .initOpen _ => true
  | .initClose _ => true
  | .initInvalid _ _ => true
  | .setBaud _ _ => true
  | .tx _ _ _ => true
  | .rx _ _ _ => true
  | .abortTx _ => true
  | .abortRx _ => true
  | .abortTxRx _ => true
  | .irqTx _ => false
  | .irqRx _ => false
  | .irqProto _ => false
  | .txDone _ => false
  | .envTxShift _ => false
  | .envRxArrive _ _ => false
  | .envRxArriveAlt _ _ => false
  | .envPFlag _ _ => false

/-- The machine word of the opcode table's numbering: every row is one word, bit 0 its least significant bit
(R6, R65), a schedule word of 16 bits or a descriptor of 80. -/
def tableWord (nbits w : Nat) : HwWord :=
  if nbits ≤ 16 then .sch (BitVec.ofNat 16 w) else .cmd (BitVec.ofNat 80 w)

/-- What the decoder reads from a row of the opcode table, in a machine of the default number of channels. -/
def decodeTableWord (nbits w : Nat) : Option Instr :=
  (decode Config.defaultNch (tableWord nbits w)).toOption

end Sys2Proof
end

