-- ==== Sys2Proof/Machine/Formats.lean ====
section
/-! DEFINITION. What the block reports: statuses (spec/30_encoding.md R60), callback events (R62) and callback records (R61). -/

namespace Sys2Proof.Machine

/-- STATUS (R60). OutOfBound is in the vocabulary and no operation returns it (U7). -/
inductive Status where
  | success
  | failed
  | busy
  | invalidArgument
  | outOfBound
deriving DecidableEq, Repr

/-- The 8-bit STATUS value (R60). -/
def Status.code : Status → BitVec 8
  | .success => 0x00
  | .failed => 0x01
  | .busy => 0x02
  | .invalidArgument => 0x03
  | .outOfBound => 0x04

/-- The status an 8-bit value stands for; 0x05 and above are never produced (R60). -/
def Status.ofCode (v : BitVec 8) : Option Status :=
  match v.toNat with
  | 0 => some .success
  | 1 => some .failed
  | 2 => some .busy
  | 3 => some .invalidArgument
  | 4 => some .outOfBound
  | _ => none

/-- EVENT (R62, R168). -/
inductive Event where
  | txComplete
  | rxComplete
  | charReceived
  | syncBreak
  | rxNoise
  | formatError0
  | formatError1
  | collision
deriving DecidableEq, Repr

/-- The 8-bit EVENT code (R62). -/
def Event.code : Event → BitVec 8
  | .txComplete => 0x01
  | .rxComplete => 0x02
  | .charReceived => 0x03
  | .syncBreak => 0x10
  | .rxNoise => 0x11
  | .formatError0 => 0x12
  | .formatError1 => 0x13
  | .collision => 0x14

/-- The event an 8-bit code stands for; other codes are never emitted (R62). -/
def Event.ofCode (v : BitVec 8) : Option Event :=
  match v.toNat with
  | 0x01 => some .txComplete
  | 0x02 => some .rxComplete
  | 0x03 => some .charReceived
  | 0x10 => some .syncBreak
  | 0x11 => some .rxNoise
  | 0x12 => some .formatError0
  | 0x13 => some .formatError1
  | 0x14 => some .collision
  | _ => none

/-- One notification (R61): the channel, the event, the data pointer (0 for null) and the received unit. -/
structure CbRec where
  ch : Nat
  event : Event
  ptr : Word
  data : Byte
deriving DecidableEq, Repr

/-- The 56-bit CBREC word: CH 55:48, EVENT 47:40, PTR 39:8, DATA 7:0 (R61). -/
def CbRec.encode (r : CbRec) : BitVec 56 :=
  BitVec.ofNat 8 r.ch ++ r.event.code ++ r.ptr ++ r.data

/-- The record a CBREC word stands for (R61, R62). -/
def CbRec.decode (w : BitVec 56) : Option CbRec :=
  match Event.ofCode (w.extractLsb' 40 8) with
  | some ev => some { ch := (w.extractLsb' 48 8).toNat, event := ev, ptr := w.extractLsb' 8 32, data := w.extractLsb' 0 8 }
  | none => none

/-- The fault table of R156, in scan order: the index into PSTAT and the event reported. -/
def faultTable : List (Nat × Event) :=
  [(0, .syncBreak), (1, .rxNoise), (2, .formatError0), (3, .formatError1), (4, .collision)]

end Sys2Proof.Machine
end

