-- ==== Sys2Proof/Machine/State.lean ====
section
/-! DEFINITION. The state of the block (spec/10_state.md R10 to R32; MEM of spec/20_memory.md R40), its outcomes, and reset. -/

namespace Sys2Proof.Machine

/-- The kind of an interrupt vector (R28, R169). -/
inductive Vec where
  | tx
  | rx
  | pr
deriving DecidableEq, Repr

/-- IEN, IPEND, IPRIO of one vector (R28). -/
structure VecRegs where
  en : Bool
  pend : Bool
  prio : BitVec 8
deriving DecidableEq, Repr

/-- The five flags of STATE[c] (R12 to R15); the 8-bit word is `ChanFlags.stateWord` (log 15). -/
structure ChanFlags where
  init : Bool
  txLock : Bool
  txBusy : Bool
  rxLock : Bool
  rxBusy : Bool
deriving DecidableEq, Repr

/-- The registers of a transfer control block (R18, R19). -/
structure Tcb where
  ptr : Word
  len : Word
  idx : Word
deriving DecidableEq, Repr

/-- One channel (R10): its parameters, then its state. -/
structure Chan where
  /-- The parameters of R5; no step writes them (log 3). -/
  par : ChanParams
  /-- STATE (R12). -/
  flags : ChanFlags
  /-- TXPTR, TXLEN, TXIDX (R18). -/
  tx : Tcb
  /-- RXPTR, RXLEN, RXIDX (R19). -/
  rx : Tcb
  /-- BAUD (R20). -/
  baud : Word
  /-- RUN (R22). -/
  run : Bool
  /-- TXQ, oldest at the head (R23). -/
  txq : List Byte
  /-- RXQ, oldest at the head (R24). -/
  rxq : List Byte
  /-- TXLIMIT (R25). -/
  txLimit : Word
  /-- RXLIM (R25). -/
  rxLim : Word
  /-- EVEN (R26). -/
  even : EventMask
  /-- PSTAT (R27). -/
  pstat : BitVec 8
  /-- IEN, IPEND, IPRIO of the transmit vector (R28). -/
  vTx : VecRegs
  /-- The same of the receive vector. -/
  vRx : VecRegs
  /-- The same of the protocol vector. -/
  vPr : VecRegs
  /-- TXWAIT (R29). -/
  txWait : Bool
  /-- TXLINE, the units that left for the line, in order (R30). -/
  txLine : List Byte
deriving DecidableEq, Repr

/-- The two execution contexts (R179). -/
inductive Ctx where
  | mainLine
  | interrupt
deriving DecidableEq, Repr

/-- A status delivered to whoever issued the command: the host, or the callback consumer (R8, R181; log 16). -/
structure StatusRec where
  ctx : Ctx
  status : Status
deriving DecidableEq, Repr

/-- What the outside puts next: a word (R55, R63; log 1), or a byte the host stores in its own memory (R47; log 17). -/
inductive Item where
  | word (w : HwWord)
  | store (addr : Word) (b : Byte)
deriving DecidableEq, Repr

/-- MEM as its listed cells: addresses strictly rising, none equal to what an unlisted address reads as (R40; log 11). -/
abbrev Memory := List Host.Cell

/-- The state of the machine (R10). -/
structure State where
  /-- The shared parameters of R5; no step writes them (log 3). -/
  par : Params
  /-- The channels 0 to NCH - 1. -/
  chans : List Chan
  /-- ACTIVE: handlers entered and not returned, top at the head (R29). -/
  active : List (Nat × Vec)
  /-- MEM (R40). -/
  mem : Memory
  /-- CBLOG (R30). -/
  cbLog : List CbRec
  /-- The statuses delivered so far (R8; log 16). -/
  statusLog : List StatusRec
  /-- The steps still to come, oldest first (log 1). -/
  sched : List Item
  /-- CB_PROGRAM as the consumer's answers to the notifications to come, oldest first (R181; log 9). -/
  consumer : List (List (BitVec 80))
  /-- How many draws have been made (R7; log 5). -/
  draws : Nat
deriving DecidableEq, Repr

/-- Behaviour the machine cannot go on from. No state that satisfies the model's invariant reaches one. -/
inductive Fault where
  /-- U3, R102: `tx_push` onto a full transmit queue; raised by the byte-mode fill of IRQ.TX. Safe. -/
  | pushOnOccupiedBuffer
  /-- R40: an access at 2^32 or above; raised by IRQ.TX and IRQ.RX. Safe (log 12). -/
  | addressOutsideSpace
  /-- R106: a receive limit with nothing remaining; raised by IRQ.RX. Safe (log 14). -/
  | limitOutOfRange
deriving DecidableEq, Repr

/-- Why there is no step. -/
inductive Refusal where
  /-- exec's own answer for an operation without a meaning. Safe. -/
  | notModelled (mnemonic : String)
  /-- U1, R64: a reserved word, in the schedule or from the callback consumer; raised by step, by the callback, and by
  every operation given a channel or a buffer no word can spell. Safe (log 23). -/
  | reserved (r : Reject)
  /-- The schedule is empty: no agent is named; raised by step. Safe (log 1). -/
  | scheduleEmpty
  /-- R178: a host command while a handler is active or a vector is dispatchable; raised by the nine commands. Safe (log 2). -/
  | hostHeldOff
  /-- R173, R155: IRQ.TX, IRQ.RX or IRQ.PROTO of a vector that is not dispatchable. Safe (log 2). -/
  | notDispatchable
  /-- R134: TXDONE when its handler does not wait, is not the running context, or units are queued. Safe (log 2). -/
  | waitNotOver
  /-- R117, R123: ENV.TXSHIFT on a stopped channel or an empty queue. Safe (log 2). -/
  | nothingToShift
  /-- R118, R123: ENV.RXARRIVE(.ALT) on a stopped channel, a full FIFO, or a receiver wired to a transmitter. Safe (log 2). -/
  | noArrival
  /-- R119, R123: ENV.PFLAG on a stopped channel. Safe (log 2). -/
  | noDetection
  /-- U6: a nested command on the transmit direction of a channel whose transmit handler is suspended; raised by the
  callback. Safe (log 10). -/
  | nestedOnSuspendedTx
deriving DecidableEq, Repr

/-- A vector at reset (R32). -/
def VecRegs.reset : VecRegs := { en := false, pend := false, prio := 0 }

/-- A channel at reset (R32). -/
def Chan.reset (p : ChanParams) : Chan where
  par := p
  flags := { init := false, txLock := false, txBusy := false, rxLock := false, rxBusy := false }
  tx := { ptr := 0, len := 0, idx := 0 }
  rx := { ptr := 0, len := 0, idx := 0 }
  baud := p.baud0
  run := false
  txq := []
  rxq := []
  txLimit := 0
  rxLim := 0
  even := 0
  pstat := 0
  vTx := VecRegs.reset
  vRx := VecRegs.reset
  vPr := VecRegs.reset
  txWait := false
  txLine := []

/-- The machine right after reset (R32, R200) with given parameters: NCH is the length of `ps`. -/
def State.resetWith (p : Params) (ps : List ChanParams) : State where
  par := p
  chans := ps.map Chan.reset
  active := []
  mem := []
  cbLog := []
  statusLog := []
  sched := []
  consumer := []
  draws := 0

/-- The machine right after reset with the default parameters (log 4). -/
def State.reset : State :=
  State.resetWith Config.defaultParams ((List.range Config.defaultNch).map Config.defaultChan)

end Sys2Proof.Machine
end

