-- ==== Sys2Proof/Machine/Operands.lean ====
section
/-! DEFINITION. The operands the operations work on: effective addresses (spec/20_memory.md R43), the mode, depth and event
masks of each direction (spec/42_fifo_occupancy.md R100), the receive limit formula (R106), the interrupt table (R183). -/

namespace Sys2Proof.Machine

/-- Base plus index, in unbounded integers (R43). -/
def Tcb.address (t : Tcb) : Nat := t.ptr.toNat + t.idx.toNat

/-- The index after one unit (R43: post-increment). -/
def Tcb.advance (t : Tcb) : Tcb := { t with idx := t.idx + 1 }

/-- How many units of the request are still to be moved. -/
def Tcb.remaining (t : Tcb) : Nat := t.len.toNat - t.idx.toNat

/-- TXFIFO(c) (R100). -/
def Chan.txFifo (ch : Chan) : Bool := ch.par.txCap != 0
/-- RXFIFO(c) (R100). -/
def Chan.rxFifo (ch : Chan) : Bool := ch.par.rxCap != 0
/-- TXDEPTH[c] (R100). -/
def Chan.txDepth (ch : Chan) : Nat := if ch.txFifo then ch.par.txCap else 1
/-- RXDEPTH[c] (R100). -/
def Chan.rxDepth (ch : Chan) : Nat := if ch.rxFifo then ch.par.rxCap else 1

/-- EVEN bit 0, TBE (R26). -/
def evTbe : EventMask := 0x0001
/-- EVEN bit 1, TXF_STD. -/
def evTxfStd : EventMask := 0x0002
/-- EVEN bit 2, RXE. -/
def evRxe : EventMask := 0x0004
/-- EVEN bit 3, RXF_STD. -/
def evRxfStd : EventMask := 0x0008
/-- EVEN bit 4, RXF_ALT. -/
def evRxfAlt : EventMask := 0x0010

/-- TXEVM(c) (R100). -/
def Chan.txEvm (ch : Chan) : EventMask := if ch.txFifo then evTxfStd else evTbe
/-- RXEVM(c) (R100). -/
def Chan.rxEvm (ch : Chan) : EventMask := if ch.rxFifo then evRxfStd ||| evRxfAlt else evRxe

/-- LIMIT(remaining, cap), for remaining and cap at least 1 (R106). -/
def rxLimitFor (remaining cap : Nat) : Nat := min remaining cap - 1

/-- The interrupt number of a vector (R170). -/
def Chan.irqNumber (ch : Chan) : Vec → Nat
  | .tx => ch.par.txIrq
  | .rx => ch.par.rxIrq
  | .pr => ch.par.prIrq

/-- The configured priority of a vector (R5). -/
def Chan.configuredPrio (ch : Chan) : Vec → BitVec 8
  | .tx => ch.par.txPrio
  | .rx => ch.par.rxPrio
  | .pr => ch.par.prPrio

/-- NCH (R5). -/
def State.nch (s : State) : Nat := s.chans.length

/-- Channel `c`; a number that names no channel gives a channel at reset, which never runs. -/
def State.chan (s : State) (c : Nat) : Chan := s.chans.getD c (Chan.reset (Config.defaultChan c))

/-- Every vector of the machine (R28). -/
def State.allVecs (s : State) : List (Nat × Vec) :=
  (List.range s.nch).flatMap fun c => [(c, .tx), (c, .rx), (c, .pr)]

/-- The interrupt numbers in the order of `allVecs`. -/
def State.irqNumbers (s : State) : List Nat := s.allVecs.map fun v => (s.chan v.1).irqNumber v.2

/-- The dispatch table (R183): the vector an interrupt number stands for, if it is the block's (log 31). -/
def State.vectorOfIrq (s : State) (n : Nat) : Option (Nat × Vec) :=
  s.allVecs.find? fun v => (s.chan v.1).irqNumber v.2 == n

/-- The channel whose receiver is wired to some transmitter (R118, R120). -/
def State.wiredReceiver (s : State) (c : Nat) : Bool :=
  s.chans.any fun ch => ch.par.loopTo == some c

end Sys2Proof.Machine
end

