-- ==== Sys2Proof/Machine/Flags.lean ====
section
/-! DEFINITION. The flags: the STATE word (spec/10_state.md R12), the guards the rules test, the occupancy predicates
(spec/42_fifo_occupancy.md R101), event enables (R26) and protocol status bits (R27). -/

namespace Sys2Proof.Machine

/-- One bit of a word at a position. -/
def bitAt (n : Nat) (b : Bool) : BitVec 8 := if b then BitVec.twoPow 8 n else 0

/-- STATE[c] as the 8-bit word of R12: INIT, TXLOCK, TXBUSY, RXLOCK, RXBUSY from bit 0 up, bits 7:5 zero. -/
def ChanFlags.stateWord (f : ChanFlags) : BitVec 8 :=
  bitAt 0 f.init ||| bitAt 1 f.txLock ||| bitAt 2 f.txBusy ||| bitAt 3 f.rxLock ||| bitAt 4 f.rxBusy

/-- The guard of the transmit handler (R130). -/
def ChanFlags.txInFlight (f : ChanFlags) : Bool := f.txLock && f.txBusy
/-- The guard of the solicited receive path (R140). -/
def ChanFlags.rxInFlight (f : ChanFlags) : Bool := f.rxLock && f.rxBusy
/-- No receive request is outstanding: the guard of the unsolicited path (R140). -/
def ChanFlags.rxIdle (f : ChanFlags) : Bool := !f.rxLock && !f.rxBusy
/-- Any transfer flag is set (R78). -/
def ChanFlags.anyTransfer (f : ChanFlags) : Bool := f.txLock || f.txBusy || f.rxLock || f.rxBusy

/-- tx_level (R101). -/
def Chan.txLevel (ch : Chan) : Nat := ch.txq.length
/-- rx_level (R101). -/
def Chan.rxLevel (ch : Chan) : Nat := ch.rxq.length
/-- tx_empty (R101). -/
def Chan.txEmpty (ch : Chan) : Bool := ch.txLevel == 0
/-- rx_empty (R101). -/
def Chan.rxEmpty (ch : Chan) : Bool := ch.rxLevel == 0
/-- tx_full (R101). -/
def Chan.txFull (ch : Chan) : Bool := ch.txLevel == ch.txDepth
/-- rx_full (R101). -/
def Chan.rxFull (ch : Chan) : Bool := ch.rxLevel == ch.rxDepth

/-- Whether an event (a one-bit mask of R26) is enabled. -/
def Chan.evEnabled (ch : Chan) (m : EventMask) : Bool := ch.even &&& m != 0

/-- Whether protocol condition `i` is enabled: EVEN bit 8 + i (R26). -/
def Chan.protoEnabled (ch : Chan) (i : Nat) : Bool := ch.even.getLsbD (8 + i)
/-- Whether protocol condition `i` is flagged: PSTAT bit i (R27). -/
def Chan.protoFlagged (ch : Chan) (i : Nat) : Bool := ch.pstat.getLsbD i

/-- The registers of a vector (R28). -/
def Chan.vec (ch : Chan) : Vec → VecRegs
  | .tx => ch.vTx
  | .rx => ch.vRx
  | .pr => ch.vPr

/-- A vector that is enabled and pending (R173). -/
def VecRegs.wants (v : VecRegs) : Bool := v.en && v.pend

/-- R173: the vector may preempt what runs now. -/
def State.outranksRunning (s : State) (p : BitVec 8) : Bool :=
  match s.active with
  | [] => true
  | h :: _ => decide (p < ((s.chan h.1).vec h.2).prio)

/-- R173: vector (c, k) is dispatchable. -/
def State.dispatchable (s : State) (c : Nat) (k : Vec) : Bool :=
  let v := (s.chan c).vec k
  v.wants && s.outranksRunning v.prio
    && s.allVecs.all fun o => !(((s.chan o.1).vec o.2).wants && decide (((s.chan o.1).vec o.2).prio < v.prio))

/-- Some vector is dispatchable (R178). -/
def State.anyDispatchable (s : State) : Bool := s.allVecs.any fun v => s.dispatchable v.1 v.2

/-- R178: a host command is enabled; with the relaxation the rule allows, a dispatchable vector does not hold it off (log 8). -/
def State.hostEnabled (s : State) : Bool :=
  s.active.isEmpty && (s.par.hostRelaxed || !s.anyDispatchable)

/-- R134: TXDONE is enabled. -/
def State.txDoneEnabled (s : State) (c : Nat) : Bool :=
  (s.chan c).txWait && s.active.head? == some (c, .tx) && (s.chan c).txEmpty

/-- R117: ENV.TXSHIFT is enabled. -/
def State.shiftEnabled (s : State) (c : Nat) : Bool := (s.chan c).run && !(s.chan c).txEmpty

/-- R118, R120: the receiver takes a unit: it runs and, in FIFO mode, has room. -/
def Chan.takesUnit (ch : Chan) : Bool := ch.run && !(ch.rxFifo && ch.rxFull)

/-- R118: ENV.RXARRIVE is enabled. -/
def State.arrivalEnabled (s : State) (c : Nat) : Bool := (s.chan c).takesUnit && !s.wiredReceiver c

end Sys2Proof.Machine
end

