-- ==== Sys2Proof/Machine/Ops.lean ====
section
/-! DEFINITION. The named operations over memory and registers: MEM (spec/20_memory.md), the primitives of
spec/42_fifo_occupancy.md R102 to R116, pending, handler entry and return (spec/60_exceptions.md R171, R175, R176), draws and ports. -/

namespace Sys2Proof.Machine

/-- The outcome of an operation that may stop. -/
abbrev Result := Host.Outcome State Fault Refusal

/-- Go on from a next state; a stop stays a stop. -/
def andThen (o : Result) (f : State → Result) : Result :=
  match o with
  | .next s => f s
  | .fault r => .fault r
  | .refused r => .refused r

/-! Buffer memory. -/

/-- What an address with no listed cell reads as (log 11). -/
def Memory.unlisted : Byte := 0

/-- Where the address space ends (R40). -/
def Memory.top : Nat := 2 ^ 32

/-- The byte at an address. -/
def Memory.read : Memory → Nat → Byte
  | [], _ => Memory.unlisted
  | (k, v) :: m, a => if k = a then v else Memory.read m a

/-- Put a cell before a list of cells, unless it holds what an unlisted address reads as. -/
def Memory.cons (a : Nat) (b : Byte) (m : Memory) : Memory :=
  if b = Memory.unlisted then m else (a, b) :: m

/-- Store a byte, keeping the canonical form. -/
def Memory.write : Memory → Nat → Byte → Memory
  | [], a, b => Memory.cons a b []
  | (k, v) :: m, a, b =>
    if a < k then Memory.cons a b ((k, v) :: m)
    else if a = k then Memory.cons a b m
    else (k, v) :: Memory.write m a b

/-- The canonical form: addresses strictly rising, none at or above the top, no cell equal to an unlisted byte. -/
abbrev Memory.wf (m : Memory) : Prop :=
  m.Pairwise (fun x y => x.1 < y.1) ∧ ∀ x ∈ m, x.1 < Memory.top ∧ x.2 ≠ Memory.unlisted

/-- MemRead(addr, 1) (R43, R46). -/
def memRead (m : Memory) (a : Nat) : Except Fault Byte :=
  if a < Memory.top then .ok (m.read a) else .error .addressOutsideSpace

/-- MemWrite(addr, 1, b) (R43, R46). -/
def memWrite (m : Memory) (a : Nat) (b : Byte) : Except Fault Memory :=
  if a < Memory.top then .ok (m.write a b) else .error .addressOutsideSpace

/-- The machine with another memory. -/
def State.withMem (s : State) (m : Memory) : State := { s with mem := m }

/-! Channel registers. -/

/-- Change channel `c`. -/
def State.modChan (s : State) (c : Nat) (f : Chan → Chan) : State := { s with chans := s.chans.modify c f }

/-- Change the registers of one vector. -/
def Chan.modVec (ch : Chan) (k : Vec) (f : VecRegs → VecRegs) : Chan :=
  match k with
  | .tx => { ch with vTx := f ch.vTx }
  | .rx => { ch with vRx := f ch.vRx }
  | .pr => { ch with vPr := f ch.vPr }

/-- `pend(c, k)` (R171). -/
def Chan.pend (ch : Chan) (k : Vec) : Chan := ch.modVec k fun v => { v with pend := true }

/-- `pend(c, k)` when a condition holds. -/
def Chan.pendIf (ch : Chan) (k : Vec) (b : Bool) : Chan := if b then ch.pend k else ch

/-- The dispatch of a vector clears its pending bit (R175). -/
def Chan.unpend (ch : Chan) (k : Vec) : Chan := ch.modVec k fun v => { v with pend := false }

/-- `nvic_set_priority(c, k, p); nvic_enable(c, k)` (R115), with the configured priority. -/
def Chan.nvicEnable (ch : Chan) (k : Vec) : Chan :=
  ch.modVec k fun v => { v with en := true, prio := ch.configuredPrio k }

/-- `tx_push(c, u)` (R102); onto a full queue it is U3. -/
def Chan.txPush (ch : Chan) (u : Byte) : Except Fault Chan :=
  if ch.txFull then .error .pushOnOccupiedBuffer else .ok { ch with txq := ch.txq ++ [u] }

/-- `tx_flush(c)` (R104). -/
def Chan.txFlush (ch : Chan) : Chan := { ch with txq := [] }
/-- `rx_flush(c)` (R104). -/
def Chan.rxFlush (ch : Chan) : Chan := { ch with rxq := [] }

/-- `hci_txfifo_configure(c)` (R105). -/
def Chan.txFifoConfigure (ch : Chan) : Chan := { ch with txq := [], txLimit := ch.par.txLim }
/-- `hci_rxfifo_configure(c)` (R105). -/
def Chan.rxFifoConfigure (ch : Chan) : Chan := { ch with rxq := [], rxLim := ch.par.rxLim0 }

/-- `rx_set_limit(c, LIMIT(remaining, RXCAP))` (R106). -/
def Chan.rxSetLimit (ch : Chan) (remaining : Nat) : Chan :=
  { ch with rxLim := BitVec.ofNat 32 (rxLimitFor remaining ch.par.rxCap) }

/-- `ev_enable(c, m)` (R107). -/
def Chan.evEnable (ch : Chan) (m : EventMask) : Chan := { ch with even := ch.even ||| m }
/-- `ev_disable(c, m)` (R107). -/
def Chan.evDisable (ch : Chan) (m : EventMask) : Chan := { ch with even := ch.even &&& ~~~m }

/-- `hci_configure(c)` (R108). -/
def Chan.configure (ch : Chan) : Chan := { ch with even := ch.par.evOpen }

/-- `hci_set_input_source(c)` (R109): no effect on the state. -/
def Chan.setInputSource (ch : Chan) : Chan := ch

/-- `hci_start(c)` (R110). -/
def Chan.start (ch : Chan) : Chan := { ch with run := true }

/-- `hci_stop(c)` (R111): none is the answer busy. -/
def Chan.stop (ch : Chan) : Option Chan := if ch.txEmpty then some { ch with run := false } else none

/-- `hci_clear_status_flag(c, i)` (R113). -/
def Chan.clearFlag (ch : Chan) (i : Nat) : Chan := { ch with pstat := ch.pstat &&& ~~~(BitVec.twoPow 8 i) }

/-- A protocol status flag becomes set (R119). -/
def Chan.setFlag (ch : Chan) (i : Nat) : Chan := { ch with pstat := ch.pstat ||| BitVec.twoPow 8 i }

/-- `hci_trigger_service_request(c)` (R114). -/
def Chan.triggerServiceRequest (ch : Chan) : Chan := ch.pend .tx

/-! Draws and ports. -/

/-- One more draw has been made (R7; log 5). -/
def State.drawn (s : State) : State := { s with draws := s.draws + 1 }

/-- A command's status on the status port (R60, R165; log 16). -/
def State.reply (s : State) (x : Ctx) (st : Status) : State :=
  { s with statusLog := s.statusLog ++ [{ ctx := x, status := st }] }

/-- `rx_pop(c)` (R103): the head, or a draw from an empty queue, and the state after it. -/
def State.rxPop (s : State) (c : Nat) : Byte × State :=
  match (s.chan c).rxq with
  | u :: q => (u, s.modChan c fun ch => { ch with rxq := q })
  | [] => (Config.drawUnit s.draws, s.drawn)

/-- `tx_force_idle(c)` (R116): byte mode empties the buffer, FIFO mode draws whether the head unit is dropped. -/
def State.txForceIdle (s : State) (c : Nat) : State :=
  if (s.chan c).txFifo then
    s.drawn.modChan c fun ch => { ch with txq := if Config.drawDrop s.draws then ch.txq.tail else ch.txq }
  else s.modChan c Chan.txFlush

/-! Arrival of a unit. -/

/-- `arrive(c, u, alt)` in FIFO mode (R118): the standard event on the edge RXLIM to RXLIM + 1, the alternate one when flagged. -/
def Chan.arriveFifo (ch : Chan) (u : Byte) (alt : Bool) : Chan :=
  let std := ch.rxLevel == ch.rxLim.toNat && ch.evEnabled evRxfStd
  { ch with rxq := ch.rxq ++ [u] }.pendIf .rx (std || (alt && ch.evEnabled evRxfAlt))

/-- `arrive(c, u, alt)` in byte mode (R118), given whether the old unit survives an overrun. -/
def Chan.arriveByte (ch : Chan) (u : Byte) (keep : Bool) : Chan :=
  { ch with rxq := if ch.rxEmpty || !keep then [u] else ch.rxq }.pendIf .rx (ch.evEnabled evRxe)

/-- `arrive(c, u, alt)` (R118): `keep` is drawn only when a byte-mode buffer is occupied (U4). -/
def State.arrive (s : State) (c : Nat) (u : Byte) (alt : Bool) : State :=
  if (s.chan c).rxFifo then s.modChan c fun ch => ch.arriveFifo u alt
  else if (s.chan c).rxEmpty then s.modChan c fun ch => ch.arriveByte u true
  else s.drawn.modChan c fun ch => ch.arriveByte u (Config.drawKeep s.draws)

/-- `deliver(d, u)` (R120): the loopback wire; a receiver that takes no unit loses it. -/
def State.deliver (s : State) (d : Nat) (u : Byte) : State :=
  if (s.chan d).takesUnit then s.arrive d u false else s

/-! Handler entry and return. -/

/-- `enter(c, k)` (R175): the vector's pending bit clears and the handler goes on top of ACTIVE. -/
def State.enter (s : State) (c : Nat) (k : Vec) : State :=
  { s.modChan c (fun ch => ch.unpend k) with active := (c, k) :: s.active }

/-- `leave(c, k)` (R176), called where (c, k) is the head of ACTIVE (log 25). -/
def State.leave (s : State) : State := { s with active := s.active.tail }

/-- The IDL runs the handler `body` of vector (c, k), if that vector is dispatchable (R173, R175). -/
def dispatchVector (c : Nat) (k : Vec) (body : State → Result) (s : State) : Result :=
  if s.nch ≤ c then .refused (.reserved .channelOutOfRange)
  else if s.dispatchable c k then body (s.enter c k)
  else .refused .notDispatchable

/-- The host issues a command on channel `c` whose effect and status are `f` (R178, R60). -/
def hostCommand (c : Nat) (f : State → State × Status) (s : State) : Result :=
  if s.nch ≤ c then .refused (.reserved .channelOutOfRange)
  else if s.hostEnabled then .next ((f s).1.reply .mainLine (f s).2)
  else .refused .hostHeldOff

/-- A step of the environment on channel `c`, with its enabling condition and the refusal when it is disabled. -/
def environmentStep (c : Nat) (enabled : State → Bool) (why : Refusal) (f : State → State) (s : State) : Result :=
  if s.nch ≤ c then .refused (.reserved .channelOutOfRange)
  else if enabled s then .next (f s)
  else .refused why

end Sys2Proof.Machine
end

