-- ==== Sys2Proof/Machine/Environment.lean ====
section
/-! DEFINITION. The environment steps (spec/42_fifo_occupancy.md R117 to R120). -/

namespace Sys2Proof.Machine

/-- R117: whether the shift that starts now raises the transmit event: at the trigger limit in FIFO mode, always in byte mode. -/
def Chan.shiftRaises (ch : Chan) : Bool :=
  if ch.txFifo then ch.txLevel == ch.txLimit.toNat && ch.evEnabled evTxfStd else ch.evEnabled evTbe

/-- The sending channel's side of R117: `u` leaves the queue for the line. -/
def Chan.shiftOut (ch : Chan) (u : Byte) : Chan :=
  { ch with txq := ch.txq.tail, txLine := ch.txLine ++ [u] }.pendIf .tx ch.shiftRaises

/-- ENV.TXSHIFT's effect (R117), the loopback delivery included (R120). -/
def shiftUnit (c : Nat) (s : State) : State :=
  match (s.chan c).txq with
  | [] => s
  | u :: _ =>
    let s1 := s.modChan c fun ch => ch.shiftOut u
    match (s.chan c).par.loopTo with
    | none => s1
    | some d => s1.deliver d u

/-- A protocol condition is detected (R119). -/
def Chan.detect (ch : Chan) (protoMon : Bool) (i : Nat) : Chan :=
  (ch.setFlag i).pendIf .pr (protoMon && ch.protoEnabled i)

/-- ENV.TXSHIFT (R117). -/
def execEnvTxShift (c : Nat) (s : State) : Result :=
  environmentStep c (fun s => s.shiftEnabled c) .nothingToShift (shiftUnit c) s

/-- ENV.RXARRIVE (R118). -/
def execEnvRxArrive (c : Nat) (u : Byte) (s : State) : Result :=
  environmentStep c (fun s => s.arrivalEnabled c) .noArrival (fun s => s.arrive c u false) s

/-- ENV.RXARRIVE.ALT (R118). -/
def execEnvRxArriveAlt (c : Nat) (u : Byte) (s : State) : Result :=
  environmentStep c (fun s => s.arrivalEnabled c) .noArrival (fun s => s.arrive c u true) s

/-- ENV.PFLAG (R119); an index of 5 or more is reserved (R64 (e)). -/
def execEnvPFlag (c : Nat) (i : Nat) (s : State) : Result :=
  if i < 5 then
    environmentStep c (fun s => (s.chan c).run) .noDetection (fun s => s.modChan c fun ch => ch.detect s.par.protoMon i) s
  else .refused (.reserved .reservedArg)

end Sys2Proof.Machine
end

