-- ==== Sys2Proof/Machine/Lifecycle.lean ====
section
/-! DEFINITION. The lifecycle commands INIT and SETBAUD (spec/40_lifecycle.md). -/

namespace Sys2Proof.Machine

/-- What opening does to a closed channel, in the order of R75. -/
def Chan.openClosed (ch : Chan) (protoMon : Bool) : Chan :=
  let c1 := ch.configure.setInputSource.txFifoConfigure.rxFifoConfigure.start
  let c2 := (c1.nvicEnable .tx).nvicEnable .rx
  let c3 := if protoMon then c2.nvicEnable .pr else c2
  { c3 with flags := { c3.flags with init := true } }

/-- INIT.OPEN (R75): a no-op on an open channel. -/
def cmdInitOpen (c : Nat) (s : State) : State × Status :=
  if (s.chan c).flags.init then (s, .success)
  else (s.modChan c fun ch => ch.openClosed s.par.protoMon, .success)

/-- INIT.CLOSE (R76): Busy while units are queued. -/
def cmdInitClose (c : Nat) (s : State) : State × Status :=
  match (s.chan c).stop with
  | none => (s, .busy)
  | some ch => (s.modChan c fun _ => { ch with flags := { ch.flags with init := false } }, .success)

/-- INIT.INVALID (R77). -/
def cmdInitInvalid (s : State) : State × Status := (s, .invalidArgument)

/-- SETBAUD (R78): the whitelist, then the transfer flags, then the hardware's answer, which is a draw (R112). -/
def cmdSetBaud (c : Nat) (speed : Word) (s : State) : State × Status :=
  if !s.par.baudWl.contains speed then (s, .invalidArgument)
  else if (s.chan c).flags.anyTransfer then (s, .busy)
  else if Config.drawBaudOk s.draws then (s.drawn.modChan c fun ch => { ch with baud := speed }, .success)
  else (s.drawn, .failed)

/-- R75 as a main-line step. -/
def execInitOpen (c : Nat) (s : State) : Result := hostCommand c (cmdInitOpen c) s

/-- R76 as a main-line step. -/
def execInitClose (c : Nat) (s : State) : Result := hostCommand c (cmdInitClose c) s

/-- R77 as a main-line step; the request is any value but 0 and 1 and has no further effect. -/
def execInitInvalid (c : Nat) (_request : Word) (s : State) : Result := hostCommand c cmdInitInvalid s

/-- R78 as a main-line step. -/
def execSetBaud (c : Nat) (speed : Word) (s : State) : Result := hostCommand c (cmdSetBaud c speed) s

end Sys2Proof.Machine
end

