-- ==== Sys2Proof/Machine/Transfer.lean ====
section
/-! DEFINITION. The transfer commands TX, RX and ABORT (spec/41_transfer_requests.md). -/

namespace Sys2Proof.Machine

/-- The checks TX and RX share, in the order of R90; none is an accepted request. -/
def requestRejected (a b : Word) (isOpen occupied : Bool) : Option Status :=
  if a = 0 then some .invalidArgument
  else if b = 0 then some .invalidArgument
  else if !isOpen then some .failed
  else if occupied then some .busy
  else none

/-- An accepted TX (R85). -/
def Chan.acceptTx (ch : Chan) (a b : Word) : Chan :=
  let c1 := { ch with tx := { ptr := a, len := b, idx := 0 }, flags := { ch.flags with txBusy := true, txLock := true } }
  let c2 := if c1.txFifo then c1.txFlush else c1
  (c2.evEnable c2.txEvm).triggerServiceRequest

/-- An accepted RX (R86). -/
def Chan.acceptRx (ch : Chan) (a b : Word) : Chan :=
  let c1 := { ch with rx := { ptr := a, len := b, idx := 0 }, flags := { ch.flags with rxBusy := true, rxLock := true } }
  let c2 := if c1.rxFifo then c1.rxFlush.rxSetLimit b.toNat else c1
  c2.evEnable c2.rxEvm

/-- TX (R85, R90). -/
def cmdTx (c : Nat) (a b : Word) (s : State) : State × Status :=
  let fl := (s.chan c).flags
  match requestRejected a b fl.init (fl.txBusy || fl.txLock) with
  | some st => (s, st)
  | none => (s.modChan c fun ch => ch.acceptTx a b, .success)

/-- RX (R86, R90). -/
def cmdRx (c : Nat) (a b : Word) (s : State) : State × Status :=
  let fl := (s.chan c).flags
  match requestRejected a b fl.init (fl.rxBusy || fl.rxLock) with
  | some st => (s, st)
  | none => (s.modChan c fun ch => ch.acceptRx a b, .success)

/-- The part of R87 before the forced idle: busy and pointer cleared, the event disabled, the lock kept. -/
def Chan.abandonTx (ch : Chan) : Chan :=
  { ch with flags := { ch.flags with txBusy := false }, tx := { ch.tx with ptr := 0 } }.evDisable ch.txEvm

/-- R88: busy and pointer cleared, the events disabled, the lock kept. -/
def Chan.abandonRx (ch : Chan) : Chan :=
  { ch with flags := { ch.flags with rxBusy := false }, rx := { ch.rx with ptr := 0 } }.evDisable ch.rxEvm

/-- ABORT.TX (R87). -/
def cmdAbortTx (c : Nat) (s : State) : State × Status :=
  ((s.modChan c Chan.abandonTx).txForceIdle c, .success)

/-- ABORT.RX (R88). -/
def cmdAbortRx (c : Nat) (s : State) : State × Status := (s.modChan c Chan.abandonRx, .success)

/-- ABORT.TXRX (R89): R87 without its return, then R88. -/
def cmdAbortTxRx (c : Nat) (s : State) : State × Status := cmdAbortRx c (cmdAbortTx c s).1

/-- A request whose buffer runs past the top of the address space is refused (R43, R64 (f); log 12). -/
def boundedRequest (a b : Word) (o : Result) : Result :=
  if bufferFits a b then o else .refused (.reserved .bufferPastTop)

/-- R85 as a main-line step. -/
def execTx (c : Nat) (a b : Word) (s : State) : Result := boundedRequest a b (hostCommand c (cmdTx c a b) s)

/-- R86 as a main-line step. -/
def execRx (c : Nat) (a b : Word) (s : State) : Result := boundedRequest a b (hostCommand c (cmdRx c a b) s)

/-- R87 as a main-line step. -/
def execAbortTx (c : Nat) (s : State) : Result := hostCommand c (cmdAbortTx c) s

/-- R88 as a main-line step. -/
def execAbortRx (c : Nat) (s : State) : Result := hostCommand c (cmdAbortRx c) s

/-- R89 as a main-line step. -/
def execAbortTxRx (c : Nat) (s : State) : Result := hostCommand c (cmdAbortTxRx c) s

end Sys2Proof.Machine
end

