-- ==== Sys2Proof/Machine/Callback.lean ====
section
/-! DEFINITION. Callback routing (spec/60_exceptions.md R180 to R182): the record, then the consumer's nested commands. -/

namespace Sys2Proof.Machine

/-- The effect and status of a host command, whoever issues it; none for a step that is no command. -/
def commandEffect (i : Instr) (s : State) : Option (State × Status) :=
  match i with
  | .initOpen c => some (cmdInitOpen c s)
  | .initClose c => some (cmdInitClose c s)
  | .initInvalid _ _ => some (cmdInitInvalid s)
  | .setBaud c v => some (cmdSetBaud c v s)
  | .tx c a b => some (cmdTx c a b s)
  | .rx c a b => some (cmdRx c a b s)
  | .abortTx c => some (cmdAbortTx c s)
  | .abortRx c => some (cmdAbortRx c s)
  | .abortTxRx c => some (cmdAbortTxRx c s)
  | .irqTx _ => none
  | .irqRx _ => none
  | .irqProto _ => none
  | .txDone _ => none
  | .envTxShift _ => none
  | .envRxArrive _ _ => none
  | .envRxArriveAlt _ _ => none
  | .envPFlag _ _ => none

/-- Whether a command targets the transmit direction of its channel (U6). -/
def targetsTransmit (i : Instr) : Bool :=
  match i with
  | .initOpen _ => true
  | .initClose _ => true
  | .initInvalid _ _ => false
  | .setBaud _ _ => false
  | .tx _ _ _ => true
  | .rx _ _ _ => false
  | .abortTx _ => true
  | .abortRx _ => false
  | .abortTxRx _ => true
  | .irqTx _ => false
  | .irqRx _ => false
  | .irqProto _ => false
  | .txDone _ => false
  | .envTxShift _ => false
  | .envRxArrive _ _ => false
  | .envRxArriveAlt _ _ => false
  | .envPFlag _ _ => false

/-- One nested command, given as its descriptor: carried out at once, without R178's condition (R181); one that targets a
suspended transmit direction has no meaning (U6). -/
def nestedCommand (w : BitVec 80) (s : State) : Result :=
  match decodeCmd s.nch w with
  | .error r => .refused (.reserved r)
  | .ok i =>
    if targetsTransmit i && (s.chan i.ch).txWait then .refused .nestedOnSuspendedTx
    else match commandEffect i s with
      | some r => .next (r.1.reply .interrupt r.2)
      | none => .refused (.reserved .reservedOp)

/-- Nested commands, in order (R181). -/
def nestedCommands : List (BitVec 80) → State → Result
  | [], s => .next s
  | w :: ws, s => andThen (nestedCommand w s) (nestedCommands ws)

/-- The record on the callback port and the consumer's turn (R180); its answer leaves the input queue. -/
def State.notify (s : State) (r : CbRec) : State :=
  { s with cbLog := s.cbLog ++ [r], consumer := s.consumer.tail }

/-- `callback(c, ptr, ev, data)` (R180, R181). -/
def callback (r : CbRec) (s : State) : Result :=
  nestedCommands (s.consumer.headD []) (s.notify r)

end Sys2Proof.Machine
end

