-- ==== Sys2Proof/Machine/ProtoPath.lean ====
section
/-! DEFINITION. The protocol event path IRQ.PROTO (spec/45_protocol_path.md). -/

namespace Sys2Proof.Machine

/-- The first set and enabled condition in the order of the fault table (R156, R157). -/
def Chan.firstFault (ch : Chan) : Option (Nat × Event) :=
  faultTable.find? fun r => ch.protoFlagged r.1 && ch.protoEnabled r.1

/-- `scan(c)` (R157, R158): the first match is cleared, then reported; no match changes nothing. -/
def protoScan (c : Nat) (s : State) : Result :=
  match (s.chan c).firstFault with
  | none => .next s
  | some r => callback { ch := c, event := r.2, ptr := 0, data := 0 } (s.modChan c fun ch => ch.clearFlag r.1)

/-- IRQ.PROTO (R155): without protocol monitoring the vector does not exist (R159). -/
def execIrqProto (c : Nat) (s : State) : Result :=
  if s.par.protoMon then dispatchVector c .pr (fun s' => andThen (protoScan c s') fun t => .next t.leave) s
  else .refused .notDispatchable

end Sys2Proof.Machine
end

