-- ==== Sys2Proof/Machine/RxPath.lean ====
section
/-! DEFINITION. The receive completion path IRQ.RX (spec/44_rx_path.md). -/

namespace Sys2Proof.Machine

/-- The CHAR_RECEIVED record of a unit: its PTR field is unspecified, so a draw (R61, U9; log 6). -/
def forwardUnit (c : Nat) (u : Byte) (s : State) : Result :=
  callback { ch := c, event := .charReceived, ptr := Config.drawCharPtr s.draws, data := u } s.drawn

/-- `unsolicited_byte(c)` (R141). -/
def unsolicitedByte (c : Nat) (s : State) : Result := forwardUnit c (s.rxPop c).1 (s.rxPop c).2

/-- `unsolicited_fifo(c)` (R142): only from a non-empty FIFO. -/
def unsolicitedFifo (c : Nat) (s : State) : Result :=
  if (s.chan c).rxEmpty then .next s else forwardUnit c (s.rxPop c).1 (s.rxPop c).2

/-- The unsolicited path of the channel's mode. -/
def unsolicited (c : Nat) (s : State) : Result :=
  if (s.chan c).rxFifo then unsolicitedFifo c s else unsolicitedByte c s

/-- `mixed(c)` (R143): what RX_MIXED_POLICY says. -/
def mixedReceive (c : Nat) (s : State) : Result :=
  match s.par.mixed with
  | .noop => .next s
  | .unsolicited => unsolicited c s

/-- What follows the RX_COMPLETE callback (R147): events disabled, busy and lock cleared, the pointer kept. -/
def Chan.clearRx (ch : Chan) : Chan :=
  { ch with flags := { ch.flags with rxBusy := false, rxLock := false } }.evDisable ch.rxEvm

/-- `complete_rx(c)` (R147): callback first. -/
def completeRx (c : Nat) (s : State) : Result :=
  andThen (callback { ch := c, event := .rxComplete, ptr := (s.chan c).rx.ptr, data := 0 } s)
    fun s' => .next (s'.modChan c Chan.clearRx)

/-- The while loop of R144 over the queue: units go to memory while the index is below the length. -/
def drain : List Byte → Tcb → Memory → Except Fault (List Byte × Tcb × Memory)
  | [], t, m => .ok ([], t, m)
  | u :: q, t, m =>
    if t.idx < t.len then
      match memWrite m t.address u with
      | .error f => .error f
      | .ok m' => drain q t.advance m'
    else .ok (u :: q, t, m)

/-- `solicited_fifo(c)` (R144): after the drain, completion if it reached the length, else the new limit (R145). -/
def solicitedFifo (c : Nat) (s : State) : Result :=
  match drain (s.chan c).rxq (s.chan c).rx s.mem with
  | .error f => .fault f
  | .ok (q, t, m) =>
    let s1 := (s.modChan c fun ch => { ch with rxq := q, rx := t }).withMem m
    if t.idx < t.len then .next (s1.modChan c fun ch => ch.rxSetLimit t.remaining)
    else if (s.chan c).rx.idx < t.len then completeRx c s1
    else .fault .limitOutOfRange

/-- `solicited_byte(c)` (R146): one unit, drawn if the buffer is empty. -/
def solicitedByte (c : Nat) (s : State) : Result :=
  let u := (s.rxPop c).1
  let s1 := (s.rxPop c).2
  match memWrite s1.mem (s.chan c).rx.address u with
  | .error f => .fault f
  | .ok m =>
    let s2 := (s1.modChan c fun ch => { ch with rx := ch.rx.advance }).withMem m
    if (s2.chan c).rx.idx = (s2.chan c).rx.len then completeRx c s2 else .next s2

/-- The body of the receive handler between entry and return (R140). -/
def rxHandler (c : Nat) (s : State) : Result :=
  let ch := s.chan c
  if ch.flags.rxInFlight then (if ch.rxFifo then solicitedFifo c s else solicitedByte c s)
  else if ch.flags.rxIdle then unsolicited c s
  else mixedReceive c s

/-- IRQ.RX (R140). -/
def execIrqRx (c : Nat) (s : State) : Result :=
  dispatchVector c .rx (fun s' => andThen (rxHandler c s') fun t => .next t.leave) s

end Sys2Proof.Machine
end

