-- ==== Sys2Proof/Machine/TxPath.lean ====
section
/-! DEFINITION. The transmit completion path IRQ.TX and TXDONE (spec/43_tx_path.md). -/

namespace Sys2Proof.Machine

/-- One unit of the fill: read at TXPTR + TXIDX, pushed, the index advanced (R131, R132). -/
def Chan.fillOne (m : Memory) (ch : Chan) : Except Fault Chan :=
  match memRead m ch.tx.address with
  | .error f => .error f
  | .ok u =>
    match ch.txPush u with
    | .error f => .error f
    | .ok ch' => .ok { ch' with tx := ch'.tx.advance }

/-- The while loop of R131, at most `n` rounds. -/
def Chan.fillFifo (m : Memory) : Nat → Chan → Except Fault Chan
  | 0, ch => .ok ch
  | n + 1, ch =>
    if !ch.txFull && decide (ch.tx.idx < ch.tx.len) then
      match ch.fillOne m with
      | .error f => .error f
      | .ok ch' => Chan.fillFifo m n ch'
    else .ok ch

/-- The fill phase: R131 in FIFO mode (TXLEN - TXIDX rounds are enough), R132 in byte mode. -/
def Chan.fill (m : Memory) (ch : Chan) : Except Fault Chan :=
  if ch.txFifo then Chan.fillFifo m ch.tx.remaining ch else ch.fillOne m

/-- The three clears after the TX_COMPLETE callback (R134). -/
def Chan.clearTx (ch : Chan) : Chan :=
  { ch with tx := { ch.tx with ptr := 0 }, flags := { ch.flags with txBusy := false, txLock := false } }

/-- `complete_tx(c)` (R134): event disabled, callback, then the clears. -/
def completeTx (c : Nat) (s : State) : Result :=
  let s1 := s.modChan c fun ch => ch.evDisable ch.txEvm
  andThen (callback { ch := c, event := .txComplete, ptr := (s.chan c).tx.ptr, data := 0 } s1)
    fun s2 => .next (s2.modChan c Chan.clearTx)

/-- The body of the transmit handler after its entry (R130 to R133). -/
def txHandler (c : Nat) (s : State) : Result :=
  let ch := s.chan c
  if !ch.flags.txInFlight then .next s.leave
  else if ch.tx.idx < ch.tx.len then
    match ch.fill s.mem with
    | .error f => .fault f
    | .ok ch' => .next (s.modChan c fun _ => ch').leave
  else if ch.txEmpty then andThen (completeTx c s) fun s' => .next s'.leave
  else .next (s.modChan c fun ch => { ch with txWait := true })

/-- IRQ.TX (R130). -/
def execIrqTx (c : Nat) (s : State) : Result := dispatchVector c .tx (txHandler c) s

/-- TXDONE (R134). -/
def execTxDone (c : Nat) (s : State) : Result :=
  if s.nch ≤ c then .refused (.reserved .channelOutOfRange)
  else if s.txDoneEnabled c then
    andThen (completeTx c (s.modChan c fun ch => { ch with txWait := false })) fun s' => .next s'.leave
  else .refused .waitNotOver

end Sys2Proof.Machine
end

