-- ==== Sys2Proof/Machine/Dispatch.lean ====
section
/-! DEFINITION. One arm per operation of spec/opcode_table.json. -/

namespace Sys2Proof.Machine

def exec (i : Instr) (s : State) : Host.Outcome State Fault Refusal :=
  match i with
  | .initOpen ch => Sys2Proof.Machine.execInitOpen ch s
  | .initClose ch => Sys2Proof.Machine.execInitClose ch s
  | .initInvalid ch request => Sys2Proof.Machine.execInitInvalid ch request s
  | .setBaud ch speed => Sys2Proof.Machine.execSetBaud ch speed s
  | .tx ch source length => Sys2Proof.Machine.execTx ch source length s
  | .rx ch destination length => Sys2Proof.Machine.execRx ch destination length s
  | .abortTx ch => Sys2Proof.Machine.execAbortTx ch s
  | .abortRx ch => Sys2Proof.Machine.execAbortRx ch s
  | .abortTxRx ch => Sys2Proof.Machine.execAbortTxRx ch s
  | .irqTx ch => Sys2Proof.Machine.execIrqTx ch s
  | .irqRx ch => Sys2Proof.Machine.execIrqRx ch s
  | .irqProto ch => Sys2Proof.Machine.execIrqProto ch s
  | .txDone ch => Sys2Proof.Machine.execTxDone ch s
  | .envTxShift ch => Sys2Proof.Machine.execEnvTxShift ch s
  | .envRxArrive ch unit => Sys2Proof.Machine.execEnvRxArrive ch unit s
  | .envRxArriveAlt ch unit => Sys2Proof.Machine.execEnvRxArriveAlt ch unit s
  | .envPFlag ch flag => Sys2Proof.Machine.execEnvPFlag ch flag s

end Sys2Proof.Machine
end

