-- ==== Sys2Proof/Machine/Schedule.lean ====
section
/-! DEFINITION. The schedule, which stands where a processor's fetch would (log 1): its head, a word put before it, and the
host's own stores (spec/20_memory.md R47, R50; log 17). -/

namespace Sys2Proof.Machine

/-- A host store: one byte of the host's memory changes between two steps of the block (R50, U15). -/
def State.hostStore (s : State) (addr : Word) (b : Byte) : State := s.withMem (s.mem.write addr.toNat b)

/-- The state after its schedule has lost its head. -/
def State.afterFetch (s : State) : State := { s with sched := s.sched.tail }

/-- A word put before the schedule. -/
def State.pushWord (s : State) (w : HwWord) : State := { s with sched := .word w :: s.sched }

end Sys2Proof.Machine
end

