-- ==== Sys2Proof/Machine/Step.lean ====
section
/-! DEFINITION. One step of the machine: the head of the schedule (log 1). -/

namespace Sys2Proof.Machine

/-- The next step: the scheduled word's operation (R4, R66), or a store the host makes in its own memory. -/
def step (s : State) : Host.Outcome State Fault Refusal :=
  match s.sched with
  | [] => .refused .scheduleEmpty
  | .store a b :: _ => .next (s.afterFetch.hostStore a b)
  | .word w :: _ =>
    match decode s.nch w with
    | .error r => .refused (.reserved r)
    | .ok i => exec i s.afterFetch

/-- `s` with an opcode-table word as the next step. -/
def State.withFetchWord (s : State) (nbits w : Nat) : State := s.pushWord (tableWord nbits w)

end Sys2Proof.Machine
end

