-- ==== Sys2Proof/Safety.lean ====
section
/-! DEFINITION. What the claims speak about: the invariant of every run, when a step is enabled, what a command leaves
alone, and when the machine is quiescent. -/

namespace Sys2Proof.Machine

/-! The invariant. -/

/-- What every channel satisfies between steps, in a machine of `nch` channels with shared parameters `p`. -/
structure Chan.Inv (nch : Nat) (p : Params) (ch : Chan) : Prop where
  /-- R5's constraints on the channel's own parameters. -/
  params : Config.chanParamsOk nch p.baudWl ch.par = true
  /-- R122. -/
  tx_level : ch.txLevel ≤ ch.txDepth
  /-- R122. -/
  rx_level : ch.rxLevel ≤ ch.rxDepth
  /-- R16 (b). -/
  tx_index : ch.tx.idx ≤ ch.tx.len
  /-- R16 (b). -/
  rx_index : ch.rx.idx ≤ ch.rx.len
  /-- R15: busy without lock is not reachable. -/
  tx_busy_locked : ch.flags.txBusy = true → ch.flags.txLock = true
  /-- R15. -/
  rx_busy_locked : ch.flags.rxBusy = true → ch.flags.rxLock = true
  /-- R42, R43: a transmit in flight has a buffer, and the buffer fits. -/
  tx_buffer : ch.flags.txInFlight = true → ch.tx.ptr ≠ 0 ∧ bufferFits ch.tx.ptr ch.tx.len = true
  /-- R42, R43, R144 (c): a receive in flight has a buffer that fits and units still to come. -/
  rx_buffer : ch.flags.rxInFlight = true →
    ch.rx.ptr ≠ 0 ∧ bufferFits ch.rx.ptr ch.rx.len = true ∧ ch.rx.idx < ch.rx.len
  /-- R25, R122. -/
  rx_limit : ch.rxFifo = true → ch.rxLim.toNat + 1 ≤ ch.par.rxCap
  /-- R26, U14. -/
  even_named : ch.even &&& ~~~Config.namedEvents = 0
  /-- R27, U14. -/
  pstat_named : ch.pstat &&& 0xE0 = 0
  /-- R20: the stored rate is a supported one. -/
  baud_listed : p.baudWl.contains ch.baud = true
  /-- R75, R76: the channel runs exactly while it is open. -/
  open_runs : ch.run = ch.flags.init
  /-- R75: an open channel's vectors are enabled. -/
  open_vectors : ch.flags.init = true → ch.vTx.en = true ∧ ch.vRx.en = true ∧ (p.protoMon = true → ch.vPr.en = true)
  /-- R28, R75: an enabled vector has its configured priority. -/
  enabled_prio : ∀ k, (ch.vec k).en = true → (ch.vec k).prio = ch.configuredPrio k
  /-- R28: without protocol monitoring the protocol vector stays at its reset values. -/
  no_monitor : p.protoMon = false → ch.vPr = VecRegs.reset
  /-- R136 (c): in byte mode a unit waits only while a transmit is in flight, -/
  byte_unit : ch.txFifo = false → ch.txEmpty = false → ch.flags.txInFlight = true
  /-- and the buffer is empty whenever the transmit vector is pending. -/
  byte_pending : ch.txFifo = false → ch.vTx.pend = true → ch.txEmpty = true
  /-- R133: a waiting transmit handler has pushed everything. -/
  waiting : ch.txWait = true → ch.flags.txInFlight = true ∧ ch.tx.idx = ch.tx.len ∧ ch.vTx.en = true

/-- What every state of a run satisfies. -/
structure State.Inv (s : State) : Prop where
  /-- Every channel. -/
  channels : ∀ c < s.nch, (s.chan c).Inv s.nch s.par
  /-- R5, D23: the whitelist holds the six rates and not 57600. -/
  baud_list : Config.baudWlOk s.par.baudWl = true
  /-- R5, R170: the interrupt numbers are pairwise distinct. -/
  irq_distinct : s.irqNumbers.Nodup
  /-- The memory is in its canonical form. -/
  memory : Memory.wf s.mem
  /-- R29: ACTIVE holds exactly the waiting transmit handlers. -/
  active_waits : ∀ v, v ∈ s.active ↔ v.2 = .tx ∧ v.1 < s.nch ∧ (s.chan v.1).txWait = true
  /-- R173, R177: each handler on ACTIVE outranks the one it preempted. -/
  active_ranked : s.active.Pairwise fun v w => ((s.chan v.1).vec v.2).prio < ((s.chan w.1).vec w.2).prio

/-! Enabled steps. -/

/-- The enabling condition the rules give each operation (R117, R118, R119, R134, R155, R173, R178). -/
def State.enabled (s : State) (i : Instr) : Bool :=
  match i with
  | .initOpen _ => s.hostEnabled
  | .initClose _ => s.hostEnabled
  | .initInvalid _ _ => s.hostEnabled
  | .setBaud _ _ => s.hostEnabled
  | .tx _ _ _ => s.hostEnabled
  | .rx _ _ _ => s.hostEnabled
  | .abortTx _ => s.hostEnabled
  | .abortRx _ => s.hostEnabled
  | .abortTxRx _ => s.hostEnabled
  | .irqTx c => s.dispatchable c .tx
  | .irqRx c => s.dispatchable c .rx
  | .irqProto c => s.par.protoMon && s.dispatchable c .pr
  | .txDone c => s.txDoneEnabled c
  | .envTxShift c => s.shiftEnabled c
  | .envRxArrive c _ => s.arrivalEnabled c
  | .envRxArriveAlt c _ => s.arrivalEnabled c
  | .envPFlag c _ => (s.chan c).run

/-- The transmit handler whose completion a step performs: its own wait is over before the callback runs (R134). -/
def finishingHandler (i : Instr) : Option Nat :=
  match i with
  | .txDone c => some c
  | _ => none

/-- What the callback consumer issues next is admitted: descriptors that spell commands, none on a suspended transmit
direction but the one whose handler finishes in this step (R181, U1, U6). -/
def State.consumerAdmitted (s : State) (finishing : Option Nat) : Prop :=
  ∀ w ∈ s.consumer.headD [], ∃ i, decodeCmd s.nch w = .ok i ∧
    (targetsTransmit i = true → some i.ch = finishing ∨ (s.chan i.ch).txWait = false)

/-- The consumer issues nothing at the next notification (CB_PROGRAM's default, R5). -/
def State.consumerSilent (s : State) : Prop := s.consumer.headD [] = []

/-- R222: only the host and the line can step. -/
def State.quiescent (s : State) : Bool :=
  s.active.isEmpty && !s.anyDispatchable && s.chans.all fun ch => !ch.run || ch.txEmpty

/-! Frames. -/

/-- Every byte of buffer memory reads as before. -/
def SameMemory (s t : State) : Prop := ∀ a, t.mem.read a = s.mem.read a

/-- The parameters, the other channels and the schedule are as before. -/
structure SameOutside (c : Nat) (s t : State) : Prop where
  par : t.par = s.par
  nch : t.nch = s.nch
  others : ∀ d, d ≠ c → t.chan d = s.chan d
  sched : t.sched = s.sched

/-- A host command on channel `c` was answered `st` on the main line, and nothing outside that channel and the status port
changed. -/
structure CommandFrame (c : Nat) (st : Status) (s t : State) : Prop extends SameOutside c s t where
  active : t.active = s.active
  memory : SameMemory s t
  cbLog : t.cbLog = s.cbLog
  consumer : t.consumer = s.consumer
  status : t.statusLog = s.statusLog ++ [{ ctx := .mainLine, status := st }]

/-- A host command was answered `st` and changed no state: not even its own channel. -/
def OnlyAnswered (c : Nat) (st : Status) (s t : State) : Prop := CommandFrame c st s t ∧ t.chan c = s.chan c

/-- An environment step leaves the parameters, the contexts, the memory and the ports alone. -/
structure EnvironmentFrame (s t : State) : Prop where
  par : t.par = s.par
  nch : t.nch = s.nch
  sched : t.sched = s.sched
  active : t.active = s.active
  memory : SameMemory s t
  cbLog : t.cbLog = s.cbLog
  consumer : t.consumer = s.consumer
  statusLog : t.statusLog = s.statusLog

/-- A handler invocation on channel `c` emitted the records `rs`, the consumer issued nothing, and nothing outside that
channel, ACTIVE, the memory and the callback port changed. -/
structure HandlerFrame (c : Nat) (rs : List CbRec) (s t : State) : Prop extends SameOutside c s t where
  cbLog : t.cbLog = s.cbLog ++ rs
  consumer : t.consumer = s.consumer.drop rs.length
  statusLog : t.statusLog = s.statusLog

/-- The same for a handler that has returned and touched no memory. -/
structure ServedFrame (c : Nat) (rs : List CbRec) (s t : State) : Prop extends HandlerFrame c rs s t where
  active : t.active = s.active
  memory : SameMemory s t

/-- A vector's registers once it has been dispatched (R175). -/
def VecRegs.served (v : VecRegs) : VecRegs := { v with pend := false }

/-- A vector's registers after an event that pends it when `b` holds (R171). -/
def VecRegs.raised (v : VecRegs) (b : Bool) : VecRegs := { v with pend := v.pend || b }

/-- R118: unit `u` arrives and turns channel state `ch` into `ch'`. In byte mode an occupied buffer keeps either unit (U4). -/
def Arrives (u : Byte) (alt : Bool) (ch ch' : Chan) : Prop :=
  if ch.par.rxCap = 0 then
    ∃ keep : Bool, (ch.rxq = [] → keep = false) ∧
      ch' = { ch with rxq := if keep then ch.rxq else [u], vRx := ch.vRx.raised (ch.even.getLsbD 2) }
  else
    ch' = { ch with
      rxq := ch.rxq ++ [u]
      vRx := ch.vRx.raised ((decide (ch.rxq.length = ch.rxLim.toNat) && ch.even.getLsbD 3) || (alt && ch.even.getLsbD 4)) }

/-- R118, R120: the receiver runs and, in FIFO mode, is not full. -/
def HasRoom (ch : Chan) : Prop := ch.run = true ∧ (ch.par.rxCap ≠ 0 → ch.rxq.length ≠ ch.par.rxCap)

/-- The sender's side of R117: `u` leaves `ch` for the line and `q` stays queued. -/
def shifted (u : Byte) (q : List Byte) (ch : Chan) : Chan :=
  { ch with
    txq := q
    txLine := ch.txLine ++ [u]
    vTx := ch.vTx.raised (if ch.par.txCap = 0 then ch.even.getLsbD 0
      else decide (q.length + 1 = ch.txLimit.toNat) && ch.even.getLsbD 1) }

/-- R141, R142: the receive vector was served and nothing was forwarded. -/
def ForwardsNothing (c : Nat) (s t : State) : Prop :=
  ServedFrame c [] s t ∧ t.chan c = { s.chan c with vRx := (s.chan c).vRx.served }

/-- R141, R142: the receive vector was served and one unit, the oldest if there is one, was forwarded as a
CHAR_RECEIVED record whose PTR field may hold anything (U2, U9). -/
def ForwardsOneUnit (c : Nat) (s t : State) : Prop :=
  ∃ u p, ServedFrame c [{ ch := c, event := .charReceived, ptr := p, data := u }] s t ∧
    (∀ x q, (s.chan c).rxq = x :: q → u = x) ∧
    t.chan c = { s.chan c with rxq := (s.chan c).rxq.tail, vRx := (s.chan c).vRx.served }

/-- `us` lies in `t`'s memory from address `a` up, and every other byte is as in `s`. -/
def StoresUnits (a : Nat) (us : List Byte) (s t : State) : Prop :=
  (∀ k (h : k < us.length), t.mem.read (a + k) = us[k]) ∧ ∀ x, (x < a ∨ a + us.length ≤ x) → t.mem.read x = s.mem.read x

/-- `n` bytes of memory from an address up. -/
def Memory.bytes (m : Memory) (a n : Nat) : List Byte := (List.range n).map fun k => m.read (a + k)

/-- R75, R86, R104, R105: a command that discards what channel `d` received: opening it, or in FIFO mode a receive request. -/
def DiscardsReceived (j : Instr) (d : Nat) (s : State) : Prop :=
  j = .initOpen d ∨ (s.chan d).par.rxCap ≠ 0 ∧ ∃ a b, j = .rx d a b

/-- R75, R85, R87, R89, R104, R105, R116: a command that discards what channel `d` queued to send: opening it, abandoning the
transmit, or in FIFO mode a transmit request. -/
def DiscardsQueued (j : Instr) (d : Nat) (s : State) : Prop :=
  j = .initOpen d ∨ j = .abortTx d ∨ j = .abortTxRx d ∨ (s.chan d).par.txCap ≠ 0 ∧ ∃ a b, j = .tx d a b

/-- Operation `j` is carried out in the step of `i` from `s` to `t`: it is `i` itself, or the consumer, notified in that step,
issues it (R180, R181). -/
def CarriedOut (j i : Instr) (s t : State) : Prop :=
  j = i ∨ t.cbLog ≠ s.cbLog ∧ ∃ w ∈ s.consumer.headD [], decodeCmd s.nch w = .ok j

/-- R122, the transmit queue of channel `d` over the step of `i`: `pushed` was appended by the transmit handler alone, the buffer
read in order; `left` left at the head for the line, by a shift alone; what is left over, `rest`, stays queued unless a
command that flushes, configures or forces the queue idle discarded it or part of it from the head. -/
def TransmitOrder (d : Nat) (i : Instr) (s t : State) : Prop :=
  ∃ left pushed rest : List Byte,
    left ++ rest = (s.chan d).txq ++ pushed ∧ (t.chan d).txLine = (s.chan d).txLine ++ left ∧
    (left ≠ [] → i = .envTxShift d ∧ left.length = 1) ∧
    (pushed ≠ [] → i = .irqTx d ∧ pushed = s.mem.bytes (s.chan d).tx.address pushed.length) ∧
    ((t.chan d).txq = rest ∨ (t.chan d).txq <:+ rest ∧ ∃ j, CarriedOut j i s t ∧ DiscardsQueued j d s)

/-- R118, R120: `u` reaches the receiver of channel `d` in the step of `i`, from the line or over a wire. -/
def UnitReaches (u : Byte) (d : Nat) (i : Instr) (s : State) : Prop :=
  i = .envRxArrive d u ∨ i = .envRxArriveAlt d u ∨
  i = .envTxShift i.ch ∧ (s.chan i.ch).par.loopTo = some d ∧ (s.chan i.ch).txq.head? = some u

/-- R141, R142, R144, R146: the units the receive handler took were stored in order from RXPTR + RXIDX up, or the one unit
was forwarded. -/
def UnitsDelivered (us : List Byte) (d : Nat) (s t : State) : Prop :=
  if (s.chan d).flags.rxInFlight then StoresUnits (s.chan d).rx.address us s t
  else ∃ u p, us = [u] ∧ t.cbLog = s.cbLog ++ [{ ch := d, event := .charReceived, ptr := p, data := u }]

/-- R122, the receive queue of channel `d` over the step of `i`: `taken` left at the head, by the receive handler alone, and
were delivered; `arrived` was appended at the tail; what is left over, `rest`, stays queued unless a command that flushes or
configures the queue discarded it. An overrun in byte mode loses one of two units (U4). -/
def ReceiveOrder (d : Nat) (i : Instr) (s t : State) : Prop :=
  ∃ taken arrived rest : List Byte,
    (taken ++ rest = (s.chan d).rxq ++ arrived ∨
      (s.chan d).par.rxCap = 0 ∧ (s.chan d).rxq ≠ [] ∧ taken = [] ∧ arrived ≠ [] ∧
        (rest = (s.chan d).rxq ∨ rest = arrived)) ∧
    (taken ≠ [] → i = .irqRx d ∧ UnitsDelivered taken d s t) ∧
    (arrived ≠ [] → ∃ u, arrived = [u] ∧ UnitReaches u d i s) ∧
    ((t.chan d).rxq = rest ∨
      (t.chan d).rxq = [] ∧ ∃ j, CarriedOut j i s t ∧ DiscardsReceived j d s)

/-- R219: in FIFO mode the limit of a receive in flight never asks for more units than are still wanted. -/
def LimitWithinRequest (s : State) : Prop :=
  ∀ c < s.nch, (s.chan c).rxFifo = true → (s.chan c).flags.rxInFlight = true →
    (s.chan c).rxLim.toNat + 1 ≤ (s.chan c).rx.remaining

/-- The units of a channel that left for the line, then those still queued: what was pushed and not discarded (R122). -/
def Chan.stream (ch : Chan) : List Byte := ch.txLine ++ ch.txq

/-- The dispatch of vector (c, k) as an operation (R183). -/
def irqOf (c : Nat) (k : Vec) : Instr :=
  match k with
  | .tx => .irqTx c
  | .rx => .irqRx c
  | .pr => .irqProto c

/-- `n` times: serve the transmit vector, then shift one unit out (R136 (a)). -/
def serveAndShift (c : Nat) : Nat → State → Result
  | 0, s => .next s
  | n + 1, s => andThen (exec (.irqTx c) s) fun s1 => andThen (exec (.envTxShift c) s1) (serveAndShift c n)

/-- `n` times: shift one unit out. -/
def shiftUnits (c : Nat) : Nat → State → Result
  | 0, s => .next s
  | n + 1, s => andThen (exec (.envTxShift c) s) (shiftUnits c n)

/-- `n` times: serve the transmit vector, then shift out all it queued (R136 (a) in FIFO mode). -/
def serveAndDrain (c : Nat) : Nat → State → Result
  | 0, s => .next s
  | n + 1, s => andThen (exec (.irqTx c) s) fun s1 =>
      andThen (shiftUnits c (s1.chan c).txq.length s1) (serveAndDrain c n)

end Sys2Proof.Machine
end

