-- ==== Sys2Proof/Certificates/Slice0/Obligations.lean ====
section
/-! DEFINITION. The statements for the provers, about every state of the machine and so for every value of the parameters
and draws. -/

open Sys2Proof Sys2Proof.Machine

/-! Encoding. -/

/-- R56 to R59, R63, R66: every well-formed operation's word decodes to it, every operand at every value the formats admit. -/
def Obligations.EveryOperationDecodesFromItsWord : Prop :=
  ∀ (nch : Nat) (i : Instr), i.wf nch = true → decode nch (encode i) = .ok i

/-- R64: a descriptor and a schedule word are refused exactly in the reserved cases. -/
def Obligations.WordRefusedExactlyWhenReserved : Prop :=
  (∀ (nch : Nat) (w : BitVec 80), (∃ r, decodeCmd nch w = .error r) ↔
    nch ≤ (cmdCh w).toNat ∨ (cmdOp w).toNat < 1 ∨ 5 < (cmdOp w).toNat ∨
    ((cmdOp w).toNat = 5 ∧ cmdA w ≠ 1 ∧ cmdA w ≠ 2 ∧ cmdA w ≠ 3) ∨
    (((cmdOp w).toNat = 3 ∨ (cmdOp w).toNat = 4) ∧ 2 ^ 32 < (cmdA w).toNat + (cmdB w).toNat)) ∧
  (∀ (nch : Nat) (w : BitVec 16), (∃ r, decodeSch nch w = .error r) ↔
    nch ≤ (schCh w).toNat ∨ (4 ≤ (schKind w).toNat ∧ (schKind w).toNat ≤ 7) ∨ 12 ≤ (schKind w).toNat ∨
    (((schKind w).toNat ≤ 3 ∨ (schKind w).toNat = 8) ∧ schArg w ≠ 0) ∨
    ((schKind w).toNat = 11 ∧ 5 ≤ (schArg w).toNat))

/-- Every operation the decoder gives is well-formed: it names a channel that exists and operands in range (R64). -/
def Obligations.DecodedOperationIsWellFormed : Prop :=
  ∀ (nch : Nat) (w : HwWord) (i : Instr), decode nch w = .ok i → i.wf nch = true

/-- R61, R62: a callback record reads back from its 56-bit word. -/
def Obligations.CallbackRecordReadsBack : Prop :=
  ∀ r : CbRec, r.ch < 256 → CbRec.decode r.encode = some r

/-- Words written out from the formats decode to what they stand for (vectors V30.1, V30.5, V30.7, V30.8, V30.16, V30.17). -/
def Obligations.WrittenWordsDecode : Prop :=
  decode 4 (.cmd 0x01000000000100000000) = .ok (.initOpen 0) ∧
  decode 4 (.cmd 0x02010001C20000000000) = .ok (.setBaud 1 115200) ∧
  decode 4 (.cmd 0x04012000010000000006) = .ok (.rx 1 0x20000100 6) ∧
  decode 4 (.cmd 0x05000000000300000000) = .ok (.abortTxRx 0) ∧
  decode 4 (.sch 0x9141) = .ok (.envRxArrive 1 0x41) ∧
  decode 4 (.sch 0xB004) = .ok (.envPFlag 0 4)

/-- A step whose scheduled word decodes runs that operation, after taking the word off the schedule (R4, R66, log 1). -/
def Obligations.StepRunsTheDecodedOperation : Prop :=
  ∀ (s : State) (w : HwWord) (rest : List Item) (i : Instr), s.sched = .word w :: rest → decode s.nch w = .ok i →
    step s = exec i { s with sched := rest }

/-! Lifecycle commands. -/

/-- R75: INIT.OPEN on an open channel changes nothing; on a closed one it loads what the rule lists and keeps the rest. -/
def Obligations.OpenLoadsAClosedChannel : Prop :=
  ∀ (s : State) (c : Nat), c < s.nch → s.hostEnabled = true →
    ∃ t, exec (.initOpen c) s = .next t ∧ CommandFrame c .success s t ∧
      ((s.chan c).flags.init = true → t.chan c = s.chan c) ∧
      ((s.chan c).flags.init = false → t.chan c =
        { s.chan c with
          even := (s.chan c).par.evOpen
          txq := []
          txLimit := (s.chan c).par.txLim
          rxq := []
          rxLim := (s.chan c).par.rxLim0
          run := true
          vTx := { en := true, pend := (s.chan c).vTx.pend, prio := (s.chan c).par.txPrio }
          vRx := { en := true, pend := (s.chan c).vRx.pend, prio := (s.chan c).par.rxPrio }
          vPr := if s.par.protoMon then { en := true, pend := (s.chan c).vPr.pend, prio := (s.chan c).par.prPrio }
            else (s.chan c).vPr
          flags := { (s.chan c).flags with init := true } })

/-- R76: INIT.CLOSE is Busy with units queued, otherwise clears INIT and RUN and nothing else. -/
def Obligations.CloseLooksAtTheTransmitQueueOnly : Prop :=
  ∀ (s : State) (c : Nat), c < s.nch → s.hostEnabled = true →
    ((s.chan c).txq ≠ [] → ∃ t, exec (.initClose c) s = .next t ∧ OnlyAnswered c .busy s t) ∧
    ((s.chan c).txq = [] → ∃ t, exec (.initClose c) s = .next t ∧ CommandFrame c .success s t ∧
      t.chan c = { s.chan c with run := false, flags := { (s.chan c).flags with init := false } })

/-- R77: an unrecognised request is InvalidArgument and touches no state. -/
def Obligations.UnrecognisedInitIsInvalid : Prop :=
  ∀ (s : State) (c : Nat) (r : Word), c < s.nch → s.hostEnabled = true →
    ∃ t, exec (.initInvalid c r) s = .next t ∧ OnlyAnswered c .invalidArgument s t

/-- R78: SETBAUD's checks in order; past them the hardware's answer decides, and either answer is possible. 57600 is no
supported rate (R5). -/
def Obligations.SetBaudChecksThenAsksTheHardware : Prop :=
  ∀ (s : State) (c : Nat) (v : Word), c < s.nch → s.hostEnabled = true →
    (v ∉ s.par.baudWl → ∃ t, exec (.setBaud c v) s = .next t ∧ OnlyAnswered c .invalidArgument s t) ∧
    (v ∈ s.par.baudWl → (s.chan c).flags.anyTransfer = true →
      ∃ t, exec (.setBaud c v) s = .next t ∧ OnlyAnswered c .busy s t) ∧
    (v ∈ s.par.baudWl → (s.chan c).flags.anyTransfer = false →
      ∃ t, exec (.setBaud c v) s = .next t ∧
        ((CommandFrame c .success s t ∧ t.chan c = { s.chan c with baud := v }) ∨ OnlyAnswered c .failed s t)) ∧
    (Config.baudWlOk s.par.baudWl = true → v = 57600 →
      ∃ t, exec (.setBaud c v) s = .next t ∧ OnlyAnswered c .invalidArgument s t)

/-! Transfer commands. -/

/-- R85: TX's checks in order, and what an accepted TX writes. -/
def Obligations.TransmitRequestIsCheckedThenRecorded : Prop :=
  ∀ (s : State) (c : Nat) (a b : Word), c < s.nch → s.hostEnabled = true → bufferFits a b = true →
    ((a = 0 ∨ b = 0) → ∃ t, exec (.tx c a b) s = .next t ∧ OnlyAnswered c .invalidArgument s t) ∧
    (a ≠ 0 → b ≠ 0 → (s.chan c).flags.init = false → ∃ t, exec (.tx c a b) s = .next t ∧ OnlyAnswered c .failed s t) ∧
    (a ≠ 0 → b ≠ 0 → (s.chan c).flags.init = true → ((s.chan c).flags.txBusy = true ∨ (s.chan c).flags.txLock = true) →
      ∃ t, exec (.tx c a b) s = .next t ∧ OnlyAnswered c .busy s t) ∧
    (a ≠ 0 → b ≠ 0 → (s.chan c).flags.init = true → (s.chan c).flags.txBusy = false → (s.chan c).flags.txLock = false →
      ∃ t, exec (.tx c a b) s = .next t ∧ CommandFrame c .success s t ∧ t.chan c =
        { s.chan c with
          tx := { ptr := a, len := b, idx := 0 }
          flags := { (s.chan c).flags with txBusy := true, txLock := true }
          txq := if (s.chan c).par.txCap = 0 then (s.chan c).txq else []
          even := (s.chan c).even ||| (if (s.chan c).par.txCap = 0 then 0x0001 else 0x0002)
          vTx := { (s.chan c).vTx with pend := true } })

/-- R86: RX's checks in order, and what an accepted RX writes. -/
def Obligations.ReceiveRequestIsCheckedThenRecorded : Prop :=
  ∀ (s : State) (c : Nat) (a b : Word), c < s.nch → s.hostEnabled = true → bufferFits a b = true →
    ((a = 0 ∨ b = 0) → ∃ t, exec (.rx c a b) s = .next t ∧ OnlyAnswered c .invalidArgument s t) ∧
    (a ≠ 0 → b ≠ 0 → (s.chan c).flags.init = false → ∃ t, exec (.rx c a b) s = .next t ∧ OnlyAnswered c .failed s t) ∧
    (a ≠ 0 → b ≠ 0 → (s.chan c).flags.init = true → ((s.chan c).flags.rxBusy = true ∨ (s.chan c).flags.rxLock = true) →
      ∃ t, exec (.rx c a b) s = .next t ∧ OnlyAnswered c .busy s t) ∧
    (a ≠ 0 → b ≠ 0 → (s.chan c).flags.init = true → (s.chan c).flags.rxBusy = false → (s.chan c).flags.rxLock = false →
      ∃ t, exec (.rx c a b) s = .next t ∧ CommandFrame c .success s t ∧ t.chan c =
        { s.chan c with
          rx := { ptr := a, len := b, idx := 0 }
          flags := { (s.chan c).flags with rxBusy := true, rxLock := true }
          rxq := if (s.chan c).par.rxCap = 0 then (s.chan c).rxq else []
          rxLim := if (s.chan c).par.rxCap = 0 then (s.chan c).rxLim
            else BitVec.ofNat 32 (min b.toNat (s.chan c).par.rxCap - 1)
          even := (s.chan c).even ||| (if (s.chan c).par.rxCap = 0 then 0x0004 else 0x0018) })

/-- R43, R64 (f): a buffer past the top of the address space is refused whatever the state. -/
def Obligations.BufferPastTheTopIsRefused : Prop :=
  ∀ (s : State) (c : Nat) (a b : Word), 2 ^ 32 < a.toNat + b.toNat →
    exec (.tx c a b) s = .refused (.reserved .bufferPastTop) ∧ exec (.rx c a b) s = .refused (.reserved .bufferPastTop)

/-- R87: ABORT.TX keeps the lock; in FIFO mode the head unit may be dropped (R116). -/
def Obligations.AbortTxClearsBusyAndKeepsLock : Prop :=
  ∀ (s : State) (c : Nat), c < s.nch → s.hostEnabled = true →
    ∃ t q, exec (.abortTx c) s = .next t ∧ CommandFrame c .success s t ∧
      ((s.chan c).par.txCap = 0 → q = []) ∧
      ((s.chan c).par.txCap ≠ 0 → q = (s.chan c).txq ∨ q = (s.chan c).txq.tail) ∧
      t.chan c =
        { s.chan c with
          flags := { (s.chan c).flags with txBusy := false }
          tx := { (s.chan c).tx with ptr := 0 }
          even := (s.chan c).even &&& ~~~(if (s.chan c).par.txCap = 0 then 0x0001 else 0x0002 : EventMask)
          txq := q }

/-- R88: ABORT.RX keeps the lock, the queue and the limit. -/
def Obligations.AbortRxClearsBusyAndKeepsLock : Prop :=
  ∀ (s : State) (c : Nat), c < s.nch → s.hostEnabled = true →
    ∃ t, exec (.abortRx c) s = .next t ∧ CommandFrame c .success s t ∧ t.chan c =
      { s.chan c with
        flags := { (s.chan c).flags with rxBusy := false }
        rx := { (s.chan c).rx with ptr := 0 }
        even := (s.chan c).even &&& ~~~(if (s.chan c).par.rxCap = 0 then 0x0004 else 0x0018 : EventMask) }

/-- R89: ABORT.TXRX does both. -/
def Obligations.AbortTxRxDoesBoth : Prop :=
  ∀ (s : State) (c : Nat), c < s.nch → s.hostEnabled = true →
    ∃ t q, exec (.abortTxRx c) s = .next t ∧ CommandFrame c .success s t ∧
      ((s.chan c).par.txCap = 0 → q = []) ∧
      ((s.chan c).par.txCap ≠ 0 → q = (s.chan c).txq ∨ q = (s.chan c).txq.tail) ∧
      t.chan c =
        { s.chan c with
          flags := { (s.chan c).flags with txBusy := false, rxBusy := false }
          tx := { (s.chan c).tx with ptr := 0 }
          rx := { (s.chan c).rx with ptr := 0 }
          even := (s.chan c).even &&& ~~~(if (s.chan c).par.txCap = 0 then 0x0001 else 0x0002 : EventMask)
            &&& ~~~(if (s.chan c).par.rxCap = 0 then 0x0004 else 0x0018 : EventMask)
          txq := q }

/-! The transmit handler. -/

/-- R130: without a transfer in flight the transmit handler changes nothing but the pending bit. -/
def Obligations.StrayTransmitInterruptDoesNothing : Prop :=
  ∀ (s : State) (c : Nat), c < s.nch → s.dispatchable c .tx = true →
    ¬((s.chan c).flags.txLock = true ∧ (s.chan c).flags.txBusy = true) →
    ∃ t, exec (.irqTx c) s = .next t ∧ ServedFrame c [] s t ∧
      t.chan c = { s.chan c with vTx := (s.chan c).vTx.served }

/-- R131: in FIFO mode the handler pushes as many units as there is room for and the request still has, in order. -/
def Obligations.FifoFillPushesWhatFits : Prop :=
  ∀ (s : State) (c : Nat), c < s.nch → s.dispatchable c .tx = true →
    (s.chan c).flags.txLock = true → (s.chan c).flags.txBusy = true → (s.chan c).par.txCap ≠ 0 →
    (s.chan c).tx.idx < (s.chan c).tx.len → (s.chan c).txq.length ≤ (s.chan c).par.txCap →
    bufferFits (s.chan c).tx.ptr (s.chan c).tx.len = true →
    ∃ t n, exec (.irqTx c) s = .next t ∧ ServedFrame c [] s t ∧
      n = min ((s.chan c).par.txCap - (s.chan c).txq.length) ((s.chan c).tx.len.toNat - (s.chan c).tx.idx.toNat) ∧
      t.chan c =
        { s.chan c with
          txq := (s.chan c).txq ++ s.mem.bytes (s.chan c).tx.address n
          tx := { (s.chan c).tx with idx := (s.chan c).tx.idx + BitVec.ofNat 32 n }
          vTx := (s.chan c).vTx.served }

/-- R132: in byte mode the handler pushes exactly one unit into an empty buffer; onto an occupied one it is the fault of
U3 (R102). -/
def Obligations.ByteFillPushesOneUnit : Prop :=
  ∀ (s : State) (c : Nat), c < s.nch → s.dispatchable c .tx = true →
    (s.chan c).flags.txLock = true → (s.chan c).flags.txBusy = true → (s.chan c).par.txCap = 0 →
    (s.chan c).tx.idx < (s.chan c).tx.len → bufferFits (s.chan c).tx.ptr (s.chan c).tx.len = true →
    ((s.chan c).txq = [] → ∃ t, exec (.irqTx c) s = .next t ∧ ServedFrame c [] s t ∧
      t.chan c =
        { s.chan c with
          txq := [s.mem.read (s.chan c).tx.address]
          tx := { (s.chan c).tx with idx := (s.chan c).tx.idx + 1 }
          vTx := (s.chan c).vTx.served }) ∧
    ((s.chan c).txq.length = 1 → exec (.irqTx c) s = .fault .pushOnOccupiedBuffer)

/-- R133: with everything pushed and units still queued the handler waits on ACTIVE. -/
def Obligations.TransmitHandlerWaitsForTheQueue : Prop :=
  ∀ (s : State) (c : Nat), c < s.nch → s.dispatchable c .tx = true →
    (s.chan c).flags.txLock = true → (s.chan c).flags.txBusy = true →
    (s.chan c).tx.idx = (s.chan c).tx.len → (s.chan c).txq ≠ [] →
    ∃ t, exec (.irqTx c) s = .next t ∧ HandlerFrame c [] s t ∧ SameMemory s t ∧ t.active = (c, .tx) :: s.active ∧
      t.chan c = { s.chan c with txWait := true, vTx := (s.chan c).vTx.served }

/-- R134, for a consumer that issues nothing: IRQ.TX with the queue drained, and TXDONE, complete the transfer. -/
def Obligations.TransmitCompletion : Prop :=
  ∀ (s : State) (c : Nat), c < s.nch → s.consumerSilent →
    (s.dispatchable c .tx = true → (s.chan c).flags.txLock = true → (s.chan c).flags.txBusy = true →
      (s.chan c).tx.idx = (s.chan c).tx.len → (s.chan c).txq = [] →
      ∃ t, exec (.irqTx c) s = .next t ∧
        ServedFrame c [{ ch := c, event := .txComplete, ptr := (s.chan c).tx.ptr, data := 0 }] s t ∧
        t.chan c =
          { s.chan c with
            even := (s.chan c).even &&& ~~~(if (s.chan c).par.txCap = 0 then 0x0001 else 0x0002 : EventMask)
            tx := { (s.chan c).tx with ptr := 0 }
            flags := { (s.chan c).flags with txBusy := false, txLock := false }
            vTx := (s.chan c).vTx.served }) ∧
    ((s.chan c).txWait = true → s.active.head? = some (c, .tx) → (s.chan c).txq = [] →
      ∃ t, exec (.txDone c) s = .next t ∧
        HandlerFrame c [{ ch := c, event := .txComplete, ptr := (s.chan c).tx.ptr, data := 0 }] s t ∧
        SameMemory s t ∧ t.active = s.active.tail ∧
        t.chan c =
          { s.chan c with
            txWait := false
            even := (s.chan c).even &&& ~~~(if (s.chan c).par.txCap = 0 then 0x0001 else 0x0002 : EventMask)
            tx := { (s.chan c).tx with ptr := 0 }
            flags := { (s.chan c).flags with txBusy := false, txLock := false } })

/-- R134 corner (a): whatever the consumer issues inside the callback, a completed transmit leaves the direction idle and
unlocked and has emitted exactly one record. -/
def Obligations.TransmitCompletionSurvivesNestedCommands : Prop :=
  ∀ (s t : State) (c : Nat),
    (exec (.txDone c) s = .next t ∨
      (exec (.irqTx c) s = .next t ∧ (s.chan c).flags.txLock = true ∧ (s.chan c).flags.txBusy = true ∧
        (s.chan c).tx.idx = (s.chan c).tx.len ∧ (s.chan c).txq = [])) →
    t.cbLog = s.cbLog ++ [{ ch := c, event := .txComplete, ptr := (s.chan c).tx.ptr, data := 0 }] ∧
    (t.chan c).flags.txLock = false ∧ (t.chan c).flags.txBusy = false ∧ (t.chan c).tx.ptr = 0

/-! The receive handler. -/

/-- R141, R142: with no request outstanding one unit is forwarded; an empty FIFO forwards nothing, an empty byte-mode
buffer a drawn byte. -/
def Obligations.UnsolicitedReceiveForwardsOneUnit : Prop :=
  ∀ (s : State) (c : Nat), c < s.nch → s.dispatchable c .rx = true → s.consumerSilent →
    (s.chan c).flags.rxLock = false → (s.chan c).flags.rxBusy = false →
    ((s.chan c).par.rxCap ≠ 0 → (s.chan c).rxq = [] → ∃ t, exec (.irqRx c) s = .next t ∧ ForwardsNothing c s t) ∧
    ((s.chan c).par.rxCap = 0 ∨ (s.chan c).rxq ≠ [] → ∃ t, exec (.irqRx c) s = .next t ∧ ForwardsOneUnit c s t)

/-- R143: with exactly one of lock and busy set the policy decides. -/
def Obligations.MixedReceiveFollowsThePolicy : Prop :=
  ∀ (s : State) (c : Nat), c < s.nch → s.dispatchable c .rx = true → s.consumerSilent →
    (s.chan c).flags.rxLock ≠ (s.chan c).flags.rxBusy →
    (s.par.mixed = .noop ∨ ((s.chan c).par.rxCap ≠ 0 ∧ (s.chan c).rxq = []) →
      ∃ t, exec (.irqRx c) s = .next t ∧ ForwardsNothing c s t) ∧
    (s.par.mixed = .unsolicited → ((s.chan c).par.rxCap = 0 ∨ (s.chan c).rxq ≠ []) →
      ∃ t, exec (.irqRx c) s = .next t ∧ ForwardsOneUnit c s t)

/-- R144, R145: a drain that does not reach the length stores every queued unit and sets the new trigger limit. -/
def Obligations.FifoDrainShrinksTheLimit : Prop :=
  ∀ (s : State) (c : Nat), c < s.nch → s.dispatchable c .rx = true → Memory.wf s.mem →
    (s.chan c).flags.rxLock = true → (s.chan c).flags.rxBusy = true → (s.chan c).par.rxCap ≠ 0 →
    bufferFits (s.chan c).rx.ptr (s.chan c).rx.len = true →
    (s.chan c).rx.idx.toNat + (s.chan c).rxq.length < (s.chan c).rx.len.toNat →
    ∃ t, exec (.irqRx c) s = .next t ∧ HandlerFrame c [] s t ∧ t.active = s.active ∧
      StoresUnits (s.chan c).rx.address (s.chan c).rxq s t ∧
      t.chan c =
        { s.chan c with
          rxq := []
          rx := { (s.chan c).rx with idx := (s.chan c).rx.idx + BitVec.ofNat 32 (s.chan c).rxq.length }
          rxLim := BitVec.ofNat 32
            (min ((s.chan c).rx.len.toNat - ((s.chan c).rx.idx.toNat + (s.chan c).rxq.length)) (s.chan c).par.rxCap - 1)
          vRx := (s.chan c).vRx.served }

/-- R144, R147, for a consumer that issues nothing: a drain that reaches the length stops there and completes; later units
stay queued. -/
def Obligations.FifoDrainCompletesAtTheLength : Prop :=
  ∀ (s : State) (c : Nat), c < s.nch → s.dispatchable c .rx = true → Memory.wf s.mem → s.consumerSilent →
    (s.chan c).flags.rxLock = true → (s.chan c).flags.rxBusy = true → (s.chan c).par.rxCap ≠ 0 →
    bufferFits (s.chan c).rx.ptr (s.chan c).rx.len = true → (s.chan c).rx.idx < (s.chan c).rx.len →
    (s.chan c).rx.len.toNat ≤ (s.chan c).rx.idx.toNat + (s.chan c).rxq.length →
    ∃ t, exec (.irqRx c) s = .next t ∧
      HandlerFrame c [{ ch := c, event := .rxComplete, ptr := (s.chan c).rx.ptr, data := 0 }] s t ∧ t.active = s.active ∧
      StoresUnits (s.chan c).rx.address ((s.chan c).rxq.take (s.chan c).rx.remaining) s t ∧
      t.chan c =
        { s.chan c with
          rxq := (s.chan c).rxq.drop (s.chan c).rx.remaining
          rx := { (s.chan c).rx with idx := (s.chan c).rx.len }
          even := (s.chan c).even &&& ~~~(0x0018 : EventMask)
          flags := { (s.chan c).flags with rxBusy := false, rxLock := false }
          vRx := (s.chan c).vRx.served }

/-- R146, for a consumer that issues nothing: in byte mode one unit is stored, drawn if the buffer is empty, and the
transfer completes when the index reaches the length. -/
def Obligations.ByteReceiveStoresOneUnit : Prop :=
  ∀ (s : State) (c : Nat), c < s.nch → s.dispatchable c .rx = true → Memory.wf s.mem → s.consumerSilent →
    (s.chan c).flags.rxLock = true → (s.chan c).flags.rxBusy = true → (s.chan c).par.rxCap = 0 →
    bufferFits (s.chan c).rx.ptr (s.chan c).rx.len = true → (s.chan c).rx.idx < (s.chan c).rx.len →
    ∃ t u, exec (.irqRx c) s = .next t ∧ t.active = s.active ∧
      (∀ x q, (s.chan c).rxq = x :: q → u = x) ∧ StoresUnits (s.chan c).rx.address [u] s t ∧
      ((s.chan c).rx.idx.toNat + 1 < (s.chan c).rx.len.toNat → HandlerFrame c [] s t ∧
        t.chan c =
          { s.chan c with
            rxq := (s.chan c).rxq.tail
            rx := { (s.chan c).rx with idx := (s.chan c).rx.idx + 1 }
            vRx := (s.chan c).vRx.served }) ∧
      ((s.chan c).rx.idx.toNat + 1 = (s.chan c).rx.len.toNat →
        HandlerFrame c [{ ch := c, event := .rxComplete, ptr := (s.chan c).rx.ptr, data := 0 }] s t ∧
        t.chan c =
          { s.chan c with
            rxq := (s.chan c).rxq.tail
            rx := { (s.chan c).rx with idx := (s.chan c).rx.len }
            even := (s.chan c).even &&& ~~~(0x0004 : EventMask)
            flags := { (s.chan c).flags with rxBusy := false, rxLock := false }
            vRx := (s.chan c).vRx.served })

/-! The protocol handler. -/

/-- R157, R158, for a consumer that issues nothing: the first set and enabled condition is cleared and reported, and no
other; with no match the handler changes nothing but the pending bit. -/
def Obligations.ProtocolScanReportsTheFirstMatch : Prop :=
  ∀ (s : State) (c : Nat), c < s.nch → s.par.protoMon = true → s.dispatchable c .pr = true → s.consumerSilent →
    (∀ (i : Nat) (ev : Event), (i, ev) ∈ faultTable →
      (s.chan c).pstat.getLsbD i = true → (s.chan c).even.getLsbD (8 + i) = true →
      (∀ j < i, ¬((s.chan c).pstat.getLsbD j = true ∧ (s.chan c).even.getLsbD (8 + j) = true)) →
      ∃ t, exec (.irqProto c) s = .next t ∧ ServedFrame c [{ ch := c, event := ev, ptr := 0, data := 0 }] s t ∧
        t.chan c =
          { s.chan c with
            pstat := (s.chan c).pstat &&& ~~~(BitVec.twoPow 8 i)
            vPr := (s.chan c).vPr.served }) ∧
    ((∀ i < 5, ¬((s.chan c).pstat.getLsbD i = true ∧ (s.chan c).even.getLsbD (8 + i) = true)) →
      ∃ t, exec (.irqProto c) s = .next t ∧ ServedFrame c [] s t ∧
        t.chan c = { s.chan c with vPr := (s.chan c).vPr.served })

/-- R159: without protocol monitoring IRQ.PROTO is never enabled, and no operation makes a protocol vector pending or
enabled. -/
def Obligations.NoProtocolPathWithoutMonitoring : Prop :=
  ∀ s : State, s.par.protoMon = false →
    (∀ c, exec (.irqProto c) s = .refused .notDispatchable) ∧
    ∀ (i : Instr) (t : State) (d : Nat), exec i s = .next t →
      (t.chan d).vPr = (s.chan d).vPr

/-! The environment. -/

/-- R117, without a loopback wire: the head unit leaves for the line and the event of the mode is raised on its edge. On a
stopped channel or an empty queue the shift is no step. -/
def Obligations.ShiftMovesTheHeadToTheLine : Prop :=
  ∀ (s : State) (c : Nat), c < s.nch →
    (∀ (u : Byte) (q : List Byte), (s.chan c).run = true → (s.chan c).txq = u :: q → (s.chan c).par.loopTo = none →
      ∃ t, exec (.envTxShift c) s = .next t ∧ EnvironmentFrame s t ∧ (∀ d, d ≠ c → t.chan d = s.chan d) ∧
        t.chan c = shifted u q (s.chan c)) ∧
    ((s.chan c).run = false ∨ (s.chan c).txq = [] → exec (.envTxShift c) s = .refused .nothingToShift)

/-- R120: a wire delivers the unit in the same step to a receiver that has room; otherwise the unit is lost. The receiver
may be the sender itself. -/
def Obligations.LoopbackDeliversInTheSameStep : Prop :=
  ∀ (s : State) (c d : Nat) (u : Byte) (q : List Byte), c < s.nch → d < s.nch → (s.chan c).run = true →
    (s.chan c).txq = u :: q → (s.chan c).par.loopTo = some d →
    ∃ t, exec (.envTxShift c) s = .next t ∧ EnvironmentFrame s t ∧ (∀ e, e ≠ c → e ≠ d → t.chan e = s.chan e) ∧
      (d ≠ c → t.chan c = shifted u q (s.chan c) ∧
        (HasRoom (s.chan d) → Arrives u false (s.chan d) (t.chan d)) ∧
        (¬HasRoom (s.chan d) → t.chan d = s.chan d)) ∧
      (d = c → (HasRoom (s.chan c) → Arrives u false (shifted u q (s.chan c)) (t.chan c)) ∧
        (¬HasRoom (s.chan c) → t.chan c = shifted u q (s.chan c)))

/-- R118: an arrival, flagged alternate or not, at a receiver that runs, has room and is wired to no transmitter; on a
stopped channel, at a full FIFO, or at a wired receiver it is no step. -/
def Obligations.ArrivalQueuesTheUnitWhereThereIsRoom : Prop :=
  ∀ (s : State) (c : Nat) (u : Byte), c < s.nch →
    (HasRoom (s.chan c) → (∀ b < s.nch, (s.chan b).par.loopTo ≠ some c) →
      (∃ t, exec (.envRxArrive c u) s = .next t ∧ EnvironmentFrame s t ∧ (∀ d, d ≠ c → t.chan d = s.chan d) ∧
        Arrives u false (s.chan c) (t.chan c)) ∧
      (∃ t, exec (.envRxArriveAlt c u) s = .next t ∧ EnvironmentFrame s t ∧ (∀ d, d ≠ c → t.chan d = s.chan d) ∧
        Arrives u true (s.chan c) (t.chan c))) ∧
    ((¬HasRoom (s.chan c) ∨ ∃ b < s.nch, (s.chan b).par.loopTo = some c) →
      exec (.envRxArrive c u) s = .refused .noArrival ∧ exec (.envRxArriveAlt c u) s = .refused .noArrival)

/-- R119: on a running channel a detected condition sets its flag and, if it is enabled and monitored, pends the protocol
vector; on a stopped channel it is no step. -/
def Obligations.DetectionSetsTheFlag : Prop :=
  ∀ (s : State) (c i : Nat), c < s.nch → i < 5 →
    ((s.chan c).run = true →
      ∃ t, exec (.envPFlag c i) s = .next t ∧ EnvironmentFrame s t ∧ (∀ d, d ≠ c → t.chan d = s.chan d) ∧
        t.chan c =
          { s.chan c with
            pstat := (s.chan c).pstat ||| BitVec.twoPow 8 i
            vPr := (s.chan c).vPr.raised (s.par.protoMon && (s.chan c).even.getLsbD (8 + i)) }) ∧
    ((s.chan c).run = false → exec (.envPFlag c i) s = .refused .noDetection)

/-- R123: on a stopped channel no environment step is enabled. -/
def Obligations.StoppedChannelHasNoEnvironmentStep : Prop :=
  ∀ (s : State) (c i : Nat) (u : Byte), c < s.nch → i < 5 → (s.chan c).run = false →
    exec (.envTxShift c) s = .refused .nothingToShift ∧ exec (.envRxArrive c u) s = .refused .noArrival ∧
    exec (.envRxArriveAlt c u) s = .refused .noArrival ∧ exec (.envPFlag c i) s = .refused .noDetection

/-! Dispatch, contexts, the callback port. -/

/-- R173: an interrupt handler runs exactly when its vector is enabled and pending, outranks the running handler strictly,
and no enabled and pending vector outranks it. -/
def Obligations.HandlerRunsOnlyWhenDispatchable : Prop :=
  ∀ (s : State) (c : Nat) (k : Vec), c < s.nch →
    (s.dispatchable c k = true ↔
      (((s.chan c).vec k).en = true ∧ ((s.chan c).vec k).pend = true) ∧
      (s.active = [] ∨ ∃ h rest, s.active = h :: rest ∧ ((s.chan c).vec k).prio < ((s.chan h.1).vec h.2).prio) ∧
      ∀ d < s.nch, ∀ j, ((s.chan d).vec j).en = true → ((s.chan d).vec j).pend = true →
        ¬((s.chan d).vec j).prio < ((s.chan c).vec k).prio) ∧
    (s.dispatchable c k = false → exec (irqOf c k) s = .refused .notDispatchable)

/-- R178: in the strict reading a host command is carried out exactly when no handler is active and no vector is
dispatchable. -/
def Obligations.HostWaitsForInterrupts : Prop :=
  ∀ (s : State) (i : Instr), i.wf s.nch = true → i.isCommand = true → s.par.hostRelaxed = false →
    ((∃ t, exec i s = .next t) ↔ s.active = [] ∧ ∀ c < s.nch, ∀ k, s.dispatchable c k = false) ∧
    (¬(∃ t, exec i s = .next t) → exec i s = .refused .hostHeldOff)

/-- R171, R172: only the dispatch of a vector clears its pending bit, and no operation disables a vector. -/
def Obligations.PendingClearedByDispatchAloneEnablesStay : Prop :=
  ∀ (s t : State) (i : Instr) (c : Nat) (k : Vec), exec i s = .next t →
    (((s.chan c).vec k).pend = true → i ≠ irqOf c k → ((t.chan c).vec k).pend = true) ∧
    (((s.chan c).vec k).en = true → ((t.chan c).vec k).en = true)

/-- R175 to R177: every handler enters and leaves within its step, but a transmit handler that waits stays on top, and
TXDONE takes the top off. -/
def Obligations.OnlyAWaitingHandlerStaysActive : Prop :=
  ∀ (s t : State) (i : Instr), exec i s = .next t →
    t.active = s.active ∨
    (∃ c, i = .irqTx c ∧ t.active = (c, .tx) :: s.active ∧ (t.chan c).txWait = true) ∨
    (∃ c, i = .txDone c ∧ s.active = (c, .tx) :: t.active ∧ (t.chan c).txWait = false)

/-- R180, R167: only handlers emit records, at most one in a step, and it names the handler's channel. -/
def Obligations.OnlyHandlersEmitRecords : Prop :=
  ∀ (s t : State) (i : Instr), exec i s = .next t →
    t.cbLog = s.cbLog ∨
    ((∃ c, i = .irqTx c ∨ i = .irqRx c ∨ i = .irqProto c ∨ i = .txDone c) ∧
      ∃ r : CbRec, t.cbLog = s.cbLog ++ [r] ∧ r.ch = i.ch)

/-- R181, conflict C1: inside its own completion callback a direction is still occupied, so a request for it is Busy and
changes nothing, while the opposite direction is answered as from the main line. Here for the transmit completion. -/
def Obligations.RequestInItsOwnCallbackIsBusy : Prop :=
  ∀ (s : State) (c : Nat) (a b a' b' : Word) (w w' : BitVec 80), c < s.nch → s.dispatchable c .tx = true →
    (s.chan c).flags.init = true → (s.chan c).flags.txLock = true → (s.chan c).flags.txBusy = true →
    (s.chan c).txWait = false → (s.chan c).tx.idx = (s.chan c).tx.len → (s.chan c).txq = [] →
    (s.chan c).flags.rxLock = false → (s.chan c).flags.rxBusy = false →
    a ≠ 0 → b ≠ 0 → a' ≠ 0 → b' ≠ 0 →
    decodeCmd s.nch w = .ok (.tx c a b) → decodeCmd s.nch w' = .ok (.rx c a' b') → s.consumer.headD [] = [w, w'] →
    ∃ t, exec (.irqTx c) s = .next t ∧
      t.statusLog = s.statusLog ++ [{ ctx := .interrupt, status := .busy }, { ctx := .interrupt, status := .success }] ∧
      (t.chan c).tx = { (s.chan c).tx with ptr := 0 } ∧ (t.chan c).rx = { ptr := a', len := b', idx := 0 } ∧
      (t.chan c).flags = { init := true, txLock := false, txBusy := false, rxLock := true, rxBusy := true }

/-- U6, log 10: the first nested command that targets the transmit direction of a channel whose handler is suspended is
refused, here from the protocol handler of any channel. -/
def Obligations.NestedCommandOnASuspendedTransmitIsRefused : Prop :=
  ∀ (s : State) (c i : Nat) (ev : Event) (w : BitVec 80) (ws : List (BitVec 80)) (j : Instr), c < s.nch →
    s.par.protoMon = true → s.dispatchable c .pr = true → (i, ev) ∈ faultTable →
    (s.chan c).pstat.getLsbD i = true → (s.chan c).even.getLsbD (8 + i) = true →
    s.consumer.headD [] = w :: ws → decodeCmd s.nch w = .ok j → targetsTransmit j = true →
    (s.chan j.ch).txWait = true → exec (.irqProto c) s = .refused .nestedOnSuspendedTx

/-- R183: where the interrupt numbers are distinct, as the invariant has them (R5, R170), each stands for its own vector
(log 31). -/
def Obligations.InterruptNumberNamesItsVector : Prop :=
  ∀ (s : State) (c : Nat) (k : Vec), c < s.nch → s.irqNumbers.Nodup →
    s.vectorOfIrq ((s.chan c).irqNumber k) = some (c, k)

/-! Whole-machine rules. -/

/-- R166: a command answered with anything but Success has changed no state; the draws made are the model's own count. -/
def Obligations.FailedCommandChangesNothing : Prop :=
  ∀ (s t : State) (i : Instr) (st : Status), i.isCommand = true → exec i s = .next t →
    t.statusLog = s.statusLog ++ [{ ctx := .mainLine, status := st }] → st ≠ .success →
    t = { s with statusLog := t.statusLog, draws := t.draws }

/-- R60, U7: no step delivers OutOfBound. -/
def Obligations.OutOfBoundIsNeverReturned : Prop :=
  ∀ (s t : State), step s = .next t → ∃ rs : List StatusRec, t.statusLog = s.statusLog ++ rs ∧
    ∀ r ∈ rs, r.status ≠ .outOfBound

/-- R46 (b), R148 (b): no operation but IRQ.RX changes buffer memory, and IRQ.RX only inside the buffer of a receive in
flight. -/
def Obligations.OnlyTheReceiveHandlerWritesItsBuffer : Prop :=
  ∀ (s t : State) (i : Instr) (a : Nat), exec i s = .next t → t.mem.read a ≠ s.mem.read a →
    ∃ c, i = .irqRx c ∧ (s.chan c).flags.rxLock = true ∧ (s.chan c).flags.rxBusy = true ∧
      (s.chan c).rx.address ≤ a ∧ a < 2 ^ 32 ∧
      ((s.chan c).rx.idx < (s.chan c).rx.len → a < (s.chan c).rx.ptr.toNat + (s.chan c).rx.len.toNat)

/-- R20, R21, R11: no operation writes a parameter or changes the set of channels, and only SETBAUD or a nested SETBAUD can
change a stored rate, to a whitelisted one. -/
def Obligations.ConfigurationIsImmutable : Prop :=
  ∀ (s t : State) (i : Instr) (c : Nat), exec i s = .next t →
    t.par = s.par ∧ t.nch = s.nch ∧ (t.chan c).par = (s.chan c).par ∧
    ((t.chan c).baud = (s.chan c).baud ∨ (t.chan c).baud ∈ s.par.baudWl)

/-- R184: a step on one channel leaves another channel as it was, unless its transmitter is wired to it or the consumer
issues a command for it. -/
def Obligations.ChannelsDoNotInterfere : Prop :=
  ∀ (s t : State) (i : Instr) (d : Nat), exec i s = .next t → i.ch ≠ d →
    (i = .envTxShift i.ch → (s.chan i.ch).par.loopTo ≠ some d) →
    (∀ w ∈ s.consumer.headD [], ∀ j, decodeCmd s.nch w = .ok j → j.ch ≠ d) →
    t.chan d = s.chan d

/-- R122, for both queues and commands included: units leave a queue in the order they were put there. A transmit queue is
filled from the buffer in order and loses units to the line, a flush, a reconfiguration or a forced idle alone; a receive
queue, to the receive handler's deliveries, a flush, a reconfiguration or a byte-mode overrun alone. With no command in
between, what a channel has pushed only grows, and TXIDX counts it. -/
def Obligations.UnitsLeaveInTheOrderPushed : Prop :=
  ∀ (s t : State) (i : Instr) (d : Nat), exec i s = .next t →
    (i.isCommand = false → s.consumerSilent →
      ∃ n, (t.chan d).stream = (s.chan d).stream ++ s.mem.bytes (s.chan d).tx.address n ∧
        (t.chan d).tx.idx = (s.chan d).tx.idx + BitVec.ofNat 32 n ∧ (i ≠ .irqTx d → n = 0)) ∧
    TransmitOrder d i s t ∧ (Memory.wf s.mem → ReceiveOrder d i s t)

/-- R204: from a state the invariant allows, a direction locked by an abort stays locked and not busy, whatever step is
taken. -/
def Obligations.LockLeftByAbortIsAbsorbing : Prop :=
  ∀ (s t : State) (c : Nat), s.Inv → c < s.nch → step s = .next t →
    ((s.chan c).flags.txLock = true → (s.chan c).flags.txBusy = false →
      (t.chan c).flags.txLock = true ∧ (t.chan c).flags.txBusy = false) ∧
    ((s.chan c).flags.rxLock = true → (s.chan c).flags.rxBusy = false →
      (t.chan c).flags.rxLock = true ∧ (t.chan c).flags.rxBusy = false)

/-- R203: what survives a close that succeeded and the open after it. -/
def Obligations.CloseAndReopenIsNoReset : Prop :=
  ∀ (s t u : State) (c : Nat), (s.chan c).txq = [] → exec (.initClose c) s = .next t → exec (.initOpen c) t = .next u →
    (u.chan c).flags = { (s.chan c).flags with init := true } ∧ (u.chan c).tx = (s.chan c).tx ∧
    (u.chan c).rx = (s.chan c).rx ∧ (u.chan c).baud = (s.chan c).baud ∧ (u.chan c).pstat = (s.chan c).pstat ∧
    (∀ k, ((u.chan c).vec k).pend = ((s.chan c).vec k).pend) ∧ (u.chan c).txWait = (s.chan c).txWait ∧
    u.active = s.active ∧ (u.chan c).txLine = (s.chan c).txLine ∧ u.cbLog = s.cbLog ∧
    (u.chan c).even = (s.chan c).par.evOpen ∧ (u.chan c).rxLim = (s.chan c).par.rxLim0

/-! Reset. -/

/-- R32: the reset values the spec gives, for every value of the parameters. -/
def Obligations.ResetValues : Prop :=
  ∀ (p : Params) (ps : List ChanParams) (c : Nat) (h : c < ps.length),
    (State.resetWith p ps).nch = ps.length ∧ (State.resetWith p ps).active = [] ∧ (State.resetWith p ps).cbLog = [] ∧
    ((State.resetWith p ps).chan c).flags.stateWord = 0 ∧
    (State.resetWith p ps).chan c =
      { par := ps[c]
        flags := { init := false, txLock := false, txBusy := false, rxLock := false, rxBusy := false }
        tx := { ptr := 0, len := 0, idx := 0 }
        rx := { ptr := 0, len := 0, idx := 0 }
        baud := ps[c].baud0
        run := false
        txq := []
        rxq := []
        txLimit := 0
        rxLim := 0
        even := 0
        pstat := 0
        vTx := { en := false, pend := false, prio := 0 }
        vRx := { en := false, pend := false, prio := 0 }
        vPr := { en := false, pend := false, prio := 0 }
        txWait := false
        txLine := [] }

/-- R202: in the reset state, whatever the parameters, only host commands can occur. -/
def Obligations.OnlyTheHostStepsAfterReset : Prop :=
  ∀ (p : Params) (ps : List ChanParams) (i : Instr), i.wf ps.length = true →
    ((∃ t, exec i (State.resetWith p ps) = .next t) ↔ i.isCommand = true)

/-! The invariant, safety, progress. -/

/-- The invariant holds at reset for all parameters that meet R5's constraints, the defaults among them. -/
def Obligations.InvariantHoldsAtReset : Prop :=
  (∀ (p : Params) (ps : List ChanParams), Config.paramsOk p.baudWl ps = true → (State.resetWith p ps).Inv) ∧
  State.reset.Inv

/-- Every step keeps the invariant: R16, R122, R133, R136 (c) and the model's canonical memory (log 11) among it. -/
def Obligations.StepKeepsTheInvariant : Prop :=
  ∀ s t : State, s.Inv → step s = .next t → t.Inv

/-- U3, R102, R136 (c), R42: from a state the invariant allows, no step faults. -/
def Obligations.NoStepFaults : Prop :=
  ∀ (s : State) (f : Fault), s.Inv → step s ≠ .fault f

/-- Every well-formed operation that its rule enables is carried out, from every state the invariant allows, for every
admitted consumer. -/
def Obligations.EnabledStepIsCarriedOut : Prop :=
  ∀ (s : State) (i : Instr), s.Inv → i.wf s.nch = true → s.enabled i = true →
    s.consumerAdmitted (finishingHandler i) → ∃ t, exec i s = .next t

/-- A disabled operation is no step: it is refused and never faults (R63, log 2). -/
def Obligations.DisabledStepIsRefused : Prop :=
  ∀ (s : State) (i : Instr), s.enabled i = false → ∃ r, exec i s = .refused r

/-- R219, under the default RXLIM0 = 0 (with another limit at open it is false, log 29): the limit never asks for more
units than are still wanted. -/
def Obligations.ReceiveLimitStaysWithinTheRequest : Prop :=
  ∀ s t : State, s.Inv → (∀ c < s.nch, (s.chan c).par.rxLim0 = 0) → LimitWithinRequest s → step s = .next t →
    LimitWithinRequest t

/-- R136 (a), R135, in byte mode: from an idle open channel and a quiet machine, an accepted TX followed by TXLEN rounds of
serving the vector and shifting a unit, and one more service, emits exactly one TX_COMPLETE, with the buffer's bytes on
the line in order and the direction free again. -/
def Obligations.ByteModeTransmitCompletes : Prop :=
  ∀ (s : State) (c : Nat) (a b : Word), s.Inv → c < s.nch → s.consumerSilent → s.active = [] →
    (∀ d < s.nch, ∀ k, ((s.chan d).vec k).wants = false) →
    (s.chan c).par.txCap = 0 → (s.chan c).par.loopTo = none →
    (s.chan c).flags.init = true → (s.chan c).flags.txLock = false →
    a ≠ 0 → b ≠ 0 → bufferFits a b = true →
    ∃ t, andThen (exec (.tx c a b) s) (fun s1 => andThen (serveAndShift c b.toNat s1) (exec (.irqTx c))) = .next t ∧
      t.cbLog = s.cbLog ++ [{ ch := c, event := .txComplete, ptr := a, data := 0 }] ∧
      (t.chan c).txLine = (s.chan c).txLine ++ s.mem.bytes a.toNat b.toNat ∧ (t.chan c).txq = [] ∧
      (t.chan c).tx = { ptr := 0, len := b, idx := b } ∧
      (t.chan c).flags.txLock = false ∧ (t.chan c).flags.txBusy = false ∧ t.active = []

/-- R136 (a), R135, in FIFO mode with TXLIMIT = 1: as in byte mode, with ceil(TXLEN / TXCAP) rounds of serving the vector and
shifting out all it queued, and one more service. -/
def Obligations.FifoModeTransmitCompletes : Prop :=
  ∀ (s : State) (c : Nat) (a b : Word), s.Inv → c < s.nch → s.consumerSilent → s.active = [] →
    (∀ d < s.nch, ∀ k, ((s.chan d).vec k).wants = false) →
    (s.chan c).par.txCap ≠ 0 → (s.chan c).txLimit = 1 → (s.chan c).par.loopTo = none →
    (s.chan c).flags.init = true → (s.chan c).flags.txLock = false →
    a ≠ 0 → b ≠ 0 → bufferFits a b = true →
    ∃ t, andThen (exec (.tx c a b) s) (fun s1 =>
        andThen (serveAndDrain c ((b.toNat + (s.chan c).par.txCap - 1) / (s.chan c).par.txCap) s1) (exec (.irqTx c))) =
        .next t ∧
      t.cbLog = s.cbLog ++ [{ ch := c, event := .txComplete, ptr := a, data := 0 }] ∧
      (t.chan c).txLine = (s.chan c).txLine ++ s.mem.bytes a.toNat b.toNat ∧ (t.chan c).txq = [] ∧
      (t.chan c).tx = { ptr := 0, len := b, idx := b } ∧
      (t.chan c).flags.txLock = false ∧ (t.chan c).flags.txBusy = false ∧ t.active = []
end

