-- ==== Sys2Proof/Laws/Memory.lean ====
section
/-! SUPPORT. The laws of buffer memory: every operation keeps the canonical form; a read after a write; writes elsewhere. -/

namespace Sys2Proof.Machine

/-- Reading past a cell put before a memory. -/
theorem Memory.read_cons_ne (m : Memory) (a x : Nat) (b : Byte) (h : x ≠ a) :
    Memory.read (Memory.cons a b m) x = m.read x := by
  unfold Memory.cons
  split
  · rfl
  · simp [Memory.read, Ne.symm h]

/-- A write leaves every other byte as it was, whatever the list of cells. -/
theorem Memory.read_write_ne (m : Memory) (a x : Nat) (b : Byte) (h : x ≠ a) :
    (m.write a b).read x = m.read x := by
  induction m with
  | nil => simp [Memory.write, Memory.read_cons_ne _ _ _ _ h]
  | cons kv m ih =>
    obtain ⟨k, v⟩ := kv
    simp only [Memory.write]
    split
    · rw [Memory.read_cons_ne _ _ _ _ h]
    · split
      · next hk => rw [Memory.read_cons_ne _ _ _ _ h]; simp [Memory.read, ← hk, Ne.symm h]
      · simp [Memory.read, ih]

/-- Below every listed address nothing is listed. -/
theorem Memory.read_below (m : Memory) (a : Nat) (h : ∀ x ∈ m, a < x.1) : m.read a = Memory.unlisted := by
  induction m with
  | nil => rfl
  | cons kv m ih =>
    have hk : a < kv.1 := h kv (by simp)
    simp only [Memory.read]
    rw [if_neg (by omega)]
    exact ih fun x hx => h x (by simp [hx])

/-- A cell put before a memory that lists nothing at or below it reads back. -/
theorem Memory.read_cons_same (m : Memory) (a : Nat) (b : Byte) (h : ∀ x ∈ m, a < x.1) :
    Memory.read (Memory.cons a b m) a = b := by
  unfold Memory.cons
  split
  · next hb => rw [Memory.read_below m a h, hb]
  · simp [Memory.read]

/-- A byte written reads back. -/
theorem Memory.read_write_same (m : Memory) (a : Nat) (b : Byte) (hm : Memory.wf m) : (m.write a b).read a = b := by
  obtain ⟨hs, hv⟩ := hm
  induction m with
  | nil => exact Memory.read_cons_same [] a b (by simp)
  | cons kv m ih =>
    obtain ⟨k, v⟩ := kv
    rw [List.pairwise_cons] at hs
    simp only [Memory.write]
    split
    · next hk =>
      refine Memory.read_cons_same _ a b fun x hx => ?_
      rcases List.mem_cons.1 hx with rfl | hx
      · exact hk
      · exact Nat.lt_trans hk (hs.1 x hx)
    · split
      · next hk => exact Memory.read_cons_same m a b fun x hx => hk ▸ hs.1 x hx
      · next h1 h2 =>
        simp only [Memory.read]
        rw [if_neg (by omega)]
        exact ih hs.2 fun x hx => hv x (by simp [hx])

/-- Where a cell of a written memory comes from. -/
theorem Memory.mem_write (m : Memory) (a : Nat) (b : Byte) (x : Host.Cell) (h : x ∈ m.write a b) :
    x ∈ m ∨ (x = (a, b) ∧ b ≠ Memory.unlisted) := by
  have hc : ∀ m' : Memory, x ∈ Memory.cons a b m' → x ∈ m' ∨ (x = (a, b) ∧ b ≠ Memory.unlisted) := by
    intro m' hx
    unfold Memory.cons at hx
    split at hx
    · exact .inl hx
    · next hb => rcases List.mem_cons.1 hx with rfl | hx
                 · exact .inr ⟨rfl, hb⟩
                 · exact .inl hx
  induction m with
  | nil => exact hc [] h
  | cons kv m ih =>
    obtain ⟨k, v⟩ := kv
    simp only [Memory.write] at h
    split at h
    · exact hc _ h
    · split at h
      · rcases hc _ h with h | h
        · exact .inl (by simp [h])
        · exact .inr h
      · rcases List.mem_cons.1 h with rfl | h
        · exact .inl (by simp)
        · rcases ih h with h | h
          · exact .inl (by simp [h])
          · exact .inr h

/-- A write below the top keeps the canonical form. -/
theorem Memory.wf_write (m : Memory) (a : Nat) (b : Byte) (ha : a < Memory.top) (hm : Memory.wf m) :
    Memory.wf (m.write a b) := by
  refine ⟨?_, fun x hx => ?_⟩
  · obtain ⟨hs, -⟩ := hm
    have hc : ∀ m' : Memory, m'.Pairwise (fun x y => x.1 < y.1) → (∀ x ∈ m', a < x.1) →
        (Memory.cons a b m').Pairwise (fun x y => x.1 < y.1) := by
      intro m' hp hl
      unfold Memory.cons
      split
      · exact hp
      · exact List.pairwise_cons.2 ⟨hl, hp⟩
    induction m with
    | nil => exact hc [] List.Pairwise.nil (by simp)
    | cons kv m ih =>
      obtain ⟨k, v⟩ := kv
      have hs' := List.pairwise_cons.1 hs
      simp only [Memory.write]
      split
      · next hk =>
        refine hc _ hs fun x hx => ?_
        rcases List.mem_cons.1 hx with rfl | hx
        · exact hk
        · exact Nat.lt_trans hk (hs'.1 x hx)
      · split
        · next hk => exact hc m hs'.2 fun x hx => hk ▸ hs'.1 x hx
        · next h1 h2 =>
          refine List.pairwise_cons.2 ⟨fun x hx => ?_, ih hs'.2⟩
          rcases Memory.mem_write m a b x hx with hx | ⟨rfl, -⟩
          · exact hs'.1 x hx
          · change k < a; omega
  · rcases Memory.mem_write m a b x hx with hx | ⟨rfl, hb⟩
    · exact hm.2 x hx
    · exact ⟨ha, hb⟩

/-- What `memRead` can answer (R40). -/
theorem memRead_ok (m : Memory) (a : Nat) (u : Byte) (h : memRead m a = .ok u) : a < Memory.top ∧ u = m.read a := by
  unfold memRead at h
  split at h
  · next ha => exact ⟨ha, by cases h; rfl⟩
  · cases h

/-- What `memWrite` can answer (R40). -/
theorem memWrite_ok (m m' : Memory) (a : Nat) (b : Byte) (h : memWrite m a b = .ok m') :
    a < Memory.top ∧ m' = m.write a b := by
  unfold memWrite at h
  split at h
  · next ha => exact ⟨ha, by cases h; rfl⟩
  · cases h

end Sys2Proof.Machine
end

