-- ==== Sys2Proof/Laws/State.lean ====
section
/-! SUPPORT. One lemma per field per update of State and Chan. -/

namespace Sys2Proof.Machine

/-! `modChan` changes `chans` alone. -/

@[simp] theorem State.par_modChan (s : State) (c : Nat) (f : Chan → Chan) : (s.modChan c f).par = s.par := rfl
@[simp] theorem State.active_modChan (s : State) (c : Nat) (f : Chan → Chan) : (s.modChan c f).active = s.active := rfl
@[simp] theorem State.mem_modChan (s : State) (c : Nat) (f : Chan → Chan) : (s.modChan c f).mem = s.mem := rfl
@[simp] theorem State.cbLog_modChan (s : State) (c : Nat) (f : Chan → Chan) : (s.modChan c f).cbLog = s.cbLog := rfl
@[simp] theorem State.statusLog_modChan (s : State) (c : Nat) (f : Chan → Chan) :
    (s.modChan c f).statusLog = s.statusLog := rfl
@[simp] theorem State.sched_modChan (s : State) (c : Nat) (f : Chan → Chan) : (s.modChan c f).sched = s.sched := rfl
@[simp] theorem State.consumer_modChan (s : State) (c : Nat) (f : Chan → Chan) :
    (s.modChan c f).consumer = s.consumer := rfl
@[simp] theorem State.draws_modChan (s : State) (c : Nat) (f : Chan → Chan) : (s.modChan c f).draws = s.draws := rfl
@[simp] theorem State.nch_modChan (s : State) (c : Nat) (f : Chan → Chan) : (s.modChan c f).nch = s.nch := by
  simp [State.modChan, State.nch]

@[simp] theorem State.chan_modChan_same (s : State) (c : Nat) (f : Chan → Chan) (h : c < s.nch) :
    (s.modChan c f).chan c = f (s.chan c) := by
  have h' : c < s.chans.length := h
  simp [State.modChan, State.chan, List.getD_eq_getElem?_getD, h']

@[simp] theorem State.chan_modChan_ne (s : State) (c d : Nat) (f : Chan → Chan) (h : d ≠ c) :
    (s.modChan c f).chan d = s.chan d := by
  simp [State.modChan, State.chan, List.getD_eq_getElem?_getD, Ne.symm h]

/-- A channel read after an update of any channel. -/
theorem State.chan_modChan (s : State) (c d : Nat) (f : Chan → Chan) (h : c < s.nch) :
    (s.modChan c f).chan d = if d = c then f (s.chan c) else s.chan d := by
  by_cases hd : d = c
  · subst hd; simp [h]
  · simp [hd]

/-- Two updates of one channel are one update. -/
theorem State.modChan_modChan (s : State) (c : Nat) (f g : Chan → Chan) :
    (s.modChan c f).modChan c g = s.modChan c fun ch => g (f ch) := by
  simp only [State.modChan, State.mk.injEq, true_and, and_true]
  apply List.ext_getElem? ; intro i
  simp only [List.getElem?_modify]
  by_cases h : c = i <;> simp [h, Function.comp_def]

/-- An update that changes nothing. -/
theorem State.modChan_id (s : State) (c : Nat) : s.modChan c id = s := by
  have h : s.chans.modify c id = s.chans := by
    apply List.ext_getElem? ; intro i
    simp
  simp [State.modChan, h]

/-! The other updates of State. -/

@[simp] theorem State.chan_drawn (s : State) (c : Nat) : s.drawn.chan c = s.chan c := rfl
@[simp] theorem State.par_drawn (s : State) : s.drawn.par = s.par := rfl
@[simp] theorem State.nch_drawn (s : State) : s.drawn.nch = s.nch := by simp only [State.nch, State.drawn]
@[simp] theorem State.active_drawn (s : State) : s.drawn.active = s.active := rfl
@[simp] theorem State.mem_drawn (s : State) : s.drawn.mem = s.mem := rfl
@[simp] theorem State.cbLog_drawn (s : State) : s.drawn.cbLog = s.cbLog := rfl
@[simp] theorem State.statusLog_drawn (s : State) : s.drawn.statusLog = s.statusLog := rfl
@[simp] theorem State.sched_drawn (s : State) : s.drawn.sched = s.sched := rfl
@[simp] theorem State.consumer_drawn (s : State) : s.drawn.consumer = s.consumer := rfl
@[simp] theorem State.draws_drawn (s : State) : s.drawn.draws = s.draws + 1 := rfl

@[simp] theorem State.chan_reply (s : State) (x : Ctx) (st : Status) (c : Nat) : (s.reply x st).chan c = s.chan c := rfl
@[simp] theorem State.par_reply (s : State) (x : Ctx) (st : Status) : (s.reply x st).par = s.par := rfl
@[simp] theorem State.nch_reply (s : State) (x : Ctx) (st : Status) : (s.reply x st).nch = s.nch := by simp only [State.nch, State.reply]
@[simp] theorem State.active_reply (s : State) (x : Ctx) (st : Status) : (s.reply x st).active = s.active := rfl
@[simp] theorem State.mem_reply (s : State) (x : Ctx) (st : Status) : (s.reply x st).mem = s.mem := rfl
@[simp] theorem State.cbLog_reply (s : State) (x : Ctx) (st : Status) : (s.reply x st).cbLog = s.cbLog := rfl
@[simp] theorem State.statusLog_reply (s : State) (x : Ctx) (st : Status) :
    (s.reply x st).statusLog = s.statusLog ++ [{ ctx := x, status := st }] := rfl
@[simp] theorem State.sched_reply (s : State) (x : Ctx) (st : Status) : (s.reply x st).sched = s.sched := rfl
@[simp] theorem State.consumer_reply (s : State) (x : Ctx) (st : Status) : (s.reply x st).consumer = s.consumer := rfl
@[simp] theorem State.draws_reply (s : State) (x : Ctx) (st : Status) : (s.reply x st).draws = s.draws := rfl

@[simp] theorem State.chan_notify (s : State) (r : CbRec) (c : Nat) : (s.notify r).chan c = s.chan c := rfl
@[simp] theorem State.par_notify (s : State) (r : CbRec) : (s.notify r).par = s.par := rfl
@[simp] theorem State.nch_notify (s : State) (r : CbRec) : (s.notify r).nch = s.nch := by simp only [State.nch, State.notify]
@[simp] theorem State.active_notify (s : State) (r : CbRec) : (s.notify r).active = s.active := rfl
@[simp] theorem State.mem_notify (s : State) (r : CbRec) : (s.notify r).mem = s.mem := rfl
@[simp] theorem State.cbLog_notify (s : State) (r : CbRec) : (s.notify r).cbLog = s.cbLog ++ [r] := rfl
@[simp] theorem State.statusLog_notify (s : State) (r : CbRec) : (s.notify r).statusLog = s.statusLog := rfl
@[simp] theorem State.sched_notify (s : State) (r : CbRec) : (s.notify r).sched = s.sched := rfl
@[simp] theorem State.consumer_notify (s : State) (r : CbRec) : (s.notify r).consumer = s.consumer.tail := rfl
@[simp] theorem State.draws_notify (s : State) (r : CbRec) : (s.notify r).draws = s.draws := rfl

@[simp] theorem State.chan_leave (s : State) (c : Nat) : s.leave.chan c = s.chan c := rfl
@[simp] theorem State.par_leave (s : State) : s.leave.par = s.par := rfl
@[simp] theorem State.nch_leave (s : State) : s.leave.nch = s.nch := by simp only [State.nch, State.leave]
@[simp] theorem State.active_leave (s : State) : s.leave.active = s.active.tail := rfl
@[simp] theorem State.mem_leave (s : State) : s.leave.mem = s.mem := rfl
@[simp] theorem State.cbLog_leave (s : State) : s.leave.cbLog = s.cbLog := rfl
@[simp] theorem State.statusLog_leave (s : State) : s.leave.statusLog = s.statusLog := rfl
@[simp] theorem State.sched_leave (s : State) : s.leave.sched = s.sched := rfl
@[simp] theorem State.consumer_leave (s : State) : s.leave.consumer = s.consumer := rfl
@[simp] theorem State.draws_leave (s : State) : s.leave.draws = s.draws := rfl

@[simp] theorem State.par_enter (s : State) (c : Nat) (k : Vec) : (s.enter c k).par = s.par := rfl
@[simp] theorem State.nch_enter (s : State) (c : Nat) (k : Vec) : (s.enter c k).nch = s.nch := State.nch_modChan ..
@[simp] theorem State.active_enter (s : State) (c : Nat) (k : Vec) : (s.enter c k).active = (c, k) :: s.active := rfl
@[simp] theorem State.mem_enter (s : State) (c : Nat) (k : Vec) : (s.enter c k).mem = s.mem := rfl
@[simp] theorem State.cbLog_enter (s : State) (c : Nat) (k : Vec) : (s.enter c k).cbLog = s.cbLog := rfl
@[simp] theorem State.statusLog_enter (s : State) (c : Nat) (k : Vec) : (s.enter c k).statusLog = s.statusLog := rfl
@[simp] theorem State.sched_enter (s : State) (c : Nat) (k : Vec) : (s.enter c k).sched = s.sched := rfl
@[simp] theorem State.consumer_enter (s : State) (c : Nat) (k : Vec) : (s.enter c k).consumer = s.consumer := rfl
@[simp] theorem State.draws_enter (s : State) (c : Nat) (k : Vec) : (s.enter c k).draws = s.draws := rfl
@[simp] theorem State.chan_enter_same (s : State) (c : Nat) (k : Vec) (h : c < s.nch) :
    (s.enter c k).chan c = (s.chan c).unpend k := State.chan_modChan_same s c _ h
@[simp] theorem State.chan_enter_ne (s : State) (c d : Nat) (k : Vec) (h : d ≠ c) :
    (s.enter c k).chan d = s.chan d := State.chan_modChan_ne s c d _ h

@[simp] theorem State.par_withMem (s : State) (m : Memory) : (s.withMem m).par = s.par := rfl
@[simp] theorem State.active_withMem (s : State) (m : Memory) : (s.withMem m).active = s.active := rfl
@[simp] theorem State.cbLog_withMem (s : State) (m : Memory) : (s.withMem m).cbLog = s.cbLog := rfl
@[simp] theorem State.statusLog_withMem (s : State) (m : Memory) : (s.withMem m).statusLog = s.statusLog := rfl
@[simp] theorem State.sched_withMem (s : State) (m : Memory) : (s.withMem m).sched = s.sched := rfl
@[simp] theorem State.consumer_withMem (s : State) (m : Memory) : (s.withMem m).consumer = s.consumer := rfl
@[simp] theorem State.draws_withMem (s : State) (m : Memory) : (s.withMem m).draws = s.draws := rfl
@[simp] theorem State.mem_withMem (s : State) (m : Memory) : (s.withMem m).mem = m := rfl
@[simp] theorem State.chan_withMem (s : State) (m : Memory) (c : Nat) : (s.withMem m).chan c = s.chan c := rfl
@[simp] theorem State.nch_withMem (s : State) (m : Memory) : (s.withMem m).nch = s.nch := by simp only [State.nch, State.withMem]

@[simp] theorem State.chan_afterFetch (s : State) (c : Nat) : s.afterFetch.chan c = s.chan c := rfl
@[simp] theorem State.par_afterFetch (s : State) : s.afterFetch.par = s.par := rfl
@[simp] theorem State.nch_afterFetch (s : State) : s.afterFetch.nch = s.nch := by simp only [State.nch, State.afterFetch]
@[simp] theorem State.active_afterFetch (s : State) : s.afterFetch.active = s.active := rfl
@[simp] theorem State.mem_afterFetch (s : State) : s.afterFetch.mem = s.mem := rfl
@[simp] theorem State.cbLog_afterFetch (s : State) : s.afterFetch.cbLog = s.cbLog := rfl
@[simp] theorem State.statusLog_afterFetch (s : State) : s.afterFetch.statusLog = s.statusLog := rfl
@[simp] theorem State.sched_afterFetch (s : State) : s.afterFetch.sched = s.sched.tail := rfl
@[simp] theorem State.consumer_afterFetch (s : State) : s.afterFetch.consumer = s.consumer := rfl
@[simp] theorem State.draws_afterFetch (s : State) : s.afterFetch.draws = s.draws := rfl

@[simp] theorem State.chan_hostStore (s : State) (a : Word) (b : Byte) (c : Nat) : (s.hostStore a b).chan c = s.chan c := rfl
@[simp] theorem State.par_hostStore (s : State) (a : Word) (b : Byte) : (s.hostStore a b).par = s.par := rfl
@[simp] theorem State.nch_hostStore (s : State) (a : Word) (b : Byte) : (s.hostStore a b).nch = s.nch := by simp only [State.nch, State.hostStore, State.withMem]
@[simp] theorem State.active_hostStore (s : State) (a : Word) (b : Byte) : (s.hostStore a b).active = s.active := rfl
@[simp] theorem State.mem_hostStore (s : State) (a : Word) (b : Byte) :
    (s.hostStore a b).mem = s.mem.write a.toNat b := rfl

/-! Reset. -/

@[simp] theorem State.nch_resetWith (p : Params) (ps : List ChanParams) : (State.resetWith p ps).nch = ps.length := by
  simp [State.resetWith, State.nch]

/-- A channel of the reset state is a channel at reset, with its own parameters. -/
theorem State.chan_resetWith (p : Params) (ps : List ChanParams) (c : Nat) (h : c < ps.length) :
    (State.resetWith p ps).chan c = Chan.reset ps[c] := by
  simp [State.resetWith, State.chan, List.getD_eq_getElem?_getD, h]

/-! Vector registers. -/

@[simp] theorem Chan.vec_modVec (ch : Chan) (k j : Vec) (f : VecRegs → VecRegs) :
    (ch.modVec k f).vec j = if j = k then f (ch.vec k) else ch.vec j := by
  cases k <;> cases j <;> rfl

@[simp] theorem Chan.par_modVec (ch : Chan) (k : Vec) (f : VecRegs → VecRegs) : (ch.modVec k f).par = ch.par := by
  cases k <;> rfl
@[simp] theorem Chan.flags_modVec (ch : Chan) (k : Vec) (f : VecRegs → VecRegs) : (ch.modVec k f).flags = ch.flags := by
  cases k <;> rfl
@[simp] theorem Chan.tx_modVec (ch : Chan) (k : Vec) (f : VecRegs → VecRegs) : (ch.modVec k f).tx = ch.tx := by
  cases k <;> rfl
@[simp] theorem Chan.rx_modVec (ch : Chan) (k : Vec) (f : VecRegs → VecRegs) : (ch.modVec k f).rx = ch.rx := by
  cases k <;> rfl
@[simp] theorem Chan.baud_modVec (ch : Chan) (k : Vec) (f : VecRegs → VecRegs) : (ch.modVec k f).baud = ch.baud := by
  cases k <;> rfl
@[simp] theorem Chan.run_modVec (ch : Chan) (k : Vec) (f : VecRegs → VecRegs) : (ch.modVec k f).run = ch.run := by
  cases k <;> rfl
@[simp] theorem Chan.txq_modVec (ch : Chan) (k : Vec) (f : VecRegs → VecRegs) : (ch.modVec k f).txq = ch.txq := by
  cases k <;> rfl
@[simp] theorem Chan.rxq_modVec (ch : Chan) (k : Vec) (f : VecRegs → VecRegs) : (ch.modVec k f).rxq = ch.rxq := by
  cases k <;> rfl
@[simp] theorem Chan.txLimit_modVec (ch : Chan) (k : Vec) (f : VecRegs → VecRegs) :
    (ch.modVec k f).txLimit = ch.txLimit := by
  cases k <;> rfl
@[simp] theorem Chan.rxLim_modVec (ch : Chan) (k : Vec) (f : VecRegs → VecRegs) : (ch.modVec k f).rxLim = ch.rxLim := by
  cases k <;> rfl
@[simp] theorem Chan.even_modVec (ch : Chan) (k : Vec) (f : VecRegs → VecRegs) : (ch.modVec k f).even = ch.even := by
  cases k <;> rfl
@[simp] theorem Chan.pstat_modVec (ch : Chan) (k : Vec) (f : VecRegs → VecRegs) : (ch.modVec k f).pstat = ch.pstat := by
  cases k <;> rfl
@[simp] theorem Chan.txWait_modVec (ch : Chan) (k : Vec) (f : VecRegs → VecRegs) : (ch.modVec k f).txWait = ch.txWait := by
  cases k <;> rfl
@[simp] theorem Chan.txLine_modVec (ch : Chan) (k : Vec) (f : VecRegs → VecRegs) : (ch.modVec k f).txLine = ch.txLine := by
  cases k <;> rfl

end Sys2Proof.Machine
end

