-- ==== Sys2Proof/Laws/Ops.lean ====
section
/-! SUPPORT. What each shared operation can do, said once. -/

namespace Sys2Proof.Machine

/-- A sequence answers a next state exactly through a next state of its first part. -/
theorem andThen_next (o : Result) (f : State → Result) (t : State) :
    andThen o f = .next t ↔ ∃ s, o = .next s ∧ f s = .next t := by
  cases o <;> simp [andThen]

/-- A dispatched handler runs from the entered state; nothing else happens (R173, R175). -/
theorem dispatchVector_next (c : Nat) (k : Vec) (body : State → Result) (s t : State)
    (h : dispatchVector c k body s = .next t) : c < s.nch ∧ s.dispatchable c k = true ∧ body (s.enter c k) = .next t := by
  unfold dispatchVector at h
  split at h
  · cases h
  · next hc => split at h
               · next hd => exact ⟨by omega, hd, h⟩
               · cases h

/-- A dispatchable vector's handler runs (R173). -/
theorem dispatchVector_eq (c : Nat) (k : Vec) (body : State → Result) (s : State) (hc : c < s.nch)
    (hd : s.dispatchable c k = true) : dispatchVector c k body s = body (s.enter c k) := by
  simp [dispatchVector, hd, Nat.not_le.2 hc]

/-- A host command that is carried out: its effect, then its status (R178). -/
theorem hostCommand_next (c : Nat) (f : State → State × Status) (s t : State) (h : hostCommand c f s = .next t) :
    c < s.nch ∧ s.hostEnabled = true ∧ t = (f s).1.reply .mainLine (f s).2 := by
  unfold hostCommand at h
  split at h
  · cases h
  · next hc => split at h
               · next he => exact ⟨by omega, he, by cases h; rfl⟩
               · cases h

/-- An enabled host command is carried out. -/
theorem hostCommand_eq (c : Nat) (f : State → State × Status) (s : State) (hc : c < s.nch) (he : s.hostEnabled = true) :
    hostCommand c f s = .next ((f s).1.reply .mainLine (f s).2) := by
  simp [hostCommand, he, Nat.not_le.2 hc]

/-- An environment step that happens. -/
theorem environmentStep_next (c : Nat) (en : State → Bool) (why : Refusal) (f : State → State) (s t : State)
    (h : environmentStep c en why f s = .next t) : c < s.nch ∧ en s = true ∧ t = f s := by
  unfold environmentStep at h
  split at h
  · cases h
  · next hc => split at h
               · next he => exact ⟨by omega, he, by cases h; rfl⟩
               · cases h

/-- An enabled environment step happens. -/
theorem environmentStep_eq (c : Nat) (en : State → Bool) (why : Refusal) (f : State → State) (s : State) (hc : c < s.nch)
    (he : en s = true) : environmentStep c en why f s = .next (f s) := by
  simp [environmentStep, he, Nat.not_le.2 hc]

/-- A nested command that is carried out: a decoded command, not on a suspended transmit direction (R181, U6). -/
theorem nestedCommand_next (w : BitVec 80) (s t : State) (h : nestedCommand w s = .next t) :
    ∃ i r, decodeCmd s.nch w = .ok i ∧ (targetsTransmit i && (s.chan i.ch).txWait) = false ∧
      commandEffect i s = some r ∧ t = r.1.reply .interrupt r.2 := by
  unfold nestedCommand at h
  split at h
  · cases h
  · next i hi =>
    split at h
    · cases h
    · next hw =>
      split at h
      · next r hr => exact ⟨i, r, hi, by simpa using hw, hr, by cases h; rfl⟩
      · cases h

/-- A consumer that issues nothing leaves the record and its turn taken (R180). -/
theorem callback_silent (r : CbRec) (s : State) (h : s.consumer.headD [] = []) : callback r s = .next (s.notify r) := by
  rw [callback, h, nestedCommands]

/-- What a push can answer (R102). -/
theorem txPush_ok (ch ch' : Chan) (u : Byte) (h : ch.txPush u = .ok ch') :
    ch.txFull = false ∧ ch' = { ch with txq := ch.txq ++ [u] } := by
  unfold Chan.txPush at h
  split at h
  · cases h
  · next hf => exact ⟨by simpa using hf, by cases h; rfl⟩

/-- What one round of the fill can answer: the unit at the effective address is queued and the index advances (R131, R132). -/
theorem fillOne_ok (m : Memory) (ch ch' : Chan) (h : ch.fillOne m = .ok ch') :
    ch.tx.address < Memory.top ∧ ch.txFull = false ∧
      ch' = { ch with txq := ch.txq ++ [m.read ch.tx.address], tx := ch.tx.advance } := by
  unfold Chan.fillOne at h
  split at h
  · cases h
  · next u hu =>
    split at h
    · cases h
    · next c1 hp =>
      obtain ⟨ha, rfl⟩ := memRead_ok _ _ _ hu
      obtain ⟨hf, rfl⟩ := txPush_ok _ _ _ hp
      exact ⟨ha, hf, by cases h; rfl⟩

/-- The fill writes TXQ and TXIDX alone (R131, R132). -/
theorem fillFifo_frame (m : Memory) (n : Nat) (ch ch' : Chan) (h : ch.fillFifo m n = .ok ch') :
    ∃ q i, ch' = { ch with txq := q, tx := { ch.tx with idx := i } } := by
  induction n generalizing ch with
  | zero => cases h; exact ⟨ch'.txq, ch'.tx.idx, rfl⟩
  | succ n ih =>
    simp only [Chan.fillFifo] at h
    split at h
    · split at h
      · cases h
      · next c1 hc =>
        obtain ⟨-, -, rfl⟩ := fillOne_ok _ _ _ hc
        obtain ⟨q, i, rfl⟩ := ih _ h
        exact ⟨q, i, rfl⟩
    · cases h; exact ⟨ch'.txq, ch'.tx.idx, rfl⟩

/-- The drain writes only the index of the control block (R144). -/
theorem drain_frame (q q' : List Byte) (t t' : Tcb) (m m' : Memory) (h : drain q t m = .ok (q', t', m')) :
    t'.ptr = t.ptr ∧ t'.len = t.len := by
  induction q generalizing t m with
  | nil => cases h; exact ⟨rfl, rfl⟩
  | cons u q ih =>
    simp only [drain] at h
    split at h
    · split at h
      · cases h
      · exact ih t.advance _ h
    · cases h; exact ⟨rfl, rfl⟩

/-- The drain keeps the canonical form of memory. -/
theorem drain_wf (q q' : List Byte) (t t' : Tcb) (m m' : Memory) (h : drain q t m = .ok (q', t', m')) (hm : Memory.wf m) :
    Memory.wf m' := by
  induction q generalizing t m with
  | nil => cases h; exact hm
  | cons u q ih =>
    simp only [drain] at h
    split at h
    · split at h
      · cases h
      · next m1 hw =>
        obtain ⟨ha, rfl⟩ := memWrite_ok _ _ _ _ hw
        exact ih _ _ h (Memory.wf_write m _ u ha hm)
    · cases h; exact hm

/-- A receive pop touches RXQ of its channel and the draws alone (R103). -/
theorem rxPop_chan_ne (s : State) (c d : Nat) (h : d ≠ c) : (s.rxPop c).2.chan d = s.chan d := by
  unfold State.rxPop
  split <;> simp [h]

/-- The number of channels is no register: popping keeps it. -/
@[simp] theorem nch_rxPop (s : State) (c : Nat) : (s.rxPop c).2.nch = s.nch := by
  unfold State.rxPop
  split <;> simp

/-- Memory is no part of a pop (R103). -/
@[simp] theorem mem_rxPop (s : State) (c : Nat) : (s.rxPop c).2.mem = s.mem := by
  unfold State.rxPop
  split <;> simp

/-- The forced idle touches one channel (R116). -/
theorem txForceIdle_chan_ne (s : State) (c d : Nat) (h : d ≠ c) : (s.txForceIdle c).chan d = s.chan d := by
  unfold State.txForceIdle
  split <;> simp [h]

/-- An arrival touches one channel (R118). -/
theorem arrive_chan_ne (s : State) (c d : Nat) (u : Byte) (alt : Bool) (h : d ≠ c) :
    (s.arrive c u alt).chan d = s.chan d := by
  unfold State.arrive
  split
  · simp [h]
  · split <;> simp [h]

end Sys2Proof.Machine
end

