-- ==== Sys2Proof/Laws/Channel.lean ====
section
/-! SUPPORT. What the channel operations come to, in the terms of Safety.lean, and what the fill and the drain do whole. -/

namespace Sys2Proof.Machine

/-! Vectors: dispatch clears the pending bit (R175), an event that holds sets it (R171). -/

@[simp] theorem Chan.unpend_tx (ch : Chan) : ch.unpend .tx = { ch with vTx := ch.vTx.served } := rfl
@[simp] theorem Chan.unpend_rx (ch : Chan) : ch.unpend .rx = { ch with vRx := ch.vRx.served } := rfl
@[simp] theorem Chan.unpend_pr (ch : Chan) : ch.unpend .pr = { ch with vPr := ch.vPr.served } := rfl

@[simp] theorem Chan.pendIf_tx (ch : Chan) (b : Bool) : ch.pendIf .tx b = { ch with vTx := ch.vTx.raised b } := by
  cases b <;> simp [Chan.pendIf, Chan.pend, Chan.modVec, VecRegs.raised]
@[simp] theorem Chan.pendIf_rx (ch : Chan) (b : Bool) : ch.pendIf .rx b = { ch with vRx := ch.vRx.raised b } := by
  cases b <;> simp [Chan.pendIf, Chan.pend, Chan.modVec, VecRegs.raised]
@[simp] theorem Chan.pendIf_pr (ch : Chan) (b : Bool) : ch.pendIf .pr b = { ch with vPr := ch.vPr.raised b } := by
  cases b <;> simp [Chan.pendIf, Chan.pend, Chan.modVec, VecRegs.raised]

/-! Event enables: the masks of R26 read single bits of EVEN. -/

theorem and_twoPow_ne_zero (e : EventMask) (n : Nat) (h : n < 16) : (e &&& BitVec.twoPow 16 n != 0) = e.getLsbD n := by
  rw [Bool.eq_iff_iff]
  simp only [bne_iff_ne, ne_eq]
  rw [BitVec.and_twoPow]
  cases he : e.getLsbD n <;> simp
  intro h2
  have := congrArg (fun x => x.getLsbD n) h2
  simp [h] at this

theorem Chan.evEnabled_tbe (ch : Chan) : ch.evEnabled evTbe = ch.even.getLsbD 0 := and_twoPow_ne_zero _ 0 (by decide)
theorem Chan.evEnabled_txfStd (ch : Chan) : ch.evEnabled evTxfStd = ch.even.getLsbD 1 := and_twoPow_ne_zero _ 1 (by decide)
theorem Chan.evEnabled_rxe (ch : Chan) : ch.evEnabled evRxe = ch.even.getLsbD 2 := and_twoPow_ne_zero _ 2 (by decide)
theorem Chan.evEnabled_rxfStd (ch : Chan) : ch.evEnabled evRxfStd = ch.even.getLsbD 3 := and_twoPow_ne_zero _ 3 (by decide)
theorem Chan.evEnabled_rxfAlt (ch : Chan) : ch.evEnabled evRxfAlt = ch.even.getLsbD 4 := and_twoPow_ne_zero _ 4 (by decide)

/-- A receiver takes a unit exactly where there is room (R118, R120). -/
theorem Chan.takesUnit_iff (ch : Chan) : ch.takesUnit = true ↔ HasRoom ch := by
  by_cases hz : ch.par.rxCap = 0 <;>
    simp [Chan.takesUnit, HasRoom, Chan.rxFifo, hz, Chan.rxFull, Chan.rxLevel, Chan.rxDepth]

/-! Dispatch. -/

/-- The machine's vectors are those of its channels (R28). -/
theorem State.mem_allVecs (s : State) (d : Nat) (j : Vec) : (d, j) ∈ s.allVecs ↔ d < s.nch := by
  simp only [State.allVecs, List.mem_flatMap, List.mem_range]
  constructor
  · rintro ⟨a, ha, h⟩
    simp at h
    rcases h with ⟨rfl, _⟩ | ⟨rfl, _⟩ | ⟨rfl, _⟩ <;> exact ha
  · intro h
    exact ⟨d, h, by cases j <;> simp⟩

/-- No vector is dispatchable, vector by vector (R178). -/
theorem State.anyDispatchable_eq_false (s : State) :
    s.anyDispatchable = false ↔ ∀ c < s.nch, ∀ k, s.dispatchable c k = false := by
  simp only [State.anyDispatchable, List.any_eq_false]
  constructor
  · intro h c hc k
    simpa using h (c, k) ((State.mem_allVecs ..).2 hc)
  · rintro h ⟨c, k⟩ hm
    simpa using h c ((State.mem_allVecs ..).1 hm) k

/-! Interrupt numbers (R5, R170). -/

/-- The machine's interrupt numbers are those of its parameters. -/
theorem State.irqNumbers_eq (s : State) : s.irqNumbers = Config.irqNumbers (s.chans.map Chan.par) := by
  have hr : s.chans = (List.range s.nch).map s.chan := by
    apply List.ext_getElem
    · simp [State.nch]
    · intro c h _
      simp [State.chan, h]
  conv_rhs => rw [hr]
  simp only [State.irqNumbers, State.allVecs, Config.irqNumbers, List.map_flatMap, List.flatMap_map]
  rfl

/-- Machines with the same parameters have the same interrupt numbers. -/
theorem State.irqNumbers_congr {s t : State} (hn : t.nch = s.nch) (hp : ∀ c < s.nch, (t.chan c).par = (s.chan c).par) :
    t.irqNumbers = s.irqNumbers := by
  simp only [State.irqNumbers, State.allVecs, hn]
  apply List.map_congr_left
  rintro ⟨c, k⟩ hm
  have hc : c < s.nch := (State.mem_allVecs s c k).1 hm
  cases k <;> simp [Chan.irqNumber, hp c hc]

/-- At reset they are those the parameters give. -/
theorem State.irqNumbers_resetWith (p : Params) (ps : List ChanParams) :
    (State.resetWith p ps).irqNumbers = Config.irqNumbers ps := by
  have hp : (State.resetWith p ps).chans.map Chan.par = ps := by
    simp [State.resetWith, Function.comp_def, Chan.reset]
  rw [State.irqNumbers_eq, hp]

/-! Moving units. -/

/-- The index after one unit of a request that is not finished: no wrap (R131, R144 (d)). -/
theorem Tcb.advance_idx (t : Tcb) (h : t.idx.toNat < t.len.toNat) : t.advance.idx.toNat = t.idx.toNat + 1 := by
  have := t.len.isLt
  simp [Tcb.advance, BitVec.toNat_add]
  omega

theorem Tcb.advance_remaining (t : Tcb) (h : t.idx.toNat < t.len.toNat) : t.remaining = t.advance.remaining + 1 := by
  have h6 := t.advance_idx h
  simp only [Tcb.remaining, h6]
  simp only [Tcb.advance]
  omega

theorem Tcb.advance_address (t : Tcb) (h : t.idx.toNat < t.len.toNat) : t.advance.address = t.address + 1 := by
  have h6 := t.advance_idx h
  simp only [Tcb.address, h6]
  simp only [Tcb.advance]
  omega

/-- One step of the index, then `n` more. -/
theorem Tcb.advance_add (t : Tcb) (n : Nat) : t.advance.idx + BitVec.ofNat 32 n = t.idx + BitVec.ofNat 32 (n + 1) := by
  simp only [Tcb.advance]
  rw [BitVec.add_assoc]
  congr 1
  apply BitVec.eq_of_toNat_eq
  simp [BitVec.toNat_add, BitVec.toNat_ofNat]
  omega

/-- Whenever the drain ends (R144): it took units from the head of the queue, in order, each to the next address, and changed
no other byte. -/
theorem drain_units (q q' : List Byte) (t t' : Tcb) (m m' : Memory) (hm : Memory.wf m)
    (h : drain q t m = .ok (q', t', m')) :
    ∃ taken, taken ++ q' = q ∧ (∀ k (hk : k < taken.length), m'.read (t.address + k) = taken[k]) ∧
      ∀ x, (x < t.address ∨ t.address + taken.length ≤ x) → m'.read x = m.read x := by
  induction q generalizing t m with
  | nil => cases h; exact ⟨[], rfl, by simp, fun _ _ => rfl⟩
  | cons u q ih =>
    simp only [drain] at h
    split at h
    · next hl =>
      split at h
      · cases h
      · next m1 hw =>
        obtain ⟨ha, rfl⟩ := memWrite_ok _ _ _ _ hw
        obtain ⟨taken, rfl, hr, hf⟩ := ih t.advance _ (Memory.wf_write m _ u ha hm) h
        rw [t.advance_address hl] at hr hf
        refine ⟨u :: taken, rfl, fun k hk => ?_, fun x hx => ?_⟩
        · cases k with
          | zero => rw [hf _ (by omega), Nat.add_zero, Memory.read_write_same m _ u hm]; rfl
          | succ k => rw [← Nat.add_assoc, Nat.add_right_comm]; exact hr k (by simpa using hk)
        · simp only [List.length_cons] at hx
          rw [hf x (by omega), Memory.read_write_ne m _ x u (by omega)]
    · cases h; exact ⟨[], rfl, by simp, fun _ _ => rfl⟩

/-- The drain whole (R144): as many units as are queued and wanted go to memory in order, and no other byte changes. -/
theorem drain_eq (q : List Byte) (t : Tcb) (m : Memory) (hm : Memory.wf m) (hf : t.ptr.toNat + t.len.toNat ≤ Memory.top)
    (hi : t.idx.toNat ≤ t.len.toNat) :
    ∃ m', drain q t m = .ok (q.drop t.remaining, { t with idx := t.idx + BitVec.ofNat 32 (min q.length t.remaining) }, m') ∧
      Memory.wf m' ∧ (∀ k (h : k < (q.take t.remaining).length), m'.read (t.address + k) = (q.take t.remaining)[k]) ∧
      ∀ x, (x < t.address ∨ t.address + (q.take t.remaining).length ≤ x) → m'.read x = m.read x := by
  induction q generalizing t m with
  | nil => exact ⟨m, by simp [drain], hm, by simp, by simp⟩
  | cons u q ih =>
    simp only [drain]
    by_cases hl : t.idx < t.len
    · have hl' : t.idx.toNat < t.len.toNat := hl
      have ha : t.address < Memory.top := by unfold Tcb.address; omega
      have h6 := t.advance_idx hl'
      have hr := t.advance_remaining hl'
      have haa := t.advance_address hl'
      have hp : t.advance.ptr = t.ptr := rfl
      have hlen : t.advance.len = t.len := rfl
      obtain ⟨m', h1, h2, h3, h4⟩ := ih t.advance (m.write t.address u) (Memory.wf_write _ _ _ ha hm)
        (by rw [hp, hlen]; exact hf) (by rw [h6, hlen]; omega)
      rw [haa] at h3 h4
      refine ⟨m', ?_, h2, ?_, ?_⟩
      · simp only [hl, if_true, memWrite, ha, h1, hr, List.drop_succ_cons, List.length_cons, Tcb.advance_add,
          Nat.succ_min_succ]
        rfl
      · intro k hk
        simp only [hr, List.take_succ_cons, List.length_cons] at hk ⊢
        cases k with
        | zero => simp; rw [h4 _ (by omega), Memory.read_write_same _ _ _ hm]
        | succ k =>
          have := h3 k (by omega)
          simp only [List.getElem_cons_succ]
          rw [← this]
          congr 1
          omega
      · intro x hx
        simp only [hr, List.take_succ_cons, List.length_cons] at hx
        rw [h4 x (by omega), Memory.read_write_ne _ _ _ _ (by omega)]
    · have hr : t.remaining = 0 := by
        have : ¬t.idx.toNat < t.len.toNat := hl
        simp [Tcb.remaining]
        omega
      exact ⟨m, by simp [hl, hr], hm, by simp [hr], by simp [hr]⟩

/-- The byte at an address, then `n` more. -/
theorem Memory.bytes_succ (m : Memory) (a n : Nat) : m.bytes a (n + 1) = m.read a :: m.bytes (a + 1) n := by
  simp only [Memory.bytes, List.range_succ_eq_map, List.map_cons, List.map_map, Nat.add_zero]
  congr 1
  apply List.map_congr_left
  intro k _
  simp only [Function.comp_def]
  congr 1
  omega

/-- Whenever the FIFO fill ends (R131): it appended bytes of the buffer, in order, and no unit left for the line. -/
theorem fillFifo_units (m : Memory) (n : Nat) (ch ch' : Chan) (h : ch.fillFifo m n = .ok ch') :
    ch'.txLine = ch.txLine ∧ ∃ k, ch'.txq = ch.txq ++ m.bytes ch.tx.address k := by
  induction n generalizing ch with
  | zero => cases h; exact ⟨rfl, 0, by simp [Memory.bytes]⟩
  | succ n ih =>
    simp only [Chan.fillFifo] at h
    split at h
    · next hc =>
      split at h
      · cases h
      · next c1 hc1 =>
        obtain ⟨-, -, rfl⟩ := fillOne_ok _ _ _ hc1
        obtain ⟨h1, k, h2⟩ := ih _ h
        have hl : ch.tx.idx < ch.tx.len := by simp only [Bool.and_eq_true, decide_eq_true_eq] at hc; exact hc.2
        refine ⟨h1, k + 1, ?_⟩
        rw [h2, Memory.bytes_succ, ← ch.tx.advance_address hl]
        simp
    · cases h; exact ⟨rfl, 0, by simp [Memory.bytes]⟩

/-- The FIFO fill whole (R131): as many units as fit and are still to be pushed are queued in order. -/
theorem fillFifo_eq (m : Memory) (n : Nat) (ch : Chan) (hfit : ch.tx.ptr.toNat + ch.tx.len.toNat ≤ Memory.top)
    (hd : ch.txDepth = ch.par.txCap) (hn : n = ch.tx.remaining) (hi : ch.tx.idx.toNat ≤ ch.tx.len.toNat)
    (hq : ch.txq.length ≤ ch.par.txCap) :
    ch.fillFifo m n = .ok { ch with
      txq := ch.txq ++ m.bytes ch.tx.address (min (ch.par.txCap - ch.txq.length) n)
      tx := { ch.tx with idx := ch.tx.idx + BitVec.ofNat 32 (min (ch.par.txCap - ch.txq.length) n) } } := by
  induction n generalizing ch with
  | zero => simp [Chan.fillFifo, Memory.bytes]
  | succ n ih =>
    simp only [Chan.fillFifo]
    have hl : ch.tx.idx.toNat < ch.tx.len.toNat := by simp only [Tcb.remaining] at hn; omega
    have hl' : ch.tx.idx < ch.tx.len := hl
    by_cases hf : ch.txq.length = ch.par.txCap
    · have : ch.txFull = true := by simp [Chan.txFull, Chan.txLevel, hd, hf]
      simp [this, hf, Memory.bytes]
    · have h3 : ch.txFull = false := by simp [Chan.txFull, Chan.txLevel, hd, hf]
      have h4 : ch.tx.address < Memory.top := by unfold Tcb.address; omega
      have h5 : ch.fillOne m = .ok { ch with txq := ch.txq ++ [m.read ch.tx.address], tx := ch.tx.advance } := by
        simp [Chan.fillOne, memRead, h4, Chan.txPush, h3]
      have h6 := ch.tx.advance_idx hl
      have hr := ch.tx.advance_remaining hl
      have haa := ch.tx.advance_address hl
      have h7 : min (ch.par.txCap - ch.txq.length) (n + 1) = min (ch.par.txCap - (ch.txq.length + 1)) n + 1 := by omega
      simp only [h3, hl', decide_true, Bool.not_false, Bool.true_and, if_true, h5]
      rw [ih { ch with txq := ch.txq ++ [m.read ch.tx.address], tx := ch.tx.advance } hfit hd
        (by show n = ch.tx.advance.remaining; omega)
        (by show ch.tx.advance.idx.toNat ≤ ch.tx.len.toNat; omega)
        (by show (ch.txq ++ [m.read ch.tx.address]).length ≤ ch.par.txCap; simp; omega)]
      simp only [List.length_append, List.length_singleton, h7, Memory.bytes_succ, haa, Tcb.advance_add, List.append_assoc,
        List.singleton_append]
      rfl

end Sys2Proof.Machine
end

