-- ==== Sys2Proof/Laws/Command.lean ====
section
/-! SUPPORT. What a command can do, whoever issues it, and what a callback can do: their frames and the two queues. -/

namespace Sys2Proof.Machine

/-- A request leaves the queue, or in FIFO mode discards it (R86). -/
theorem acceptRx_rxq (ch : Chan) (a b : Word) :
    (ch.acceptRx a b).rxq = ch.rxq ∨ (ch.acceptRx a b).rxq = [] ∧ ch.par.rxCap ≠ 0 := by
  unfold Chan.acceptRx
  by_cases h : ch.par.rxCap = 0
  · exact .inl (by simp [Chan.rxFifo, h, Chan.evEnable])
  · exact .inr ⟨by simp [Chan.rxFifo, h, Chan.evEnable, Chan.rxSetLimit, Chan.rxFlush], h⟩

/-- A request leaves the queue, or in FIFO mode discards it (R85). -/
theorem acceptTx_txq (ch : Chan) (a b : Word) :
    (ch.acceptTx a b).txq = ch.txq ∨ (ch.acceptTx a b).txq = [] ∧ ch.par.txCap ≠ 0 := by
  unfold Chan.acceptTx
  by_cases h : ch.par.txCap = 0
  · exact .inl (by simp [Chan.txFifo, h, Chan.evEnable, Chan.triggerServiceRequest, Chan.pend])
  · exact .inr ⟨by simp [Chan.txFifo, h, Chan.evEnable, Chan.triggerServiceRequest, Chan.pend, Chan.txFlush], h⟩

/-- A stop keeps all but RUN (R111). -/
theorem stop_some (ch ch' : Chan) (h : ch.stop = some ch') : ch.txEmpty = true ∧ ch' = { ch with run := false } := by
  unfold Chan.stop at h
  split at h
  · next he => exact ⟨he, by cases h; rfl⟩
  · cases h

/-- A forced idle discards units of one channel's TXQ from the head, or none, and may count a draw (R116). -/
theorem txForceIdle_eq (s : State) (c : Nat) :
    ∃ n, ∃ f : List Byte → List Byte, (∀ q, f q <:+ q) ∧
      s.txForceIdle c = { s with draws := n }.modChan c fun ch => { ch with txq := f ch.txq } := by
  unfold State.txForceIdle
  split
  · refine ⟨s.draws + 1, fun q => if Config.drawDrop s.draws then q.tail else q, fun q => ?_, rfl⟩
    dsimp only
    split
    · exact List.tail_suffix q
    · exact List.suffix_rfl
  · exact ⟨s.draws, fun _ => [], fun _ => List.nil_suffix, rfl⟩

/-- What a command `i` may make of `s`: it counts draws and rewrites its own channel, which keeps its parameters and TXLINE,
its transmit queue unless the command discards some of it, and its receive queue unless the command discards that. -/
def CommandResult (i : Instr) (s t : State) : Prop :=
  ∃ n, ∃ f : Chan → Chan, t = { s with draws := n }.modChan i.ch f ∧
    (f (s.chan i.ch)).par = (s.chan i.ch).par ∧ (f (s.chan i.ch)).txLine = (s.chan i.ch).txLine ∧
    ((f (s.chan i.ch)).txq = (s.chan i.ch).txq ∨ (f (s.chan i.ch)).txq <:+ (s.chan i.ch).txq ∧ DiscardsQueued i i.ch s) ∧
    ((f (s.chan i.ch)).rxq = (s.chan i.ch).rxq ∨ (f (s.chan i.ch)).rxq = [] ∧ DiscardsReceived i i.ch s)

/-- A command may leave every channel alone. -/
theorem CommandResult.of_draws (i : Instr) (s : State) (n : Nat) : CommandResult i s { s with draws := n } :=
  ⟨n, id, (State.modChan_id _ _).symm, rfl, rfl, .inl rfl, .inl rfl⟩

/-- Every command is one (R70 to R90). -/
theorem commandEffect_result (i : Instr) (s : State) (r : State × Status) (h : commandEffect i s = some r) :
    CommandResult i s r.1 := by
  cases i with
  | initOpen c =>
    cases h
    unfold cmdInitOpen
    split
    · exact .of_draws _ s s.draws
    · refine ⟨s.draws, _, rfl, ?_, ?_, .inr ⟨?_, .inl rfl⟩, .inr ⟨?_, .inl rfl⟩⟩ <;>
        (unfold Chan.openClosed; split <;> simp [Chan.configure, Chan.setInputSource, Chan.txFifoConfigure,
          Chan.rxFifoConfigure, Chan.start, Chan.nvicEnable])
  | initClose c =>
    cases h
    unfold cmdInitClose
    split
    · exact .of_draws _ s s.draws
    · next ch hi =>
      obtain ⟨-, rfl⟩ := stop_some _ _ hi
      exact ⟨s.draws, _, rfl, rfl, rfl, .inl rfl, .inl rfl⟩
  | initInvalid c v => cases h; exact .of_draws _ s s.draws
  | setBaud c v =>
    cases h
    unfold cmdSetBaud
    split
    · exact .of_draws _ s s.draws
    · split
      · exact .of_draws _ s s.draws
      · split
        · exact ⟨s.draws + 1, _, rfl, rfl, rfl, .inl rfl, .inl rfl⟩
        · exact .of_draws _ s (s.draws + 1)
  | tx c a b =>
    cases h
    unfold cmdTx
    dsimp only
    split
    · exact .of_draws _ s s.draws
    · refine ⟨s.draws, _, rfl, ?_, ?_, (acceptTx_txq _ a b).imp id fun h => ⟨?_, .inr (.inr (.inr ⟨h.2, a, b, rfl⟩))⟩, .inl ?_⟩
      · unfold Chan.acceptTx; dsimp only; split <;> rfl
      · unfold Chan.acceptTx; dsimp only; split <;> rfl
      · rw [h.1]; exact List.nil_suffix
      · unfold Chan.acceptTx; dsimp only; split <;> rfl
  | rx c a b =>
    cases h
    unfold cmdRx
    dsimp only
    split
    · exact .of_draws _ s s.draws
    · refine ⟨s.draws, _, rfl, ?_, ?_, .inl ?_, (acceptRx_rxq _ a b).imp id fun h => ⟨h.1, .inr ⟨h.2, a, b, rfl⟩⟩⟩ <;>
        (unfold Chan.acceptRx; dsimp only; split <;> rfl)
  | abortTx c =>
    cases h
    obtain ⟨n, f, hs, hf⟩ := txForceIdle_eq (s.modChan c Chan.abandonTx) c
    exact ⟨n, _, hf.trans (State.modChan_modChan { s with draws := n } c _ _), rfl, rfl, .inr ⟨hs _, .inr (.inl rfl)⟩, .inl rfl⟩
  | abortRx c => cases h; exact ⟨s.draws, _, rfl, rfl, rfl, .inl rfl, .inl rfl⟩
  | abortTxRx c =>
    cases h
    obtain ⟨n, f, hs, hf⟩ := txForceIdle_eq (s.modChan c Chan.abandonTx) c
    have h2 := (congrArg (State.modChan · c Chan.abandonRx) (hf.trans (State.modChan_modChan { s with draws := n } c _ _))).trans
      (State.modChan_modChan { s with draws := n } c _ _)
    exact ⟨n, _, h2, rfl, rfl, .inr ⟨hs _, .inr (.inr (.inl rfl))⟩, .inl rfl⟩
  | irqTx _ => cases h
  | irqRx _ => cases h
  | irqProto _ => cases h
  | txDone _ => cases h
  | envTxShift _ => cases h
  | envRxArrive _ _ => cases h
  | envRxArriveAlt _ _ => cases h
  | envPFlag _ _ => cases h

/-- What a run of nested commands `ws` leaves alone: everything but the channels, the statuses and the draws; of a channel, its
parameters and TXLINE, and each queue unless one of them discards units of it. -/
structure NestedResult (ws : List (BitVec 80)) (s t : State) : Prop where
  par : t.par = s.par
  nch : t.nch = s.nch
  active : t.active = s.active
  mem : t.mem = s.mem
  cbLog : t.cbLog = s.cbLog
  sched : t.sched = s.sched
  consumer : t.consumer = s.consumer
  chanPar : ∀ d, (t.chan d).par = (s.chan d).par
  txLine : ∀ d, (t.chan d).txLine = (s.chan d).txLine
  txq : ∀ d, (t.chan d).txq = (s.chan d).txq ∨
    (t.chan d).txq <:+ (s.chan d).txq ∧ ∃ w ∈ ws, ∃ j, decodeCmd s.nch w = .ok j ∧ DiscardsQueued j d s
  rxq : ∀ d, (t.chan d).rxq = (s.chan d).rxq ∨
    (t.chan d).rxq = [] ∧ ∃ w ∈ ws, ∃ j, decodeCmd s.nch w = .ok j ∧ DiscardsReceived j d s

/-- One nested command (R181). -/
theorem nestedCommand_result (w : BitVec 80) (s t : State) (h : nestedCommand w s = .next t) : NestedResult [w] s t := by
  obtain ⟨i, r, hd, -, hr, rfl⟩ := nestedCommand_next _ _ _ h
  obtain ⟨n, f, hf, hp, hl, hx, hq⟩ := commandEffect_result _ _ _ hr
  have hc : ∀ d, (r.1.chan d) = s.chan d ∨ d = i.ch ∧ r.1.chan d = f (s.chan d) := fun d => by
    rw [hf]
    by_cases hd : d = i.ch
    · subst hd
      by_cases hn : i.ch < s.nch
      · exact .inr ⟨rfl, State.chan_modChan_same { s with draws := n } i.ch f hn⟩
      · refine .inl ?_
        simp only [State.nch] at hn
        simp [State.modChan, State.chan, List.getD_eq_getElem?_getD, List.getElem?_eq_none (Nat.not_lt.1 hn)]
    · exact .inl (State.chan_modChan_ne { s with draws := n } i.ch d f hd)
  refine ⟨?_, ?_, ?_, ?_, ?_, ?_, ?_, fun d => ?_, fun d => ?_, fun d => ?_, fun d => ?_⟩
  · simp [hf]
  · simp only [State.nch_reply, hf, State.nch_modChan]; rfl
  · simp [hf]
  · simp [hf]
  · simp [hf]
  · simp [hf]
  · simp [hf]
  · rcases hc d with h | ⟨rfl, h⟩ <;> simp [h, hp]
  · rcases hc d with h | ⟨rfl, h⟩ <;> simp [h, hl]
  · rcases hc d with h | ⟨rfl, h⟩
    · exact .inl (by simp [h])
    · simp only [State.chan_reply, h]
      exact hx.imp id fun hx => ⟨hx.1, w, List.mem_singleton.2 rfl, i, hd, hx.2⟩
  · rcases hc d with h | ⟨rfl, h⟩
    · exact .inl (by simp [h])
    · simp only [State.chan_reply, h]
      exact hq.imp id fun hq => ⟨hq.1, w, List.mem_singleton.2 rfl, i, hd, hq.2⟩

/-- All of a consumer's nested commands (R181). -/
theorem nestedCommands_result (ws : List (BitVec 80)) (s t : State) (h : nestedCommands ws s = .next t) :
    NestedResult ws s t := by
  induction ws generalizing s with
  | nil => cases h; exact ⟨rfl, rfl, rfl, rfl, rfl, rfl, rfl, fun _ => rfl, fun _ => rfl, fun _ => .inl rfl, fun _ => .inl rfl⟩
  | cons w ws ih =>
    obtain ⟨u, hu, ht⟩ := (andThen_next _ _ _).1 h
    have a := nestedCommand_result _ _ _ hu
    have b := ih _ ht
    refine ⟨b.par.trans a.par, b.nch.trans a.nch, b.active.trans a.active, b.mem.trans a.mem, b.cbLog.trans a.cbLog,
      b.sched.trans a.sched, b.consumer.trans a.consumer, fun d => (b.chanPar d).trans (a.chanPar d),
      fun d => (b.txLine d).trans (a.txLine d), fun d => ?_, fun d => ?_⟩
    · rcases b.txq d with hb | ⟨hb, v, hv, j, hj, hdis⟩
      · rcases a.txq d with ha | ⟨ha, v, hv, hj⟩
        · exact .inl (hb.trans ha)
        · exact .inr ⟨hb ▸ ha, v, by simp_all, hj⟩
      · refine .inr ⟨?_, v, List.mem_cons_of_mem _ hv, j, by rw [← a.nch]; exact hj, ?_⟩
        · rcases a.txq d with ha | ⟨ha, -⟩
          · exact ha ▸ hb
          · exact hb.trans ha
        · exact hdis.imp id fun h => h.imp id fun h => h.imp id fun h => ⟨by rw [← a.chanPar d]; exact h.1, h.2⟩
    · rcases b.rxq d with hb | ⟨hb, v, hv, j, hj, hdis⟩
      · rcases a.rxq d with ha | ⟨ha, v, hv, hj⟩
        · exact .inl (hb.trans ha)
        · exact .inr ⟨hb.trans ha, v, by simp_all, hj⟩
      · refine .inr ⟨hb, v, List.mem_cons_of_mem _ hv, j, by rw [← a.nch]; exact hj, ?_⟩
        exact hdis.imp id fun h => ⟨by rw [← a.chanPar d]; exact h.1, h.2⟩

/-- A callback: the record is logged, then the consumer's nested commands run (R180, R181). -/
theorem callback_result (r : CbRec) (s t : State) (h : callback r s = .next t) :
    NestedResult (s.consumer.headD []) (s.notify r) t :=
  nestedCommands_result _ _ _ h

end Sys2Proof.Machine
end

