-- ==== Sys2Proof/Laws/PerInstr.lean ====
section
/-! SUPPORT. Facts about every operation as syntax: a well-formed operation names a channel that exists (R11, R64 (b)). -/

namespace Sys2Proof.Laws.ChannelExists

/-- In a machine of `nch` channels a well-formed operation's channel is one of them. -/
def Statement (i : Instr) : Prop := ∀ nch, i.wf nch = true → i.ch < nch

/-- Both channel checks bound the channel. -/
theorem of_command {nch c : Nat} (h : commandChannelOk nch c = true) : c < nch := by
  simp only [commandChannelOk, Bool.and_eq_true, decide_eq_true_eq] at h
  exact h.1

theorem of_schedule {nch c : Nat} (h : scheduleChannelOk nch c = true) : c < nch := by
  simp only [scheduleChannelOk, Bool.and_eq_true, decide_eq_true_eq] at h
  exact h.1

theorem initOpen (c : Nat) : Statement (.initOpen c) := fun _ h => of_command h
theorem initClose (c : Nat) : Statement (.initClose c) := fun _ h => of_command h
theorem initInvalid (c : Nat) (r : Word) : Statement (.initInvalid c r) := fun _ h => by
  simp only [Instr.wf, Bool.and_eq_true] at h
  exact of_command h.1.1
theorem setBaud (c : Nat) (v : Word) : Statement (.setBaud c v) := fun _ h => of_command h
theorem tx (c : Nat) (a b : Word) : Statement (.tx c a b) := fun _ h => by
  simp only [Instr.wf, Bool.and_eq_true] at h
  exact of_command h.1
theorem rx (c : Nat) (a b : Word) : Statement (.rx c a b) := fun _ h => by
  simp only [Instr.wf, Bool.and_eq_true] at h
  exact of_command h.1
theorem abortTx (c : Nat) : Statement (.abortTx c) := fun _ h => of_command h
theorem abortRx (c : Nat) : Statement (.abortRx c) := fun _ h => of_command h
theorem abortTxRx (c : Nat) : Statement (.abortTxRx c) := fun _ h => of_command h
theorem irqTx (c : Nat) : Statement (.irqTx c) := fun _ h => of_schedule h
theorem irqRx (c : Nat) : Statement (.irqRx c) := fun _ h => of_schedule h
theorem irqProto (c : Nat) : Statement (.irqProto c) := fun _ h => of_schedule h
theorem txDone (c : Nat) : Statement (.txDone c) := fun _ h => of_schedule h
theorem envTxShift (c : Nat) : Statement (.envTxShift c) := fun _ h => of_schedule h
theorem envRxArrive (c : Nat) (u : Byte) : Statement (.envRxArrive c u) := fun _ h => of_schedule h
theorem envRxArriveAlt (c : Nat) (u : Byte) : Statement (.envRxArriveAlt c u) := fun _ h => of_schedule h
theorem envPFlag (c : Nat) (i : Nat) : Statement (.envPFlag c i) := fun _ h => by
  simp only [Instr.wf, Bool.and_eq_true] at h
  exact of_schedule h.1

end Sys2Proof.Laws.ChannelExists
end

