-- ==== Sys2Proof/Tests/Slice0.lean ====
section
/-! SUPPORT. Small tests. Every expected value comes from the spec's vectors (spec/95_test_vectors.md) or a rule's worked example,
named at the test. Then, for every statement with hypotheses, a state that meets them. -/

namespace Sys2Proof.Tests

open Sys2Proof Sys2Proof.Machine

/-! Well-formedness: one ill-formed term for each check. -/

theorem test_wf_channel_exists : (Instr.initOpen 4).wf 4 = false := by decide
theorem test_wf_command_field : (Instr.initOpen 256).wf 300 = false := by decide
theorem test_wf_schedule_channel_exists : (Instr.irqTx 4).wf 4 = false := by decide
theorem test_wf_schedule_field : (Instr.irqTx 16).wf 20 = false := by decide
theorem test_wf_request_open : (Instr.initInvalid 0 1).wf 4 = false := by decide
theorem test_wf_request_close : (Instr.initInvalid 0 0).wf 4 = false := by decide
theorem test_wf_tx_buffer : (Instr.tx 0 0xFFFFFFFF 2).wf 4 = false := by decide
theorem test_wf_rx_buffer : (Instr.rx 0 0xFFFFFFFF 2).wf 4 = false := by decide
theorem test_wf_flag : (Instr.envPFlag 0 5).wf 4 = false := by decide

/-! Decoding: words written out from R55 to R63 (R67's syntax table; vectors V30.x where one is named). -/

theorem test_decode_initOpen : decode 4 (.cmd 0x01000000000100000000) = .ok (.initOpen 0) := by decide -- V30.1
theorem test_decode_initClose : decode 4 (.cmd 0x010300000000DEADBEEF) = .ok (.initClose 3) := by decide -- V30.2
theorem test_decode_initInvalid : decode 4 (.cmd 0x0100FFFFFFFF00000000) = .ok (.initInvalid 0 0xFFFFFFFF) := by decide -- V30.4
theorem test_decode_setBaud : decode 4 (.cmd 0x02010001C20000000000) = .ok (.setBaud 1 115200) := by decide -- V30.5
theorem test_decode_tx : decode 4 (.cmd 0x03022000040000000003) = .ok (.tx 2 0x20000400 3) := by decide -- V30.6
theorem test_decode_tx_top : decode 4 (.cmd 0x0300FFFFFFFF00000001) = .ok (.tx 0 0xFFFFFFFF 1) := by decide -- V30.15
theorem test_decode_rx : decode 4 (.cmd 0x04012000010000000006) = .ok (.rx 1 0x20000100 6) := by decide -- V30.7
theorem test_decode_abortTx : decode 4 (.cmd 0x05000000000100000000) = .ok (.abortTx 0) := by decide -- P3 step 8
theorem test_decode_abortRx : decode 4 (.cmd 0x05010000000200000000) = .ok (.abortRx 1) := by decide -- R59
theorem test_decode_abortTxRx : decode 4 (.cmd 0x05000000000300000000) = .ok (.abortTxRx 0) := by decide -- V30.8
theorem test_decode_irqTx : decode 4 (.sch 0x0200) = .ok (.irqTx 2) := by decide -- P5 step 4
theorem test_decode_irqRx : decode 4 (.sch 0x1100) = .ok (.irqRx 1) := by decide -- P2 step 7
theorem test_decode_irqProto : decode 4 (.sch 0x2000) = .ok (.irqProto 0) := by decide -- P4 step 4
theorem test_decode_txDone : decode 4 (.sch 0x3000) = .ok (.txDone 0) := by decide -- V43.3
theorem test_decode_envTxShift : decode 4 (.sch 0x8200) = .ok (.envTxShift 2) := by decide -- P5 step 5
theorem test_decode_envRxArrive : decode 4 (.sch 0x9141) = .ok (.envRxArrive 1 0x41) := by decide -- V30.16
theorem test_decode_envRxArriveAlt : decode 4 (.sch 0xA214) = .ok (.envRxArriveAlt 2 0x14) := by decide -- V42.4
theorem test_decode_envPFlag : decode 4 (.sch 0xB004) = .ok (.envPFlag 0 4) := by decide -- V30.17

theorem test_reject_direction0 : decode 4 (.cmd 0x05000000000000000000) = .error .reservedDirection := by decide -- V30.9
theorem test_reject_direction4 : decode 4 (.cmd 0x05000000000400000000) = .error .reservedDirection := by decide -- V30.10
theorem test_reject_op6 : decode 4 (.cmd 0x06000000000000000000) = .error .reservedOp := by decide -- V30.11
theorem test_reject_op0 : decode 4 (.cmd 0x00000000000000000000) = .error .reservedOp := by decide -- V30.12
theorem test_reject_channel : decode 4 (.cmd 0x03042000000000000001) = .error .channelOutOfRange := by decide -- V30.13
theorem test_reject_wrap : decode 4 (.cmd 0x0300FFFFFFFF00000002) = .error .bufferPastTop := by decide -- V30.14
theorem test_reject_flag5 : decode 4 (.sch 0xB005) = .error .reservedArg := by decide -- V30.18
theorem test_reject_kind4 : decode 4 (.sch 0x4000) = .error .reservedKind := by decide -- V30.19
theorem test_reject_arg : decode 4 (.sch 0x0101) = .error .reservedArg := by decide -- V30.20

theorem test_table_word_command : decodeTableWord 80 0x05000000000300000000 = some (.abortTxRx 0) := by decide
theorem test_table_word_schedule : decodeTableWord 16 0xB000 = some (.envPFlag 0 0) := by decide

/-! Reports: V30.21, V30.22, V30.23. -/

theorem test_status_busy : Status.ofCode 0x02 = some .busy := by decide
theorem test_record_rx_complete :
    CbRec.encode { ch := 2, event := .rxComplete, ptr := 0x20000500, data := 0 } = 0x02022000050000 := by decide
theorem test_record_format_error :
    CbRec.decode 0x00130000000000 = some { ch := 0, event := .formatError1, ptr := 0, data := 0 } := by decide

/-! States. -/

/-- A property of the next state; false where there is none. -/
def nextHas (o : Result) (p : State → Bool) : Bool :=
  match o with
  | .next s => p s
  | .fault _ => false
  | .refused _ => false

/-- Byte-mode parameters. -/
def pByte : ChanParams := Config.defaultChan 0
/-- FIFO-mode parameters, depth 4 in both directions, protocol conditions enabled at open. -/
def pFifo : ChanParams := { Config.defaultChan 0 with txCap := 4, rxCap := 4, evOpen := 0x1F00 }
/-- Depth 2 wired to itself (P5's channel). -/
def pLoop : ChanParams := { Config.defaultChan 0 with txCap := 2, rxCap := 2, loopTo := some 0, txPrio := 5, rxPrio := 4 }

/-- A machine of two channels after reset, the first with parameters `p` and changed by `f`. -/
def machine (p : ChanParams) (f : Chan → Chan) : State :=
  (State.resetWith Config.defaultParams [p, Config.defaultChan 1]).modChan 0 f

/-- Opened. -/
def opened (ch : Chan) : Chan := ch.openClosed true

/-- Opened, with a transmit of `len` units from 0x20000000 of which `idx` are pushed, `q` queued, the vector pending. -/
def sending (q : List Byte) (idx len : Word) (ch : Chan) : Chan :=
  { (((opened ch).acceptTx 0x20000000 len)) with txq := q, tx := { ptr := 0x20000000, len := len, idx := idx } }

/-- Opened, with a receive of `len` units to 0x20000100 of which `idx` are stored, `q` queued, the vector pending. -/
def receiving (q : List Byte) (idx len : Word) (ch : Chan) : Chan :=
  { ((opened ch).acceptRx 0x20000100 len).pend .rx with rxq := q, rx := { ptr := 0x20000100, len := len, idx := idx } }

/-- Four bytes at 0x20000000. -/
def withBytes (s : State) : State :=
  { s with mem := [(0x20000000, 0xA0), (0x20000001, 0xA1), (0x20000002, 0xA2), (0x20000003, 0xA3)] }

/-! Lifecycle. -/

-- V40.1
theorem test_open_from_reset : nextHas (exec (.initOpen 0) State.reset) (fun t =>
    (t.chan 0).flags.stateWord == 0x01 && (t.chan 0).run && (t.chan 0).txLimit == 1 && (t.chan 0).vPr.en
      && (t.chan 1).flags.stateWord == 0x00) = true := by decide
-- V40.2
theorem test_open_twice_keeps_queue : nextHas (exec (.initOpen 0)
    (machine pByte fun ch => { opened ch with rxq := [0x31] })) (fun t => (t.chan 0).rxq == [0x31]) = true := by decide
-- V40.3
theorem test_close_while_shifting : nextHas (exec (.initClose 0)
    (machine pFifo fun ch => (sending [0xA0, 0xA1] 2 2 ch).unpend .tx)) (fun t =>
    t.statusLog == [{ ctx := .mainLine, status := .busy }] && (t.chan 0).flags.stateWord == 0x07 && (t.chan 0).run) = true := by
  decide
-- V40.4
theorem test_close_with_receive_outstanding : nextHas (exec (.initClose 0)
    (machine pByte fun ch => (receiving [] 0 4 ch).unpend .rx)) (fun t =>
    (t.chan 0).flags.stateWord == 0x18 && !(t.chan 0).run && (t.chan 0).even == 0x0004) = true := by decide
-- V30.3
theorem test_init_invalid : nextHas (exec (.initInvalid 0 2) State.reset) (fun t =>
    t.statusLog == [{ ctx := .mainLine, status := .invalidArgument }]) = true := by decide
-- S5
theorem test_setbaud_57600 : nextHas (exec (.setBaud 0 57600) State.reset) (fun t =>
    t.statusLog == [{ ctx := .mainLine, status := .invalidArgument }] && (t.chan 0).baud == 9600) = true := by decide
-- V40.5
theorem test_setbaud_busy : nextHas (exec (.setBaud 0 9600) (machine pByte fun ch => (sending [] 0 2 ch).unpend .tx)) (fun t =>
    t.statusLog == [{ ctx := .mainLine, status := .busy }]) = true := by decide

/-! Transfer requests. -/

-- P1 step 2
theorem test_tx_accepted : nextHas (exec (.tx 0 0x20000000 2) (machine pByte opened)) (fun t =>
    (t.chan 0).flags.stateWord == 0x07 && (t.chan 0).tx == { ptr := 0x20000000, len := 2, idx := 0 }
      && (t.chan 0).even == 0x0001 && (t.chan 0).vTx.pend) = true := by decide
-- V41.1
theorem test_tx_null_before_closed : nextHas (exec (.tx 0 0 1) State.reset) (fun t =>
    t.statusLog == [{ ctx := .mainLine, status := .invalidArgument }]) = true := by decide
-- P2 step 2 (EVEN keeps the protocol enables of this machine's EVOPEN)
theorem test_rx_accepted : nextHas (exec (.rx 0 0x20000100 6) (machine pFifo opened)) (fun t =>
    (t.chan 0).flags.stateWord == 0x19 && (t.chan 0).rxLim == 3 && (t.chan 0).even == 0x1F18) = true := by decide
-- V70.1
theorem test_rx_closed : nextHas (exec (.rx 0 0x20000100 1) State.reset) (fun t =>
    t.statusLog == [{ ctx := .mainLine, status := .failed }]) = true := by decide
-- P3 step 8
theorem test_abort_tx : nextHas (exec (.abortTx 0)
    (machine pFifo fun ch => (sending [0xA1, 0xA2, 0xA3] 4 6 ch).unpend .tx)) (fun t =>
    (t.chan 0).flags.stateWord == 0x03 && (t.chan 0).tx == { ptr := 0, len := 6, idx := 4 } && (t.chan 0).even == 0x1F00) = true := by
  decide
-- V43.4, last sentence
theorem test_abort_tx_byte_idles : nextHas (exec (.abortTx 0)
    (machine pByte fun ch => (sending [0x69] 2 2 ch).unpend .tx)) (fun t => (t.chan 0).txq == []) = true := by decide
-- R88's example
theorem test_abort_rx : nextHas (exec (.abortRx 0) (machine pFifo fun ch => (receiving [] 0 4 ch).unpend .rx)) (fun t =>
    (t.chan 0).flags.stateWord == 0x09 && (t.chan 0).rx.ptr == 0 && (t.chan 0).even == 0x1F00) = true := by decide
-- V41.6
theorem test_abort_both : nextHas (exec (.abortTxRx 0)
    (machine pByte fun ch => ((sending [] 0 1 ch).unpend .tx).acceptRx 0x20000100 1)) (fun t =>
    (t.chan 0).flags.stateWord == 0x0B && (t.chan 0).tx.ptr == 0 && (t.chan 0).rx.ptr == 0 && (t.chan 0).even == 0) = true := by
  decide

/-! Handlers. -/

-- P3 step 4
theorem test_irq_tx_fill : nextHas (exec (.irqTx 0) (withBytes (machine pFifo (sending [] 0 6)))) (fun t =>
    (t.chan 0).txq == [0xA0, 0xA1, 0xA2, 0xA3] && (t.chan 0).tx.idx == 4 && !(t.chan 0).vTx.pend && t.active == []) = true := by
  decide
-- V43.3
theorem test_irq_tx_waits : nextHas (exec (.irqTx 0) (machine pFifo (sending [0xB2, 0xB3] 4 4))) (fun t =>
    (t.chan 0).txWait && t.active == [(0, .tx)] && (t.chan 0).flags.stateWord == 0x07 && t.cbLog == []) = true := by decide
-- V43.3
theorem test_txdone : nextHas (exec (.txDone 0)
    { machine pFifo (fun ch => { (sending [] 4 4 ch).unpend .tx with txWait := true }) with active := [(0, .tx)] }) (fun t =>
    t.cbLog == [{ ch := 0, event := .txComplete, ptr := 0x20000000, data := 0 }] && (t.chan 0).flags.stateWord == 0x01
      && (t.chan 0).tx.ptr == 0 && !(t.chan 0).txWait && t.active == []) = true := by decide
-- P2 step 7
theorem test_irq_rx_drain : nextHas (exec (.irqRx 0) (machine pFifo (receiving [0x10, 0x11, 0x12, 0x13] 0 6))) (fun t =>
    t.mem == [(0x20000100, 0x10), (0x20000101, 0x11), (0x20000102, 0x12), (0x20000103, 0x13)]
      && (t.chan 0).rx.idx == 4 && (t.chan 0).rxq == [] && (t.chan 0).rxLim == 1) = true := by decide
-- V44.2
theorem test_irq_rx_surplus_stays : nextHas (exec (.irqRx 0) (machine pFifo (receiving [0x01, 0x02, 0x03] 0 2))) (fun t =>
    (t.chan 0).rxq == [0x03] && (t.chan 0).flags.stateWord == 0x01 && (t.chan 0).rx.ptr == 0x20000100
      && t.cbLog == [{ ch := 0, event := .rxComplete, ptr := 0x20000100, data := 0 }]) = true := by decide
-- R157's example
theorem test_irq_proto_first_match : nextHas (exec (.irqProto 0)
    (machine pFifo fun ch => { (opened ch).pend .pr with pstat := 0x12 })) (fun t =>
    (t.chan 0).pstat == 0x10 && t.cbLog == [{ ch := 0, event := .rxNoise, ptr := 0, data := 0 }]) = true := by decide
-- V45.2
theorem test_irq_proto_skips_disabled : nextHas (exec (.irqProto 0)
    (machine pFifo fun ch => { (opened ch).pend .pr with pstat := 0x11, even := 0x0100 })) (fun t =>
    (t.chan 0).pstat == 0x10 && t.cbLog == [{ ch := 0, event := .syncBreak, ptr := 0, data := 0 }]) = true := by decide

/-! Environment. -/

-- V42.1: the shift from 4 to 3 raises nothing with TXLIMIT 1
theorem test_shift_above_limit : nextHas (exec (.envTxShift 0)
    (machine pFifo fun ch => (sending [0xA0, 0xA1, 0xA2, 0xA3] 4 6 ch).unpend .tx)) (fun t =>
    (t.chan 0).txq == [0xA1, 0xA2, 0xA3] && (t.chan 0).txLine == [0xA0] && !(t.chan 0).vTx.pend) = true := by decide
-- P5 step 6
theorem test_shift_loopback : nextHas (exec (.envTxShift 0)
    (machine pLoop fun ch => { (((sending [0x02] 2 3 ch).unpend .tx).acceptRx 0x20000500 3) with rxq := [0x01] })) (fun t =>
    (t.chan 0).txq == [] && (t.chan 0).vTx.pend && (t.chan 0).rxq == [0x01, 0x02] && (t.chan 0).vRx.pend) = true := by decide
-- R118's example
theorem test_arrive_at_limit : nextHas (exec (.envRxArrive 0 0x13)
    (machine pFifo fun ch => (receiving [0x10, 0x11, 0x12] 0 6 ch).unpend .rx)) (fun t =>
    (t.chan 0).rxq == [0x10, 0x11, 0x12, 0x13] && (t.chan 0).vRx.pend) = true := by decide
-- V42.6: which unit stays is open, the event is raised
theorem test_arrive_overrun_pends : nextHas (exec (.envRxArrive 0 0x22)
    (machine pByte fun ch => (receiving [0x11] 0 2 ch).unpend .rx)) (fun t => (t.chan 0).vRx.pend) = true := by decide
-- V42.4
theorem test_arrive_alternate : nextHas (exec (.envRxArriveAlt 0 0x14)
    (machine pFifo fun ch => { (receiving [] 0 6 ch).unpend .rx with rxLim := 1 })) (fun t =>
    (t.chan 0).rxq == [0x14] && (t.chan 0).vRx.pend) = true := by decide
-- R119's example
theorem test_flag_pends : nextHas (exec (.envPFlag 0 1) (machine pFifo opened)) (fun t =>
    (t.chan 0).pstat == 0x02 && (t.chan 0).vPr.pend) = true := by decide

/-! The schedule: a command runs as the first step after reset; an IDL step is not enabled there (R202). -/

theorem test_step_first_command :
    nextHas (step (State.reset.withFetchWord 80 0x01000000000100000000)) (fun t => (t.chan 0).run) = true := by decide
theorem test_step_first_irq : step (State.reset.withFetchWord 16 0x0000) = .refused .notDispatchable := by rfl

/-! Witnesses: for every statement with hypotheses, values that meet them together, one per clause, at the clause's boundary. -/

/-- Byte-mode machine, open and quiet. -/
def byteOpen : State := machine pByte opened
/-- FIFO-mode machine, open and quiet. -/
def fifoOpen : State := machine pFifo opened
/-- A transmit handler that waits: everything pushed, one unit queued. The protocol vector outranks it and is pending. -/
def suspended : State :=
  { machine { pFifo with txPrio := 5 } fun ch =>
      { ((sending [0xA1] 2 2 ch).unpend .tx).pend .pr with txWait := true, pstat := 0x01 } with active := [(0, .tx)] }
/-- ABORT.TX on channel 0 as a descriptor. -/
def wAbortTx : BitVec 80 := 0x05000000000100000000
/-- TX and RX on channel 0 as descriptors. -/
def wTx : BitVec 80 := 0x03002000000000000001
def wRx : BitVec 80 := 0x04002000010000000001

theorem witness_EveryOperationDecodesFromItsWord : (Instr.tx 255 0xFFFFFFFF 1).wf 256 = true ∧ (Instr.irqTx 15).wf 16 = true
    ∧ (Instr.initInvalid 0 2).wf 1 = true ∧ (Instr.envPFlag 0 4).wf 1 = true ∧ (Instr.envRxArrive 0 0xFF).wf 1 = true := by decide
theorem witness_DecodedOperationIsWellFormed : decode 256 (.cmd 0x03FFFFFFFFFF00000001) = .ok (.tx 255 0xFFFFFFFF 1) := by decide
theorem witness_CallbackRecordReadsBack : (CbRec.mk 255 .collision 0 0).ch < 256 := by decide
theorem witness_StepRunsTheDecodedOperation :
    ({ byteOpen with sched := [.word (.sch 0x8100)] } : State).sched = [.word (.sch 0x8100)]
    ∧ decode byteOpen.nch (.sch 0x8100) = .ok (.envTxShift 1) := by decide
theorem witness_OpenLoadsAClosedChannel : 0 < byteOpen.nch ∧ byteOpen.hostEnabled = true ∧ (byteOpen.chan 0).flags.init = true
    ∧ 1 < byteOpen.nch ∧ (byteOpen.chan 1).flags.init = false := by decide
theorem witness_CloseLooksAtTheTransmitQueueOnly : byteOpen.hostEnabled = true ∧ (byteOpen.chan 0).txq = [] ∧
    (machine pFifo fun ch => (sending [0xA0] 2 2 ch).unpend .tx).hostEnabled = true ∧
    ((machine pFifo fun ch => (sending [0xA0] 2 2 ch).unpend .tx).chan 0).txq ≠ [] := by decide
theorem witness_UnrecognisedInitIsInvalid : 0 < byteOpen.nch ∧ byteOpen.hostEnabled = true := by decide
theorem witness_SetBaudChecksThenAsksTheHardware : byteOpen.hostEnabled = true ∧ Config.baudWlOk byteOpen.par.baudWl = true ∧ (57600 : Word) ∉ byteOpen.par.baudWl ∧
    (115200 : Word) ∈ byteOpen.par.baudWl ∧ (byteOpen.chan 0).flags.anyTransfer = false ∧
    (machine pByte fun ch => (sending [] 0 2 ch).unpend .tx).hostEnabled = true ∧
    ((machine pByte fun ch => (sending [] 0 2 ch).unpend .tx).chan 0).flags.anyTransfer = true := by decide
theorem witness_TransmitRequestIsCheckedThenRecorded : byteOpen.hostEnabled = true ∧ bufferFits 0 1 = true ∧
    bufferFits 1 0 = true ∧ bufferFits 0xFFFFFFFF 1 = true ∧ (byteOpen.chan 0).flags.init = true ∧
    (byteOpen.chan 0).flags.txBusy = false ∧ (byteOpen.chan 0).flags.txLock = false ∧ (byteOpen.chan 1).flags.init = false := by
  decide
theorem witness_TransmitRequestIsCheckedThenRecorded_locked :
    (machine pByte fun ch => ((sending [] 0 2 ch).abandonTx).unpend .tx).hostEnabled = true ∧
    ((machine pByte fun ch => ((sending [] 0 2 ch).abandonTx).unpend .tx).chan 0).flags.txBusy = false ∧
    ((machine pByte fun ch => ((sending [] 0 2 ch).abandonTx).unpend .tx).chan 0).flags.txLock = true := by decide
theorem witness_ReceiveRequestIsCheckedThenRecorded : fifoOpen.hostEnabled = true ∧ bufferFits 0 1 = true ∧
    bufferFits 1 0 = true ∧ bufferFits 0xFFFFFFFF 1 = true ∧ (fifoOpen.chan 0).flags.init = true ∧
    (fifoOpen.chan 0).flags.rxBusy = false ∧ (fifoOpen.chan 0).flags.rxLock = false ∧ (fifoOpen.chan 1).flags.init = false := by
  decide
theorem witness_ReceiveRequestIsCheckedThenRecorded_locked :
    (machine pByte fun ch => ((receiving [] 0 2 ch).abandonRx).unpend .rx).hostEnabled = true ∧
    ((machine pByte fun ch => ((receiving [] 0 2 ch).abandonRx).unpend .rx).chan 0).flags.rxBusy = false ∧
    ((machine pByte fun ch => ((receiving [] 0 2 ch).abandonRx).unpend .rx).chan 0).flags.rxLock = true := by decide
theorem witness_BufferPastTheTopIsRefused : 2 ^ 32 < (0xFFFFFFFF : Word).toNat + (2 : Word).toNat := by decide
theorem witness_AbortTxClearsBusyAndKeepsLock : byteOpen.hostEnabled = true ∧ (byteOpen.chan 0).par.txCap = 0 ∧
    fifoOpen.hostEnabled = true ∧ (fifoOpen.chan 0).par.txCap ≠ 0 := by decide
theorem witness_AbortRxClearsBusyAndKeepsLock : 0 < fifoOpen.nch ∧ fifoOpen.hostEnabled = true := by decide
theorem witness_AbortTxRxDoesBoth : byteOpen.hostEnabled = true ∧ (byteOpen.chan 0).par.txCap = 0 ∧
    fifoOpen.hostEnabled = true ∧ (fifoOpen.chan 0).par.txCap ≠ 0 := by decide

theorem witness_StrayTransmitInterruptDoesNothing :
    (machine pByte fun ch => (sending [] 0 2 ch).abandonTx).dispatchable 0 .tx = true ∧
    ¬(((machine pByte fun ch => (sending [] 0 2 ch).abandonTx).chan 0).flags.txLock = true ∧
      ((machine pByte fun ch => (sending [] 0 2 ch).abandonTx).chan 0).flags.txBusy = true) := by decide
theorem witness_FifoFillPushesWhatFits : (machine pFifo (sending [1, 2, 3] 3 6)).dispatchable 0 .tx = true ∧
    ((machine pFifo (sending [1, 2, 3] 3 6)).chan 0).flags.txInFlight = true ∧
    ((machine pFifo (sending [1, 2, 3] 3 6)).chan 0).par.txCap ≠ 0 ∧
    ((machine pFifo (sending [1, 2, 3] 3 6)).chan 0).tx.idx < ((machine pFifo (sending [1, 2, 3] 3 6)).chan 0).tx.len ∧
    ((machine pFifo (sending [1, 2, 3] 3 6)).chan 0).txq.length ≤ 4 ∧ bufferFits 0x20000000 6 = true := by decide
theorem witness_ByteFillPushesOneUnit : (machine pByte (sending [] 0 1)).dispatchable 0 .tx = true ∧
    ((machine pByte (sending [] 0 1)).chan 0).flags.txInFlight = true ∧ ((machine pByte (sending [] 0 1)).chan 0).par.txCap = 0 ∧
    ((machine pByte (sending [] 0 1)).chan 0).tx.idx < ((machine pByte (sending [] 0 1)).chan 0).tx.len ∧
    ((machine pByte (sending [] 0 1)).chan 0).txq = [] ∧ bufferFits 0x20000000 1 = true ∧
    (machine pByte (sending [7] 1 2)).dispatchable 0 .tx = true ∧
    ((machine pByte (sending [7] 1 2)).chan 0).txq.length = 1 := by decide
theorem witness_TransmitHandlerWaitsForTheQueue : (machine pFifo (sending [7] 2 2)).dispatchable 0 .tx = true ∧
    ((machine pFifo (sending [7] 2 2)).chan 0).flags.txInFlight = true ∧
    ((machine pFifo (sending [7] 2 2)).chan 0).tx.idx = ((machine pFifo (sending [7] 2 2)).chan 0).tx.len ∧
    ((machine pFifo (sending [7] 2 2)).chan 0).txq ≠ [] := by decide
theorem witness_TransmitCompletion : (machine pFifo (sending [] 2 2)).consumer.headD [] = [] ∧
    (machine pFifo (sending [] 2 2)).dispatchable 0 .tx = true ∧ ((machine pFifo (sending [] 2 2)).chan 0).flags.txInFlight = true ∧
    ((machine pFifo (sending [] 2 2)).chan 0).tx.idx = ((machine pFifo (sending [] 2 2)).chan 0).tx.len ∧
    ((machine pFifo (sending [] 2 2)).chan 0).txq = [] := by decide
theorem witness_TransmitCompletion_txDone : suspended.consumer.headD [] = [] ∧ (suspended.chan 0).txWait = true ∧
    suspended.active.head? = some (0, .tx) ∧
    ((suspended.modChan 0 fun ch => { ch with txq := [] }).chan 0).txq = [] := by decide
theorem witness_TransmitCompletionSurvivesNestedCommands :
    (∃ t, exec (.irqTx 0) { machine pFifo (sending [] 2 2) with consumer := [[wTx, wRx, wAbortTx]] } = .next t) ∧
    ∃ t, exec (.txDone 0) { suspended.modChan 0 (fun ch => { ch with txq := [] }) with consumer := [[wAbortTx]] } = .next t :=
  ⟨⟨_, rfl⟩, ⟨_, rfl⟩⟩

theorem witness_UnsolicitedReceiveForwardsOneUnit :
    (machine pFifo fun ch => (opened ch).pend .rx).dispatchable 0 .rx = true ∧
    ((machine pFifo fun ch => (opened ch).pend .rx).chan 0).rxq = [] ∧ (machine pFifo opened).consumer.headD [] = [] ∧
    ((machine pFifo fun ch => (opened ch).pend .rx).chan 0).flags.rxIdle = true ∧
    (machine pFifo fun ch => { (opened ch).pend .rx with rxq := [9] }).dispatchable 0 .rx = true ∧
    (machine pByte fun ch => (opened ch).pend .rx).dispatchable 0 .rx = true := by decide
theorem witness_MixedReceiveFollowsThePolicy :
    (machine pFifo fun ch => { (receiving [9] 0 2 ch).abandonRx with rxq := [9] }).dispatchable 0 .rx = true ∧
    ((machine pFifo fun ch => (receiving [9] 0 2 ch).abandonRx).chan 0).flags.rxLock = true ∧
    ((machine pFifo fun ch => (receiving [9] 0 2 ch).abandonRx).chan 0).flags.rxBusy = false ∧
    (machine pFifo opened).par.mixed = .noop ∧
    ({ machine pFifo (fun ch => (receiving [9] 0 2 ch).abandonRx) with
      par := { Config.defaultParams with mixed := .unsolicited } } : State).dispatchable 0 .rx = true := by decide
theorem witness_FifoDrainShrinksTheLimit : (machine pFifo (receiving [1, 2, 3, 4] 0 5)).dispatchable 0 .rx = true ∧
    Memory.wf (machine pFifo (receiving [1, 2, 3, 4] 0 5)).mem ∧ bufferFits 0x20000100 5 = true ∧
    ((machine pFifo (receiving [1, 2, 3, 4] 0 5)).chan 0).flags.rxInFlight = true ∧
    ((machine pFifo (receiving [1, 2, 3, 4] 0 5)).chan 0).par.rxCap ≠ 0 ∧ 0 + 4 < (5 : Word).toNat := by decide
theorem witness_FifoDrainCompletesAtTheLength : (machine pFifo (receiving [1, 2, 3, 4] 0 4)).dispatchable 0 .rx = true ∧
    Memory.wf (machine pFifo (receiving [1, 2, 3, 4] 0 4)).mem ∧ bufferFits 0x20000100 4 = true ∧
    ((machine pFifo (receiving [1, 2, 3, 4] 0 4)).chan 0).flags.rxInFlight = true ∧
    (machine pFifo (receiving [1, 2, 3, 4] 0 4)).consumer.headD [] = [] ∧
    ((machine pFifo (receiving [1, 2, 3, 4] 0 4)).chan 0).par.rxCap ≠ 0 ∧ (4 : Word).toNat ≤ 0 + 4 := by decide
theorem witness_ByteReceiveStoresOneUnit : (machine pByte (receiving [1] 0 2)).dispatchable 0 .rx = true ∧
    (machine pByte (receiving [1] 1 2)).dispatchable 0 .rx = true ∧ (machine pByte (receiving [] 1 2)).dispatchable 0 .rx = true ∧
    ((machine pByte (receiving [1] 1 2)).chan 0).flags.rxInFlight = true ∧
    ((machine pByte (receiving [1] 1 2)).chan 0).par.rxCap = 0 ∧ (machine pByte (receiving [1] 1 2)).consumer.headD [] = [] ∧
    bufferFits 0x20000100 2 = true ∧ (1 : Word) < 2 := by decide

theorem witness_ProtocolScanReportsTheFirstMatch :
    (machine pFifo fun ch => { (opened ch).pend .pr with pstat := 0x10 }).dispatchable 0 .pr = true ∧
    (machine pFifo opened).par.protoMon = true ∧ (machine pFifo opened).consumer.headD [] = [] ∧
    (4, Event.collision) ∈ faultTable ∧ (0x10 : BitVec 8).getLsbD 4 = true ∧ (0x1F00 : EventMask).getLsbD (8 + 4) = true ∧
    (∀ j < 4, (0x10 : BitVec 8).getLsbD j = false) ∧
    (machine pFifo fun ch => (opened ch).pend .pr).dispatchable 0 .pr = true ∧
    ((machine pFifo fun ch => (opened ch).pend .pr).chan 0).pstat = 0 := by decide
theorem witness_NoProtocolPathWithoutMonitoring :
    (State.resetWith { Config.defaultParams with protoMon := false } [pFifo]).par.protoMon = false ∧
    ∃ t, exec (.initOpen 0) (State.resetWith { Config.defaultParams with protoMon := false } [pFifo]) = .next t :=
  ⟨rfl, _, rfl⟩
theorem witness_ShiftMovesTheHeadToTheLine : ((machine pFifo (sending [7] 2 2)).chan 0).run = true ∧
    ((machine pFifo (sending [7] 2 2)).chan 0).txq = [7] ∧ ((machine pFifo (sending [7] 2 2)).chan 0).par.loopTo = none ∧
    (fifoOpen.chan 0).run = true ∧ (fifoOpen.chan 0).txq = [] ∧ (fifoOpen.chan 1).run = false := by decide
theorem witness_LoopbackDeliversInTheSameStep : ((machine pLoop (sending [7] 2 2)).chan 0).run = true ∧
    ((machine pLoop (sending [7] 2 2)).chan 0).txq = [7] ∧ ((machine pLoop (sending [7] 2 2)).chan 0).par.loopTo = some 0 ∧
    ((machine pLoop (sending [7] 2 2)).chan 0).takesUnit = true ∧
    ((machine pLoop fun ch => { sending [7] 2 2 ch with rxq := [1, 2] }).chan 0).takesUnit = false := by decide
theorem witness_LoopbackDeliversInTheSameStep_other :
    ((machine { pLoop with loopTo := some 1 } (sending [7] 2 2)).chan 0).par.loopTo = some 1 ∧
    1 < (machine { pLoop with loopTo := some 1 } (sending [7] 2 2)).nch ∧
    ((machine { pLoop with loopTo := some 1 } (sending [7] 2 2)).chan 1).run = false ∧
    (((machine { pLoop with loopTo := some 1 } (sending [7] 2 2)).modChan 1 opened).chan 1).run = true := by decide
theorem witness_ArrivalQueuesTheUnitWhereThereIsRoom :
    HasRoom ((machine pFifo fun ch => { opened ch with rxq := [1, 2, 3] }).chan 0) ∧
    (∀ b < (machine pFifo opened).nch, ((machine pFifo opened).chan b).par.loopTo ≠ some 0) ∧
    ¬HasRoom ((machine pFifo fun ch => { opened ch with rxq := [1, 2, 3, 4] }).chan 0) ∧
    ((machine pLoop opened).chan 0).par.loopTo = some 0 := by
  unfold HasRoom; decide
theorem witness_DetectionSetsTheFlag : (fifoOpen.chan 0).run = true ∧ 4 < 5 ∧ (fifoOpen.chan 1).run = false ∧ 1 < fifoOpen.nch := by
  decide
theorem witness_StoppedChannelHasNoEnvironmentStep : 1 < fifoOpen.nch ∧ 4 < 5 ∧ (fifoOpen.chan 1).run = false := by decide

theorem witness_HandlerRunsOnlyWhenDispatchable : 0 < suspended.nch ∧ suspended.dispatchable 0 .pr = true ∧
    suspended.dispatchable 0 .tx = false ∧ fifoOpen.dispatchable 0 .rx = false := by decide
theorem witness_HostWaitsForInterrupts : (Instr.rx 0 0x20000100 4).wf fifoOpen.nch = true ∧
    (Instr.rx 0 0x20000100 4).isCommand = true ∧ fifoOpen.par.hostRelaxed = false ∧ fifoOpen.active = [] ∧
    fifoOpen.anyDispatchable = false ∧ (machine pByte (sending [] 0 2)).par.hostRelaxed = false ∧
    (machine pByte (sending [] 0 2)).anyDispatchable = true := by decide
theorem witness_PendingClearedByDispatchAloneEnablesStay :
    (∃ t, exec (.envTxShift 0) (machine pFifo (sending [7] 2 2)) = .next t) ∧
    ((machine pFifo (sending [7] 2 2)).chan 0).vTx.pend = true ∧ Instr.envTxShift 0 ≠ irqOf 0 .tx ∧
    ((machine pFifo (sending [7] 2 2)).chan 0).vTx.en = true := ⟨⟨_, rfl⟩, by decide⟩
theorem witness_OnlyAWaitingHandlerStaysActive :
    (∃ t, exec (.irqTx 0) (machine pFifo (sending [7] 2 2)) = .next t ∧ t.active = [(0, .tx)]) ∧
    (∃ t, exec (.txDone 0) (suspended.modChan 0 fun ch => { ch with txq := [] }) = .next t ∧ t.active = []) ∧
    ∃ t, exec (.initOpen 1) fifoOpen = .next t ∧ t.active = [] := ⟨⟨_, rfl, rfl⟩, ⟨_, rfl, rfl⟩, ⟨_, rfl, rfl⟩⟩
theorem witness_OnlyHandlersEmitRecords :
    ∃ t, exec (.irqTx 0) (machine pFifo (sending [] 2 2)) = .next t ∧ t.cbLog.length = 1 := ⟨_, rfl, rfl⟩
theorem witness_RequestInItsOwnCallbackIsBusy :
    (machine pFifo (sending [] 2 2)).dispatchable 0 .tx = true ∧
    ((machine pFifo (sending [] 2 2)).chan 0).flags.stateWord = 0x07 ∧ ((machine pFifo (sending [] 2 2)).chan 0).txWait = false ∧
    ((machine pFifo (sending [] 2 2)).chan 0).tx.idx = ((machine pFifo (sending [] 2 2)).chan 0).tx.len ∧
    ((machine pFifo (sending [] 2 2)).chan 0).txq = [] ∧ decodeCmd 2 wTx = .ok (.tx 0 0x20000000 1) ∧
    decodeCmd 2 wRx = .ok (.rx 0 0x20000100 1) ∧
    ({ machine pFifo (sending [] 2 2) with consumer := [[wTx, wRx]] } : State).consumer.headD [] = [wTx, wRx] := by decide
theorem witness_NestedCommandOnASuspendedTransmitIsRefused : suspended.par.protoMon = true ∧
    suspended.dispatchable 0 .pr = true ∧ (0, Event.syncBreak) ∈ faultTable ∧ (suspended.chan 0).pstat.getLsbD 0 = true ∧
    (suspended.chan 0).even.getLsbD (8 + 0) = true ∧
    ({ suspended with consumer := [[wAbortTx]] } : State).consumer.headD [] = [wAbortTx] ∧
    decodeCmd suspended.nch wAbortTx = .ok (.abortTx 0) ∧ targetsTransmit (.abortTx 0) = true ∧
    (suspended.chan (Instr.abortTx 0).ch).txWait = true := by decide
theorem witness_InterruptNumberNamesItsVector : 3 < State.reset.nch ∧ State.reset.irqNumbers.Nodup := by decide

theorem witness_FailedCommandChangesNothing : (Instr.tx 0 0 1).isCommand = true ∧
    (∃ t, exec (.tx 0 0 1) State.reset = .next t ∧
      t.statusLog = State.reset.statusLog ++ [{ ctx := .mainLine, status := .invalidArgument }]) ∧
    Status.invalidArgument ≠ .success := ⟨rfl, ⟨_, rfl, rfl⟩, by decide⟩
theorem witness_OutOfBoundIsNeverReturned :
    ∃ t, step (State.reset.withFetchWord 80 0x01000000000100000000) = .next t := ⟨_, rfl⟩
theorem witness_OnlyTheReceiveHandlerWritesItsBuffer :
    ∃ t, exec (.irqRx 0) (machine pFifo (receiving [7] 0 2)) = .next t ∧
      t.mem.read 0x20000100 ≠ (machine pFifo (receiving [7] 0 2)).mem.read 0x20000100 := ⟨_, rfl, by decide⟩
theorem witness_ConfigurationIsImmutable : ∃ t, exec (.setBaud 0 115200) byteOpen = .next t :=
  ⟨_, rfl⟩
theorem witness_ChannelsDoNotInterfere : (∃ t, exec (.envTxShift 0) (machine pLoop (sending [7] 2 2)) = .next t) ∧
    (Instr.envTxShift 0).ch ≠ 1 ∧ ((machine pLoop (sending [7] 2 2)).chan 0).par.loopTo ≠ some 1 ∧
    (∀ w ∈ (machine pLoop (sending [7] 2 2)).consumer.headD [], ∀ j, decodeCmd 2 w = .ok j → j.ch ≠ 1) :=
  ⟨⟨_, rfl⟩, by decide, by decide, fun w h => by cases h⟩
theorem witness_UnitsLeaveInTheOrderPushed : (∃ t, exec (.irqTx 0) (withBytes (machine pFifo (sending [7] 1 2))) = .next t) ∧
    (Instr.irqTx 0).isCommand = false ∧ (withBytes (machine pFifo (sending [7] 1 2))).consumerSilent ∧
    Memory.wf (withBytes (machine pFifo (sending [7] 1 2))).mem := ⟨⟨_, rfl⟩, rfl, rfl, by decide⟩
/-- A fill, a shift, a transmit request that flushes, and an abandoned transmit. -/
theorem witness_UnitsLeaveInTheOrderPushed_transmit :
    (∃ t, exec (.irqTx 0) (withBytes (machine pFifo (sending [7] 1 4))) = .next t) ∧
    (∃ t, exec (.envTxShift 0) (machine pFifo (sending [7, 8] 2 4)) = .next t) ∧
    (∃ t, exec (.tx 0 0x20000000 2) (machine pFifo fun ch => { opened ch with txq := [1] }) = .next t) ∧
    ∃ t, exec (.abortTx 0) { machine pFifo (sending [7, 8] 2 4) with par := { Config.defaultParams with hostRelaxed := true } } =
      .next t := ⟨⟨_, rfl⟩, ⟨_, rfl⟩, ⟨_, rfl⟩, ⟨_, rfl⟩⟩
/-- A delivery to memory, an arrival, an overrun, and a receive request that flushes. -/
theorem witness_UnitsLeaveInTheOrderPushed_receive :
    (∃ t, exec (.irqRx 0) (machine pFifo (receiving [1, 2] 0 5)) = .next t) ∧
    (∃ t, exec (.envRxArrive 0 3) fifoOpen = .next t) ∧
    (∃ t, exec (.envRxArriveAlt 0 3) (machine pByte fun ch => { opened ch with rxq := [1] }) = .next t) ∧
    (∃ t, exec (.rx 0 0x20000100 2) (machine pFifo fun ch => { opened ch with rxq := [1] }) = .next t) ∧
    Memory.wf fifoOpen.mem := ⟨⟨_, rfl⟩, ⟨_, rfl⟩, ⟨_, rfl⟩, ⟨_, rfl⟩, by decide⟩
theorem witness_CloseAndReopenIsNoReset : (fifoOpen.chan 0).txq = [] ∧
    ∃ t u, exec (.initClose 0) fifoOpen = .next t ∧ exec (.initOpen 0) t = .next u := ⟨rfl, _, _, rfl, rfl⟩
theorem witness_ResetValues : 3 < ((List.range Config.defaultNch).map Config.defaultChan).length := by decide
theorem witness_OnlyTheHostStepsAfterReset : (Instr.tx 3 1 1).wf [pByte, pByte, pByte, pByte].length = true ∧
    (Instr.tx 3 1 1).isCommand = true ∧ (Instr.irqRx 3).wf [pByte, pByte, pByte, pByte].length = true ∧
    (Instr.irqRx 3).isCommand = false := by decide
theorem witness_InvariantHoldsAtReset : Config.paramsOk Config.defaultBaudWl
    [pFifo, { pLoop with txIrq := 3, rxIrq := 4, prIrq := 5 }, Config.defaultChan 2] = true := by decide
/-- R5: a whitelist with 57600, or without one of the six rates, breaks the constraint. -/
theorem test_baud_list : Config.paramsOk [57600] [] = false ∧ Config.paramsOk (57600 :: Config.defaultBaudWl) [] = false ∧
    Config.paramsOk (2400 :: Config.defaultBaudWl) [] = true := by decide
/-- R5: a number used twice breaks the constraint. -/
theorem test_irq_numbers_distinct : Config.paramsOk Config.defaultBaudWl [pByte, pFifo] = false := by decide

/-! States that meet the invariant. -/

/-- Channel 1 of every `machine` stays at reset. -/
theorem reset_channel_inv : (Chan.reset (Config.defaultChan 1)).Inv 2 Config.defaultParams := by
  constructor <;> first | decide | (intro k; cases k <;> decide)
/-- A machine meets the invariant where channel 0 does and no handler is active. -/
theorem machine_inv (p : ChanParams) (f : Chan → Chan) (h : (f (Chan.reset p)).Inv 2 Config.defaultParams)
    (hw : (f (Chan.reset p)).txWait = false) (hi : (machine p f).irqNumbers.Nodup) : (machine p f).Inv where
  baud_list := (by decide : Config.baudWlOk Config.defaultParams.baudWl = true)
  irq_distinct := hi
  channels := by
    intro c hc
    match c, hc with
    | 0, _ => exact h
    | 1, _ => exact reset_channel_inv
  memory := ⟨List.Pairwise.nil, fun x h => by cases h⟩
  active_waits := by
    rintro ⟨c, k⟩
    constructor
    · intro hv; cases hv
    · rintro ⟨-, hc, ht⟩
      match c, hc with
      | 0, _ => simp [machine, State.chan, State.modChan, State.resetWith, hw] at ht
      | 1, _ => cases ht
  active_ranked := List.Pairwise.nil
theorem byteOpen_inv : byteOpen.Inv :=
  machine_inv _ _ (by constructor <;> first | decide | (intro k; cases k <;> decide)) rfl (by decide)
theorem sending_inv : (machine pByte (sending [] 1 2)).Inv :=
  machine_inv _ _ (by constructor <;> first | decide | (intro k; cases k <;> decide)) rfl (by decide)
theorem receiving_inv : (machine pFifo (receiving [1, 2, 3, 4] 0 5)).Inv :=
  machine_inv _ _ (by constructor <;> first | decide | (intro k; cases k <;> decide)) rfl (by decide)
theorem abandoned_inv : (machine pByte fun ch => ((sending [] 1 2 ch).acceptRx 0x20000100 1).abandonRx.abandonTx).Inv :=
  machine_inv _ _ (by constructor <;> first | decide | (intro k; cases k <;> decide)) rfl (by decide)

theorem witness_StepKeepsTheInvariant : (machine pByte (sending [] 1 2)).Inv ∧
    ∃ t, exec (.irqTx 0) (machine pByte (sending [] 1 2)) = .next t := ⟨sending_inv, _, rfl⟩
theorem witness_NoStepFaults : (machine pFifo (receiving [1, 2, 3, 4] 0 5)).Inv := receiving_inv
theorem witness_EnabledStepIsCarriedOut : (machine pByte (sending [] 1 2)).Inv ∧
    (Instr.irqTx 0).wf (machine pByte (sending [] 1 2)).nch = true ∧
    (machine pByte (sending [] 1 2)).enabled (.irqTx 0) = true ∧
    (machine pByte (sending [] 1 2)).consumerAdmitted (finishingHandler (.irqTx 0)) :=
  ⟨sending_inv, by decide, by decide, fun w h => by cases h⟩
theorem witness_DisabledStepIsRefused : fifoOpen.enabled (.irqTx 0) = false := by decide
theorem witness_LockLeftByAbortIsAbsorbing :
    (machine pByte fun ch => ((sending [] 1 2 ch).acceptRx 0x20000100 1).abandonRx.abandonTx).Inv ∧
    ((machine pByte fun ch => ((sending [] 1 2 ch).acceptRx 0x20000100 1).abandonRx.abandonTx).chan 0).flags.stateWord = 0x0B ∧
    ∃ t, step { (machine pByte fun ch => ((sending [] 1 2 ch).acceptRx 0x20000100 1).abandonRx.abandonTx) with
      sched := [.word (.sch 0x0000)] } = .next t := ⟨abandoned_inv, by decide, _, rfl⟩
theorem witness_ReceiveLimitStaysWithinTheRequest : (machine pFifo (receiving [1, 2, 3, 4] 0 5)).Inv ∧
    (∀ c < (machine pFifo (receiving [1, 2, 3, 4] 0 5)).nch,
      ((machine pFifo (receiving [1, 2, 3, 4] 0 5)).chan c).par.rxLim0 = 0) ∧
    LimitWithinRequest (machine pFifo (receiving [1, 2, 3, 4] 0 5)) ∧
    ∃ t, exec (.irqRx 0) (machine pFifo (receiving [1, 2, 3, 4] 0 5)) = .next t :=
  ⟨receiving_inv, by decide, by unfold LimitWithinRequest; decide, _, rfl⟩
theorem witness_ByteModeTransmitCompletes : byteOpen.Inv ∧ byteOpen.consumerSilent ∧ byteOpen.active = [] ∧
    (∀ d < byteOpen.nch, ∀ k, ((byteOpen.chan d).vec k).wants = false) ∧ (byteOpen.chan 0).par.txCap = 0 ∧
    (byteOpen.chan 0).par.loopTo = none ∧ (byteOpen.chan 0).flags.init = true ∧ (byteOpen.chan 0).flags.txLock = false ∧
    bufferFits 0x20000000 2 = true := by
  refine ⟨byteOpen_inv, rfl, rfl, ?_, by decide⟩
  intro d hd k
  match d, hd with
  | 0, _ => cases k <;> rfl
  | 1, _ => cases k <;> rfl
theorem fifoOpen_inv : fifoOpen.Inv :=
  machine_inv _ _ (by constructor <;> first | decide | (intro k; cases k <;> decide)) rfl (by decide)
theorem witness_FifoModeTransmitCompletes : fifoOpen.Inv ∧ fifoOpen.consumerSilent ∧ fifoOpen.active = [] ∧
    (∀ d < fifoOpen.nch, ∀ k, ((fifoOpen.chan d).vec k).wants = false) ∧ (fifoOpen.chan 0).par.txCap ≠ 0 ∧
    (fifoOpen.chan 0).txLimit = 1 ∧ (fifoOpen.chan 0).par.loopTo = none ∧ (fifoOpen.chan 0).flags.init = true ∧
    (fifoOpen.chan 0).flags.txLock = false ∧ bufferFits 0x20000000 5 = true := by
  refine ⟨fifoOpen_inv, rfl, rfl, ?_, by decide⟩
  intro d hd k
  match d, hd with
  | 0, _ => cases k <;> rfl
  | 1, _ => cases k <;> rfl

end Sys2Proof.Tests
end

namespace Sys2Proof.Machine

/-! One rule per register a channel operation writes: what the new value must satisfy for the invariant to stay. -/

section ChannelRules

variable {nch : Nat} {p : Params} {ch : Chan}

/-- A receive queue within its depth (R122). -/
theorem Chan.Inv.set_rxq (h : ch.Inv nch p) (q : List Byte) (hq : q.length ≤ ch.rxDepth) :
    ({ ch with rxq := q } : Chan).Inv nch p :=
  { h with rx_level := hq }

/-- A transmit queue within its depth; in byte mode it holds a unit only in flight, and none while the vector is pending
(R122, R136 (c)). -/
theorem Chan.Inv.set_txq (h : ch.Inv nch p) (q : List Byte) (hq : q.length ≤ ch.txDepth)
    (hunit : ch.txFifo = false → q ≠ [] → ch.flags.txInFlight = true)
    (hpend : ch.txFifo = false → ch.vTx.pend = true → q = []) :
    ({ ch with txq := q } : Chan).Inv nch p :=
  { h with
    tx_level := hq
    byte_unit := fun hf hq => hunit hf (by rintro rfl; cases hq)
    byte_pending := fun hf hp => by simp [hpend hf hp, Chan.txEmpty, Chan.txLevel] }

/-- What is left of the transmit queue when units go from its head. -/
theorem Chan.Inv.drop_txq (h : ch.Inv nch p) {q : List Byte} (hq : q <:+ ch.txq) :
    ({ ch with txq := q } : Chan).Inv nch p := by
  have hempty : ch.txEmpty = true → q = [] := fun he => by
    have : ch.txq = [] := by simpa [Chan.txEmpty, Chan.txLevel] using he
    simpa [this] using hq
  refine h.set_txq q (hq.length_le.trans h.tx_level) (fun hf hne => h.byte_unit hf ?_)
    fun hf hp => hempty (h.byte_pending hf hp)
  cases he : ch.txEmpty
  · rfl
  · exact absurd (hempty he) hne

/-- The transmit control block and flags (R15, R16, R42, R133, R136 (c)). -/
theorem Chan.Inv.set_tx (h : ch.Inv nch p) (t : Tcb) (busy lock : Bool) (hidx : t.idx ≤ t.len)
    (hlock : busy = true → lock = true)
    (hbuf : (lock && busy) = true → t.ptr ≠ 0 ∧ bufferFits t.ptr t.len = true)
    (hunit : ch.txFifo = false → ch.txEmpty = false → (lock && busy) = true)
    (hwait : ch.txWait = true → (lock && busy) = true ∧ t.idx = t.len) :
    ({ ch with tx := t, flags := { ch.flags with txBusy := busy, txLock := lock } } : Chan).Inv nch p :=
  { h with
    tx_index := hidx
    tx_busy_locked := hlock
    tx_buffer := hbuf
    byte_unit := hunit
    waiting := fun hw => ⟨(hwait hw).1, (hwait hw).2, (h.waiting hw).2.2⟩ }

/-- The receive control block and flags (R15, R16, R42, R144 (c)). -/
theorem Chan.Inv.set_rx (h : ch.Inv nch p) (t : Tcb) (busy lock : Bool) (hidx : t.idx ≤ t.len)
    (hlock : busy = true → lock = true)
    (hbuf : (lock && busy) = true → t.ptr ≠ 0 ∧ bufferFits t.ptr t.len = true ∧ t.idx < t.len) :
    ({ ch with rx := t, flags := { ch.flags with rxBusy := busy, rxLock := lock } } : Chan).Inv nch p :=
  { h with rx_index := hidx, rx_busy_locked := hlock, rx_buffer := hbuf }

/-- A receive limit within the capacity (R25, R122). -/
theorem Chan.Inv.set_rxLim (h : ch.Inv nch p) (l : Word) (hl : ch.rxFifo = true → l.toNat + 1 ≤ ch.par.rxCap) :
    ({ ch with rxLim := l } : Chan).Inv nch p :=
  { h with rx_limit := hl }

/-- The transmit limit, which the invariant leaves free. -/
theorem Chan.Inv.set_txLimit (h : ch.Inv nch p) (l : Word) : ({ ch with txLimit := l } : Chan).Inv nch p := { h with }

/-- The line's record, which the invariant leaves free. -/
theorem Chan.Inv.set_txLine (h : ch.Inv nch p) (l : List Byte) : ({ ch with txLine := l } : Chan).Inv nch p := { h with }

/-- Event enables among the named ones (R26, U14). -/
theorem Chan.Inv.set_even (h : ch.Inv nch p) (e : EventMask) (he : e &&& ~~~Config.namedEvents = 0) :
    ({ ch with even := e } : Chan).Inv nch p :=
  { h with even_named := he }

/-- Protocol status bits among the named ones (R27, U14). -/
theorem Chan.Inv.set_pstat (h : ch.Inv nch p) (v : BitVec 8) (hv : v &&& 0xE0 = 0) :
    ({ ch with pstat := v } : Chan).Inv nch p :=
  { h with pstat_named := hv }

/-- A rate of the whitelist (R20). -/
theorem Chan.Inv.set_baud (h : ch.Inv nch p) (v : Word) (hv : p.baudWl.contains v = true) :
    ({ ch with baud := v } : Chan).Inv nch p :=
  { h with baud_listed := hv }

/-- INIT and RUN together; to open a channel its vectors must be enabled (R75, R76). -/
theorem Chan.Inv.set_open (h : ch.Inv nch p) (b : Bool)
    (hb : b = true → ch.vTx.en = true ∧ ch.vRx.en = true ∧ (p.protoMon = true → ch.vPr.en = true)) :
    ({ ch with run := b, flags := { ch.flags with init := b } } : Chan).Inv nch p :=
  { h with open_runs := rfl, open_vectors := hb }

/-- The wait of a transmit handler that has pushed everything (R133). -/
theorem Chan.Inv.set_txWait (h : ch.Inv nch p) (b : Bool)
    (hb : b = true → ch.flags.txInFlight = true ∧ ch.tx.idx = ch.tx.len ∧ ch.vTx.en = true) :
    ({ ch with txWait := b } : Chan).Inv nch p :=
  { h with waiting := hb }

/-- The registers of one vector: it stays enabled, an enabled one has its configured priority, an unmonitored protocol
vector keeps its reset values, and a pending byte-mode transmit vector has an empty buffer (R28, R75, R136 (c)). -/
theorem Chan.Inv.modVec (h : ch.Inv nch p) (k : Vec) (f : VecRegs → VecRegs)
    (hen : (ch.vec k).en = true → (f (ch.vec k)).en = true)
    (hprio : (f (ch.vec k)).en = true → (f (ch.vec k)).prio = ch.configuredPrio k)
    (hmon : k = .pr → p.protoMon = false → f VecRegs.reset = VecRegs.reset)
    (hpend : k = .tx → ch.txFifo = false → (f ch.vTx).pend = true → ch.txEmpty = true) :
    (ch.modVec k f).Inv nch p := by
  have hprio' : ∀ j, ((ch.modVec k f).vec j).en = true → ((ch.modVec k f).vec j).prio = ch.configuredPrio j := by
    intro j
    rw [Chan.vec_modVec]
    split
    · next hj => exact hj ▸ hprio
    · exact h.enabled_prio j
  cases k with
  | tx =>
    exact { h with
      open_vectors := fun hi => (h.open_vectors hi).imp_left hen
      enabled_prio := fun j => by cases j <;> exact hprio' _
      byte_pending := hpend rfl
      waiting := fun hw => (h.waiting hw).imp_right (And.imp_right hen) }
  | rx =>
    exact { h with
      open_vectors := fun hi => (h.open_vectors hi).imp_right (And.imp_left hen)
      enabled_prio := fun j => by cases j <;> exact hprio' _ }
  | pr =>
    exact { h with
      open_vectors := fun hi => (h.open_vectors hi).imp_right (And.imp_right fun hv hm => hen (hv hm))
      enabled_prio := fun j => by cases j <;> exact hprio' _
      no_monitor := fun hm => (congrArg f (h.no_monitor hm)).trans (hmon rfl hm) }

end ChannelRules

/-! Reserved bits: a mask that reads 0 keeps doing so under the bit operations of R107, R113, R119. -/

theorem masked_and {w : Nat} {x m : BitVec w} (y : BitVec w) (hx : x &&& m = 0) : x &&& y &&& m = 0 := by
  rw [BitVec.and_assoc, BitVec.and_comm y, ← BitVec.and_assoc, hx]
  exact BitVec.zero_and

theorem masked_or {w : Nat} {x y m : BitVec w} (hx : x &&& m = 0) (hy : y &&& m = 0) : (x ||| y) &&& m = 0 := by
  rw [BitVec.and_or_distrib_right, hx, hy]
  exact BitVec.or_zero

/-! The named channel operations keep the invariant. -/

section ChannelOperations

variable {nch : Nat} {p : Params} {ch : Chan}

/-- Where no transmit is in flight, a byte-mode buffer is empty (R136 (c)). -/
theorem Chan.Inv.txEmpty_of_idle (h : ch.Inv nch p) (hf : ch.txFifo = false) (hi : ch.flags.txInFlight = false) :
    ch.txEmpty = true := by
  cases he : ch.txEmpty
  · exact absurd (h.byte_unit hf he) (by simp [hi])
  · rfl

/-- A transmit in flight whose index is below its length has no waiting handler (R133). -/
theorem Chan.Inv.not_waiting (h : ch.Inv nch p) (hi : ch.tx.idx < ch.tx.len) : ch.txWait = false := by
  cases hw : ch.txWait
  · rfl
  · have := (h.waiting hw).2.1
    rw [this] at hi
    exact absurd hi (BitVec.lt_irrefl _)

/-- An event that holds pends a vector (R171). -/
theorem Chan.Inv.pendIf (h : ch.Inv nch p) (k : Vec) (b : Bool)
    (hmon : k = .pr → b = true → p.protoMon = true) (hpend : k = .tx → b = true → ch.txFifo = false → ch.txEmpty = true) :
    (ch.pendIf k b).Inv nch p := by
  cases b with
  | false => exact h
  | true =>
    exact h.modVec k (fun v => { v with pend := true }) id (h.enabled_prio k)
      (fun hk hm => absurd (hmon hk rfl) (by simp [hm])) fun hk hf _ => hpend hk rfl hf

/-- Dispatch clears a pending bit (R175). -/
theorem Chan.Inv.unpend (h : ch.Inv nch p) (k : Vec) : (ch.unpend k).Inv nch p :=
  h.modVec k _ id (h.enabled_prio k) (fun _ _ => rfl) fun _ _ hp => by cases hp

/-- A vector gets its configured priority and is enabled (R115). -/
theorem Chan.Inv.nvicEnable (h : ch.Inv nch p) (k : Vec) (hmon : k = .pr → p.protoMon = true) : (ch.nvicEnable k).Inv nch p :=
  h.modVec k _ (fun _ => rfl) (fun _ => rfl) (fun hk hm => absurd (hmon hk) (by simp [hm])) fun _ hf hp => h.byte_pending hf hp

/-- Enabling named events keeps EVEN named (R26, R107). -/
theorem Chan.Inv.evEnable (h : ch.Inv nch p) (m : EventMask) (hm : m &&& ~~~Config.namedEvents = 0) :
    (ch.evEnable m).Inv nch p :=
  h.set_even _ (masked_or h.even_named hm)

/-- Disabling events keeps EVEN named (R107). -/
theorem Chan.Inv.evDisable (h : ch.Inv nch p) (m : EventMask) : (ch.evDisable m).Inv nch p :=
  h.set_even _ (masked_and _ h.even_named)

/-- The transmit events are named ones (R100). -/
theorem Chan.txEvm_named (ch : Chan) : ch.txEvm &&& ~~~Config.namedEvents = 0 := by
  unfold Chan.txEvm
  split <;> decide

/-- The receive events are named ones (R100). -/
theorem Chan.rxEvm_named (ch : Chan) : ch.rxEvm &&& ~~~Config.namedEvents = 0 := by
  unfold Chan.rxEvm
  split <;> decide

/-- LIMIT of at least one remaining unit stays within the capacity (R106). -/
theorem Chan.Inv.rxSetLimit (h : ch.Inv nch p) (n : Nat) (h0 : 0 < n) (hn : n < 2 ^ 32) : (ch.rxSetLimit n).Inv nch p := by
  refine h.set_rxLim _ fun hf => ?_
  have hcap : ch.par.rxCap ≠ 0 := by simpa [Chan.rxFifo] using hf
  rw [BitVec.toNat_ofNat, rxLimitFor, Nat.mod_eq_of_lt (by omega)]
  omega

/-- A cleared protocol flag (R113). -/
theorem Chan.Inv.clearFlag (h : ch.Inv nch p) (i : Nat) : (ch.clearFlag i).Inv nch p :=
  h.set_pstat _ (masked_and _ h.pstat_named)

/-- A protocol condition of the fault table is flagged, and pends its vector where it exists (R119). -/
theorem Chan.Inv.detect (h : ch.Inv nch p) (i : Nat) (hi : i < 5) : (ch.detect p.protoMon i).Inv nch p := by
  have hbit : BitVec.twoPow 8 i &&& 0xE0 = 0 := by interval_cases i <;> decide
  have hset : (ch.setFlag i).Inv nch p :=
    h.set_pstat _ (masked_or h.pstat_named hbit)
  refine hset.pendIf .pr _ (fun _ hb => ?_) (fun hk => by cases hk)
  simp only [Bool.and_eq_true] at hb
  exact hb.1

/-- The transmit direction's end: busy and pointer cleared, the lock set as given (R87, R134). -/
theorem Chan.Inv.end_tx (h : ch.Inv nch p) (lock : Bool) (hw : ch.txWait = false)
    (he : ch.txFifo = false → ch.txEmpty = true) :
    ({ ch with tx := { ch.tx with ptr := 0 }, flags := { ch.flags with txBusy := false, txLock := lock } } : Chan).Inv nch p :=
  h.set_tx { ch.tx with ptr := 0 } false lock h.tx_index (by simp) (by simp) (fun hf hn => by simp [he hf] at hn)
    (by simp [hw])

/-- The receive direction's end: busy cleared, pointer and lock set as given (R88, R147). -/
theorem Chan.Inv.end_rx (h : ch.Inv nch p) (a : Word) (lock : Bool) :
    ({ ch with rx := { ch.rx with ptr := a }, flags := { ch.flags with rxBusy := false, rxLock := lock } } : Chan).Inv nch p :=
  h.set_rx { ch.rx with ptr := a } false lock h.rx_index (by simp) (by simp)

/-- Opening (R75). -/
theorem Chan.Inv.openClosed (h : ch.Inv nch p) : (ch.openClosed p.protoMon).Inv nch p := by
  have hp := h.params
  simp only [Config.chanParamsOk, Bool.and_eq_true, Bool.or_eq_true, beq_iff_eq, decide_eq_true_eq] at hp
  obtain ⟨⟨⟨⟨-, hlim⟩, -⟩, heven⟩, -⟩ := hp
  have hconf : ch.configure.setInputSource.txFifoConfigure.rxFifoConfigure.Inv nch p :=
    ((((h.set_even _ heven).drop_txq List.nil_suffix).set_txLimit _).set_rxq [] (Nat.zero_le _)).set_rxLim _ fun hf =>
      hlim.resolve_left (by simpa [Chan.rxFifo] using hf)
  have henabled := (hconf.nvicEnable .tx (fun hk => by cases hk)).nvicEnable .rx (fun hk => by cases hk)
  unfold Chan.openClosed
  cases hm : p.protoMon with
  | false => exact henabled.set_open true fun _ => ⟨rfl, rfl, fun hm' => by simp [hm] at hm'⟩
  | true => exact (henabled.nvicEnable .pr fun _ => hm).set_open true fun _ => ⟨rfl, rfl, fun _ => rfl⟩

/-- An accepted TX (R85). -/
theorem Chan.Inv.acceptTx (h : ch.Inv nch p) {a b : Word} (ha : a ≠ 0) (hfit : bufferFits a b = true)
    (hw : ch.txWait = false) (hl : ch.flags.txLock = false) : (ch.acceptTx a b).Inv nch p := by
  have hempty : ch.txFifo = false → ch.txEmpty = true := fun hf =>
    h.txEmpty_of_idle hf (by simp [ChanFlags.txInFlight, hl])
  have hreq := h.set_tx { ptr := a, len := b, idx := 0 } true true (Nat.zero_le _) (fun _ => rfl) (fun _ => ⟨ha, hfit⟩)
    (fun _ _ => rfl) (by simp [hw])
  unfold Chan.acceptTx
  dsimp only
  split
  · next hf =>
    exact ((hreq.drop_txq List.nil_suffix).evEnable _ (Chan.txEvm_named _)).pendIf .tx true (fun hk => by cases hk)
      fun _ _ _ => rfl
  · exact (hreq.evEnable _ (Chan.txEvm_named _)).pendIf .tx true (fun hk => by cases hk) fun _ _ => hempty

/-- An accepted RX (R86). -/
theorem Chan.Inv.acceptRx (h : ch.Inv nch p) {a b : Word} (ha : a ≠ 0) (hb : b ≠ 0) (hfit : bufferFits a b = true) :
    (ch.acceptRx a b).Inv nch p := by
  have hpos : (0 : Word) < b := (BitVec.pos_iff_ne_zero b).2 hb
  have hreq := h.set_rx { ptr := a, len := b, idx := 0 } true true (Nat.zero_le _) (fun _ => rfl) fun _ => ⟨ha, hfit, hpos⟩
  unfold Chan.acceptRx
  dsimp only
  split
  · exact ((hreq.set_rxq [] (Nat.zero_le _)).rxSetLimit b.toNat hpos b.isLt).evEnable _ (Chan.rxEvm_named _)
  · exact hreq.evEnable _ (Chan.rxEvm_named _)

/-- An abandoned transmit (R87): in byte mode the buffer is emptied first. -/
theorem Chan.Inv.abandonTx (h : ch.Inv nch p) (hw : ch.txWait = false) (he : ch.txFifo = false → ch.txEmpty = true) :
    ch.abandonTx.Inv nch p :=
  (h.end_tx ch.flags.txLock hw he).evDisable _

/-- An abandoned receive (R88). -/
theorem Chan.Inv.abandonRx (h : ch.Inv nch p) : ch.abandonRx.Inv nch p := (h.end_rx 0 ch.flags.rxLock).evDisable _

/-- The clears after TX_COMPLETE (R134). -/
theorem Chan.Inv.clearTx (h : ch.Inv nch p) (hw : ch.txWait = false) (he : ch.txEmpty = true) : ch.clearTx.Inv nch p :=
  h.end_tx false hw fun _ => he

/-- A unit leaves for the line (R117). -/
theorem Chan.Inv.shiftOut (h : ch.Inv nch p) (u : Byte) : (ch.shiftOut u).Inv nch p := by
  refine ((h.drop_txq (List.tail_suffix _)).set_txLine _).pendIf .tx _ (fun hk => by cases hk) fun _ _ hf => ?_
  have hdepth : ch.txq.length ≤ 1 := by
    have := h.tx_level
    rwa [Chan.txDepth, if_neg (by rw [show ch.txFifo = false from hf]; decide)] at this
  show (ch.txq.tail.length == 0) = true
  simpa [Nat.sub_eq_zero_iff_le] using hdepth

/-- A unit arrives in FIFO mode (R118). -/
theorem Chan.Inv.arriveFifo (h : ch.Inv nch p) (u : Byte) (alt : Bool) (hf : ch.rxFull = false) :
    (ch.arriveFifo u alt).Inv nch p := by
  have hroom : (ch.rxq ++ [u]).length ≤ ch.rxDepth := by
    have := h.rx_level
    simp only [Chan.rxFull, Chan.rxLevel, beq_eq_false_iff_ne] at hf this
    simp only [List.length_append, List.length_singleton]
    omega
  exact (h.set_rxq _ hroom).pendIf .rx _ (fun hk => by cases hk) (fun hk => by cases hk)

/-- A unit arrives in byte mode (R118). -/
theorem Chan.Inv.arriveByte (h : ch.Inv nch p) (u : Byte) (keep : Bool) (hf : ch.rxFifo = false) :
    (ch.arriveByte u keep).Inv nch p := by
  have hone : [u].length ≤ ch.rxDepth := by simp [Chan.rxDepth, hf]
  refine (h.set_rxq _ ?_).pendIf .rx _ (fun hk => by cases hk) (fun hk => by cases hk)
  split
  · exact hone
  · exact h.rx_level

/-- An index below the length stays within it when it advances (R16). -/
theorem Tcb.advance_idx_le {t : Tcb} (h : t.idx < t.len) : t.advance.idx ≤ t.len := by
  have hidx := t.advance_idx h
  have hlt : t.idx.toNat < t.len.toNat := h
  show t.advance.idx.toNat ≤ t.len.toNat
  omega

/-- One unit of the fill (R131, R132), from a transmit in flight whose byte-mode vector was served. -/
theorem Chan.Inv.fillOne (h : ch.Inv nch p) {m : Memory} {ch' : Chan} (hi : ch.flags.txInFlight = true)
    (hl : ch.tx.idx < ch.tx.len) (hpend : ch.vTx.pend = false) (hfill : ch.fillOne m = .ok ch') : ch'.Inv nch p := by
  obtain ⟨-, hfull, rfl⟩ := fillOne_ok _ _ _ hfill
  have hroom : (ch.txq ++ [m.read ch.tx.address]).length ≤ ch.txDepth := by
    have := h.tx_level
    simp only [Chan.txFull, Chan.txLevel, beq_eq_false_iff_ne] at hfull this
    simp only [List.length_append, List.length_singleton]
    omega
  have hadv := h.set_tx ch.tx.advance ch.flags.txBusy ch.flags.txLock (Tcb.advance_idx_le hl) h.tx_busy_locked (fun _ => h.tx_buffer hi)
    (fun _ _ => hi) (by simp [h.not_waiting hl])
  exact hadv.set_txq _ hroom (fun _ _ => hi) (by simp [hpend])

/-- The FIFO fill (R131). -/
theorem Chan.Inv.fillFifo (h : ch.Inv nch p) {m : Memory} {n : Nat} {ch' : Chan} (hi : ch.flags.txInFlight = true)
    (hpend : ch.vTx.pend = false) (hfill : ch.fillFifo m n = .ok ch') : ch'.Inv nch p := by
  induction n generalizing ch with
  | zero => cases hfill; exact h
  | succ n ih =>
    simp only [Chan.fillFifo] at hfill
    split at hfill
    · next hc =>
      simp only [Bool.and_eq_true, decide_eq_true_eq] at hc
      split at hfill
      · cases hfill
      · next c1 hone =>
        have h1 := h.fillOne hi hc.2 hpend hone
        obtain ⟨-, -, rfl⟩ := fillOne_ok _ _ _ hone
        exact ih h1 hi hpend hfill
    · cases hfill; exact h

/-- The fill phase (R131, R132). -/
theorem Chan.Inv.fill (h : ch.Inv nch p) {m : Memory} {ch' : Chan} (hi : ch.flags.txInFlight = true)
    (hl : ch.tx.idx < ch.tx.len) (hpend : ch.vTx.pend = false) (hfill : ch.fill m = .ok ch') : ch'.Inv nch p := by
  unfold Chan.fill at hfill
  split at hfill
  · exact h.fillFifo hi hpend hfill
  · exact h.fillOne hi hl hpend hfill

/-- The fill phase writes TXQ and TXIDX alone (R131, R132). -/
theorem fill_frame {m : Memory} {ch' : Chan} (h : ch.fill m = .ok ch') :
    ∃ q i, ch' = { ch with txq := q, tx := { ch.tx with idx := i } } := by
  unfold Chan.fill at h
  split at h
  · exact fillFifo_frame _ _ _ _ h
  · obtain ⟨-, -, rfl⟩ := fillOne_ok _ _ _ h
    exact ⟨_, _, rfl⟩

end ChannelOperations

/-! What a host command can make of its channel, whoever issues it, said once. -/

/-- What opening writes, as one update (R75). -/
theorem openClosed_eq (ch : Chan) (protoMon : Bool) : ch.openClosed protoMon = { ch with
    even := ch.par.evOpen
    txq := []
    txLimit := ch.par.txLim
    rxq := []
    rxLim := ch.par.rxLim0
    run := true
    vTx := { ch.vTx with en := true, prio := ch.par.txPrio }
    vRx := { ch.vRx with en := true, prio := ch.par.rxPrio }
    vPr := if protoMon then { ch.vPr with en := true, prio := ch.par.prPrio } else ch.vPr
    flags := { ch.flags with init := true } } := by
  unfold Chan.openClosed
  cases protoMon <;> simp [Chan.configure, Chan.setInputSource, Chan.txFifoConfigure, Chan.rxFifoConfigure, Chan.start,
    Chan.nvicEnable, Chan.modVec, Chan.configuredPrio]

/-- What an accepted TX writes, without the case split on the mode (R85). -/
theorem acceptTx_eq (ch : Chan) (a b : Word) : ch.acceptTx a b = ({ ch with
    tx := { ptr := a, len := b, idx := 0 }
    flags := { ch.flags with txBusy := true, txLock := true }
    txq := if ch.txFifo then [] else ch.txq
    even := ch.even ||| ch.txEvm } : Chan).pend .tx := by
  have hf : ({ ch with
    tx := { ptr := a, len := b, idx := 0 }
    flags := { ch.flags with txBusy := true, txLock := true } } : Chan).txFifo = ch.txFifo := rfl
  unfold Chan.acceptTx
  dsimp only
  rw [hf]
  split <;> rfl

/-- One effect of a host command on its channel, with the guard under which the rules reach it (R75 to R90); the four that
touch the transmit direction never meet a suspended handler (U6). -/
inductive Chan.Commanded (p : Params) (ch : Chan) : Chan → Prop where
  /-- R75. -/
  | opened (hw : ch.txWait = false) (hi : ch.flags.init = false) : Chan.Commanded p ch (ch.openClosed p.protoMon)
  /-- R76. -/
  | closed (hw : ch.txWait = false) (he : ch.txEmpty = true) :
    Chan.Commanded p ch { ch with run := false, flags := { ch.flags with init := false } }
  /-- R78. -/
  | rated (v : Word) (hv : p.baudWl.contains v = true) (hf : ch.flags.anyTransfer = false) :
    Chan.Commanded p ch { ch with baud := v }
  /-- R85. -/
  | sent (a b : Word) (hw : ch.txWait = false) (ha : a ≠ 0) (hb : b ≠ 0) (hfit : bufferFits a b = true)
    (hi : ch.flags.init = true) (hbusy : ch.flags.txBusy = false) (hlock : ch.flags.txLock = false) :
    Chan.Commanded p ch (ch.acceptTx a b)
  /-- R86. -/
  | received (a b : Word) (ha : a ≠ 0) (hb : b ≠ 0) (hfit : bufferFits a b = true)
    (hi : ch.flags.init = true) (hbusy : ch.flags.rxBusy = false) (hlock : ch.flags.rxLock = false) :
    Chan.Commanded p ch (ch.acceptRx a b)
  /-- R87, R116. -/
  | txAborted (q : List Byte) (hw : ch.txWait = false) (hq : q <:+ ch.txq) (hbyte : ch.txFifo = false → q = []) :
    Chan.Commanded p ch { ch with txq := q }.abandonTx
  /-- R88. -/
  | rxAborted : Chan.Commanded p ch ch.abandonRx

/-- A run of command effects on one channel. -/
abbrev Chan.CommandRun (p : Params) : Chan → Chan → Prop := Relation.ReflTransGen (Chan.Commanded p)

/-- TX and RX operands a descriptor can spell (R64 (f)). -/
def OperandsFit (i : Instr) : Prop := ∀ c a b, (i = .tx c a b ∨ i = .rx c a b) → bufferFits a b = true

/-- A descriptor that decodes names a channel that exists and a buffer that fits (R64). -/
theorem decodeCmd_ok {nch : Nat} {w : BitVec 80} {i : Instr} (h : decodeCmd nch w = .ok i) : i.ch < nch ∧ OperandsFit i := by
  unfold decodeCmd at h
  dsimp only at h
  split at h
  · cases h
  · next hc =>
    have hc : (cmdCh w).toNat < nch := Nat.not_le.1 hc
    split at h
    · unfold decodeInit at h
      split at h
      · cases h; exact ⟨hc, by simp [OperandsFit]⟩
      · split at h <;> (cases h; exact ⟨hc, by simp [OperandsFit]⟩)
    · cases h; exact ⟨hc, by simp [OperandsFit]⟩
    · split at h
      · next hf => cases h; exact ⟨hc, by simp [OperandsFit, hf]⟩
      · cases h
    · split at h
      · next hf => cases h; exact ⟨hc, by simp [OperandsFit, hf]⟩
      · cases h
    · unfold decodeAbort at h
      split at h
      · cases h; exact ⟨hc, by simp [OperandsFit]⟩
      · split at h
        · cases h; exact ⟨hc, by simp [OperandsFit]⟩
        · split at h
          · cases h; exact ⟨hc, by simp [OperandsFit]⟩
          · cases h
    · cases h

/-- An accepted request passed R90's four checks. -/
theorem requestRejected_none {a b : Word} {isOpen occupied : Bool} (h : requestRejected a b isOpen occupied = none) :
    a ≠ 0 ∧ b ≠ 0 ∧ isOpen = true ∧ occupied = false := by
  unfold requestRejected at h
  split at h
  · cases h
  · split at h
    · cases h
    · split at h
      · cases h
      · split at h
        · cases h
        · exact ⟨‹_›, ‹_›, by simp_all, by simp_all⟩

/-- ABORT.TX on the channel: the forced idle leaves a tail of the queue, in byte mode nothing (R87, R116). -/
theorem chan_cmdAbortTx (s : State) (c : Nat) (hc : c < s.nch) :
    ∃ q, q <:+ (s.chan c).txq ∧ ((s.chan c).txFifo = false → q = []) ∧
      (cmdAbortTx c s).1.chan c = { s.chan c with txq := q }.abandonTx := by
  have hfifo : (s.chan c).abandonTx.txFifo = (s.chan c).txFifo := rfl
  simp only [cmdAbortTx, State.txForceIdle, State.chan_modChan_same _ _ _ hc, hfifo]
  split
  · next hf =>
    refine ⟨if Config.drawDrop s.draws then (s.chan c).txq.tail else (s.chan c).txq, ?_, by simp [hf], ?_⟩
    · split
      · exact List.tail_suffix _
      · exact List.suffix_rfl
    · rw [State.chan_modChan_same _ _ _ (by simpa using hc), State.chan_drawn, State.chan_modChan_same _ _ _ hc]
      rfl
  · refine ⟨[], List.nil_suffix, fun _ => rfl, ?_⟩
    rw [State.chan_modChan_same _ _ _ (by simpa using hc), State.chan_modChan_same _ _ _ hc]
    rfl

/-- An update of a channel that is one command effect. -/
theorem State.commandRun_modChan {p : Params} {s : State} {c : Nat} {f : Chan → Chan} (hc : c < s.nch)
    (h : Chan.Commanded p (s.chan c) (f (s.chan c))) : Chan.CommandRun p (s.chan c) ((s.modChan c f).chan c) := by
  rw [State.chan_modChan_same s c f hc]
  exact .single h

/-- A host command's effect on its channel is a run of command effects (R75 to R90). -/
theorem commandEffect_run {i : Instr} {s : State} {r : State × Status} (h : commandEffect i s = some r) (hc : i.ch < s.nch)
    (hfit : OperandsFit i) (hw : targetsTransmit i = true → (s.chan i.ch).txWait = false) :
    Chan.CommandRun s.par (s.chan i.ch) (r.1.chan i.ch) := by
  cases i with
  | initOpen c =>
    cases h
    unfold cmdInitOpen
    split
    · exact .refl
    · next hi =>
      exact State.commandRun_modChan hc (.opened (hw rfl) (Bool.eq_false_iff.2 hi))
  | initClose c =>
    cases h
    unfold cmdInitClose
    split
    · exact .refl
    · next ch hs =>
      obtain ⟨he, rfl⟩ := stop_some _ _ hs
      exact State.commandRun_modChan hc (.closed (hw rfl) he)
  | initInvalid c v => cases h; exact .refl
  | setBaud c v =>
    cases h
    unfold cmdSetBaud
    split
    · exact .refl
    · next hv =>
      split
      · exact .refl
      · next hf =>
        split
        · exact State.commandRun_modChan (s := s.drawn) hc (.rated v (by simpa using hv) (Bool.eq_false_iff.2 hf))
        · exact .refl
  | tx c a b =>
    cases h
    unfold cmdTx
    dsimp only
    split
    · exact .refl
    · next hr =>
      obtain ⟨ha, hb, hi, ho⟩ := requestRejected_none hr
      rw [Bool.or_eq_false_iff] at ho
      exact State.commandRun_modChan hc (.sent a b (hw rfl) ha hb (hfit c a b (.inl rfl)) hi ho.1 ho.2)
  | rx c a b =>
    cases h
    unfold cmdRx
    dsimp only
    split
    · exact .refl
    · next hr =>
      obtain ⟨ha, hb, hi, ho⟩ := requestRejected_none hr
      rw [Bool.or_eq_false_iff] at ho
      exact State.commandRun_modChan hc (.received a b ha hb (hfit c a b (.inr rfl)) hi ho.1 ho.2)
  | abortTx c =>
    cases h
    obtain ⟨q, hq, hbyte, he⟩ := chan_cmdAbortTx s c hc
    exact .single (he ▸ .txAborted q (hw rfl) hq hbyte)
  | abortRx c =>
    cases h
    exact State.commandRun_modChan hc .rxAborted
  | abortTxRx c =>
    cases h
    obtain ⟨q, hq, hbyte, he⟩ := chan_cmdAbortTx s c hc
    have hc' : c < (cmdAbortTx c s).1.nch := by
      obtain ⟨n, f, hs, hf⟩ := txForceIdle_eq (s.modChan c Chan.abandonTx) c
      simp only [cmdAbortTx, hf, State.nch_modChan]
      exact (State.nch_modChan s c _).symm ▸ hc
    exact .trans (.single (he ▸ .txAborted q (hw rfl) hq hbyte)) (State.commandRun_modChan hc' .rxAborted)
  | irqTx _ => cases h
  | irqRx _ => cases h
  | irqProto _ => cases h
  | txDone _ => cases h
  | envTxShift _ => cases h
  | envRxArrive _ _ => cases h
  | envRxArriveAlt _ _ => cases h
  | envPFlag _ _ => cases h

/-- No command touches the parameters (log 3) or a wait (R133, U6). -/
theorem Chan.Commanded.frame {p : Params} {ch ch' : Chan} (h : Chan.Commanded p ch ch') :
    ch'.par = ch.par ∧ ch'.txWait = ch.txWait := by
  cases h with
  | opened => rw [openClosed_eq]; exact ⟨rfl, rfl⟩
  | closed => exact ⟨rfl, rfl⟩
  | rated => exact ⟨rfl, rfl⟩
  | sent a b => rw [acceptTx_eq]; exact ⟨rfl, rfl⟩
  | received a b => unfold Chan.acceptRx; dsimp only; split <;> exact ⟨rfl, rfl⟩
  | txAborted => exact ⟨rfl, rfl⟩
  | rxAborted => exact ⟨rfl, rfl⟩

theorem Chan.CommandRun.frame {p : Params} {ch ch' : Chan} (h : Chan.CommandRun p ch ch') :
    ch'.par = ch.par ∧ ch'.txWait = ch.txWait := by
  induction h with
  | refl => exact ⟨rfl, rfl⟩
  | tail _ hstep ih => exact ⟨hstep.frame.1.trans ih.1, hstep.frame.2.trans ih.2⟩

/-- Every command effect keeps the channel's invariant. -/
theorem Chan.Commanded.inv {nch : Nat} {p : Params} {ch ch' : Chan} (h : Chan.Commanded p ch ch') (hi : ch.Inv nch p) :
    ch'.Inv nch p := by
  cases h with
  | opened => exact hi.openClosed
  | closed => exact hi.set_open false (fun hb => by cases hb)
  | rated v hv => exact hi.set_baud v hv
  | sent a b hw ha _ hfit _ _ hlock => exact hi.acceptTx ha hfit hw hlock
  | received a b ha hb hfit => exact hi.acceptRx ha hb hfit
  | txAborted q hw hq hbyte => exact (hi.drop_txq hq).abandonTx hw fun hf => by rw [hbyte hf]; rfl
  | rxAborted => exact hi.abandonRx

/-- So does a run of them. -/
theorem Chan.CommandRun.inv {nch : Nat} {p : Params} {ch ch' : Chan} (h : Chan.CommandRun p ch ch') (hi : ch.Inv nch p) :
    ch'.Inv nch p := by
  induction h with
  | refl => exact hi
  | tail _ hstep ih => exact hstep.inv ih

/-! A receive that has reached its length is completed by a callback that runs before the flags are cleared (R147). In between
the channel meets the invariant but for the clause on receives in flight: it would with RXBUSY cleared. -/

/-- The channel with RXBUSY cleared. -/
def Chan.rxStopped (ch : Chan) : Chan := { ch with flags := { ch.flags with rxBusy := false } }

/-- What holds of a channel between its RX_COMPLETE record and the clears after it. -/
structure Chan.RxCompleting (nch : Nat) (p : Params) (ch : Chan) : Prop where
  locked : ch.flags.rxLock = true
  inv : ch.rxStopped.Inv nch p

/-- A command effect never asks whether a locked receive is busy: it commutes with clearing RXBUSY, and keeps the lock. -/
theorem Chan.Commanded.rxStopped {p : Params} {ch ch' : Chan} (h : Chan.Commanded p ch ch') (hl : ch.flags.rxLock = true) :
    ch'.flags.rxLock = true ∧ Chan.Commanded p ch.rxStopped ch'.rxStopped := by
  cases h with
  | opened hw hi =>
    have he : (ch.openClosed p.protoMon).rxStopped = ch.rxStopped.openClosed p.protoMon := by
      rw [openClosed_eq, openClosed_eq]; rfl
    exact ⟨by rw [openClosed_eq]; exact hl, he ▸ .opened hw hi⟩
  | closed hw he => exact ⟨hl, .closed (ch := ch.rxStopped) hw he⟩
  | rated v hv hf => simp [ChanFlags.anyTransfer, hl] at hf
  | sent a b hw ha hb hfit hi hbusy hlock =>
    have he : (ch.acceptTx a b).rxStopped = ch.rxStopped.acceptTx a b := by rw [acceptTx_eq, acceptTx_eq]; rfl
    exact ⟨by rw [acceptTx_eq]; exact hl, he ▸ .sent a b hw ha hb hfit hi hbusy hlock⟩
  | received a b ha hb hfit hi hbusy hlock => simp [hl] at hlock
  | txAborted q hw hq hbyte => exact ⟨hl, .txAborted (ch := ch.rxStopped) q hw hq hbyte⟩
  | rxAborted => exact ⟨hl, .rxAborted (ch := ch.rxStopped)⟩

/-- Commands of the consumer leave a completing receive completing. -/
theorem Chan.CommandRun.rxCompleting {nch : Nat} {p : Params} {ch ch' : Chan} (h : Chan.CommandRun p ch ch')
    (hi : ch.RxCompleting nch p) : ch'.RxCompleting nch p := by
  induction h with
  | refl => exact hi
  | tail _ hstep ih =>
    obtain ⟨hl, hs⟩ := hstep.rxStopped ih.locked
    exact ⟨hl, hs.inv ih.inv⟩

/-- The clears after RX_COMPLETE restore the invariant (R147). -/
theorem Chan.RxCompleting.clearRx {nch : Nat} {p : Params} {ch : Chan} (h : ch.RxCompleting nch p) : ch.clearRx.Inv nch p :=
  (h.inv.end_rx ch.rx.ptr false).evDisable _

/-! The invariant in three parts: the configuration, the channels with the memory, and who waits on ACTIVE. A handler breaks
the last one between its entry and its return, so operations are followed part by part. -/

/-- The parameters are as before (log 3). -/
structure State.SameConfig (s t : State) : Prop where
  par : t.par = s.par
  nch : t.nch = s.nch
  chanPar : ∀ d, (t.chan d).par = (s.chan d).par

/-- The parameters, ACTIVE and every TXWAIT are as before. -/
structure State.SameContexts (s t : State) : Prop extends State.SameConfig s t where
  active : t.active = s.active
  txWait : ∀ d, (t.chan d).txWait = (s.chan d).txWait

/-- Every channel meets its invariant, and memory is canonical. -/
structure State.Sound (s : State) : Prop where
  channels : ∀ c < s.nch, (s.chan c).Inv s.nch s.par
  memory : Memory.wf s.mem

/-- `a` holds exactly the waiting transmit handlers, in strict order of their configured priorities (R29, R173, R177). -/
structure State.WaitsOn (s : State) (a : List (Nat × Vec)) : Prop where
  waits : ∀ v, v ∈ a ↔ v.2 = .tx ∧ v.1 < s.nch ∧ (s.chan v.1).txWait = true
  ranked : a.Pairwise fun v w => (s.chan v.1).configuredPrio v.2 < (s.chan w.1).configuredPrio w.2

/-- A sound state reached from `s` in the same contexts. -/
structure State.Kept (s t : State) : Prop extends State.SameContexts s t where
  sound : t.Sound

section Parts

variable {s t u : State}

theorem State.SameContexts.refl (s : State) : State.SameContexts s s := ⟨⟨rfl, rfl, fun _ => rfl⟩, rfl, fun _ => rfl⟩

theorem State.SameConfig.trans (h : State.SameConfig s t) (h' : State.SameConfig t u) : State.SameConfig s u :=
  ⟨h'.par.trans h.par, h'.nch.trans h.nch, fun d => (h'.chanPar d).trans (h.chanPar d)⟩

theorem State.SameContexts.trans (h : State.SameContexts s t) (h' : State.SameContexts t u) : State.SameContexts s u :=
  ⟨h.toSameConfig.trans h'.toSameConfig, h'.active.trans h.active,
    fun d => (h'.txWait d).trans (h.txWait d)⟩

theorem State.Kept.trans (h : State.Kept s t) (h' : State.Kept t u) : State.Kept s u :=
  ⟨h.toSameContexts.trans h'.toSameContexts, h'.sound⟩

/-- An update of one channel that writes no parameter. -/
theorem State.SameConfig.of_modChan {c : Nat} {f : Chan → Chan} (hc : c < s.nch) (hp : (f (s.chan c)).par = (s.chan c).par) :
    State.SameConfig s (s.modChan c f) := by
  refine ⟨rfl, State.nch_modChan s c f, fun d => ?_⟩
  rw [State.chan_modChan s c d f hc]
  split
  · next hd => rw [hd, hp]
  · rfl

/-- An update of one channel that writes no parameter and no wait. -/
theorem State.SameContexts.of_modChan {c : Nat} {f : Chan → Chan} (hc : c < s.nch)
    (hp : (f (s.chan c)).par = (s.chan c).par) (hw : (f (s.chan c)).txWait = (s.chan c).txWait) :
    State.SameContexts s (s.modChan c f) := by
  refine ⟨.of_modChan hc hp, rfl, fun d => ?_⟩
  rw [State.chan_modChan s c d f hc]
  split
  · next hd => rw [hd, hw]
  · rfl

/-- An update that keeps the channel's invariant keeps the state sound. -/
theorem State.Sound.modChan {c : Nat} {f : Chan → Chan} (h : s.Sound) (hc : c < s.nch) (hf : (f (s.chan c)).Inv s.nch s.par) :
    (s.modChan c f).Sound := by
  refine ⟨fun d hd => ?_, h.memory⟩
  rw [State.nch_modChan] at hd ⊢
  rw [State.chan_modChan s c d f hc]
  split
  · exact hf
  · exact h.channels d hd

theorem State.Kept.of_modChan {c : Nat} {f : Chan → Chan} (h : s.Sound) (hc : c < s.nch) (hf : (f (s.chan c)).Inv s.nch s.par)
    (hp : (f (s.chan c)).par = (s.chan c).par) (hw : (f (s.chan c)).txWait = (s.chan c).txWait) :
    State.Kept s (s.modChan c f) :=
  ⟨.of_modChan hc hp hw, h.modChan hc hf⟩

/-- Draws, ports, the schedule and canonical memory may change under the same channels. -/
theorem State.Kept.of_chans (h : s.Sound) (hp : t.par = s.par) (hc : t.chans = s.chans) (ha : t.active = s.active)
    (hm : Memory.wf t.mem) : State.Kept s t := by
  have hn : t.nch = s.nch := by simp only [State.nch, hc]
  have hch : ∀ d, t.chan d = s.chan d := fun d => by simp only [State.chan, hc]
  exact ⟨⟨⟨hp, hn, fun d => by rw [hch]⟩, ha, fun d => by rw [hch]⟩,
    fun d hd => by rw [hch, hn, hp]; exact h.channels d (hn ▸ hd), hm⟩

theorem State.Inv.sound (h : s.Inv) : s.Sound := ⟨h.channels, h.memory⟩

/-- A waiting handler's vector is enabled, so its priority is the configured one (R28, R115). -/
theorem State.Sound.waiting_prio (h : s.Sound) {v : Nat × Vec}
    (hv : v.2 = .tx ∧ v.1 < s.nch ∧ (s.chan v.1).txWait = true) :
    ((s.chan v.1).vec v.2).prio = (s.chan v.1).configuredPrio v.2 := by
  obtain ⟨hk, hc, hw⟩ := hv
  refine (h.channels v.1 hc).enabled_prio v.2 ?_
  rw [hk]
  exact ((h.channels v.1 hc).waiting hw).2.2

theorem State.Inv.waitsOn (h : s.Inv) : s.WaitsOn s.active :=
  ⟨h.active_waits, h.active_ranked.imp_of_mem fun hv hw hr => by
    rwa [h.sound.waiting_prio ((h.active_waits _).1 hv), h.sound.waiting_prio ((h.active_waits _).1 hw)] at hr⟩

/-- The invariant from its three parts. -/
theorem State.Inv.of_parts (h : s.Inv) (hc : State.SameConfig s t) (ht : t.Sound) (hw : t.WaitsOn t.active) : t.Inv where
  channels := ht.channels
  baud_list := by rw [hc.par]; exact h.baud_list
  irq_distinct := by
    rw [State.irqNumbers_congr hc.nch fun d _ => hc.chanPar d]
    exact h.irq_distinct
  memory := ht.memory
  active_waits := hw.waits
  active_ranked := hw.ranked.imp_of_mem fun hv hv' hr => by
    rwa [ht.waiting_prio ((hw.waits _).1 hv), ht.waiting_prio ((hw.waits _).1 hv')]

/-- Configured priorities are parameters. -/
theorem State.SameConfig.configuredPrio (h : State.SameConfig s t) (v : Nat × Vec) :
    (t.chan v.1).configuredPrio v.2 = (s.chan v.1).configuredPrio v.2 := by
  cases v.2 <;> simp only [Chan.configuredPrio, h.chanPar]

/-- Who waits depends on the configuration and the waits alone. -/
theorem State.WaitsOn.congr {a : List (Nat × Vec)} (h : s.WaitsOn a) (hs : State.SameConfig s t)
    (hw : ∀ d, (t.chan d).txWait = (s.chan d).txWait) : t.WaitsOn a := by
  refine ⟨fun v => by rw [hs.nch, hw]; exact h.waits v, ?_⟩
  simp only [hs.configuredPrio]
  exact h.ranked

/-- An operation that ends sound and in the same contexts keeps the invariant. -/
theorem State.Inv.of_kept (h : s.Inv) (hk : State.Kept s t) : t.Inv :=
  h.of_parts hk.toSameConfig hk.sound (by rw [hk.active]; exact h.waitsOn.congr hk.toSameConfig hk.txWait)

/-- A handler that outranks all the waiting ones goes on top of them (R133, R173). -/
theorem State.WaitsOn.push {a : List (Nat × Vec)} (h : s.WaitsOn a) {c : Nat} (hc : c < s.nch)
    (hr : ∀ w ∈ a, (s.chan c).configuredPrio .tx < (s.chan w.1).configuredPrio w.2) :
    (s.modChan c fun ch => { ch with txWait := true }).WaitsOn ((c, .tx) :: a) := by
  have hprio := (State.SameConfig.of_modChan (f := fun ch => { ch with txWait := true }) hc rfl).configuredPrio
  constructor
  · rintro ⟨d, k⟩
    simp only [List.mem_cons, Prod.mk.injEq, h.waits, State.nch_modChan, State.chan_modChan s c d _ hc]
    split
    · next hd => subst hd; simpa [hc] using fun hk _ => hk
    · next hd => simp [hd]
  · simp only [hprio]
    exact List.pairwise_cons.2 ⟨hr, h.ranked⟩

/-- The top handler's wait ends and it comes off (R134, R176). -/
theorem State.WaitsOn.pop {a : List (Nat × Vec)} {c : Nat} (h : s.WaitsOn ((c, .tx) :: a)) (hc : c < s.nch) :
    (s.modChan c fun ch => { ch with txWait := false }).WaitsOn a := by
  obtain ⟨htop, hrest⟩ := List.pairwise_cons.1 h.ranked
  have hprio := (State.SameConfig.of_modChan (f := fun ch => { ch with txWait := false }) hc rfl).configuredPrio
  have honce : (c, Vec.tx) ∉ a := fun hm => BitVec.lt_irrefl _ (htop _ hm)
  constructor
  · rintro ⟨d, k⟩
    have hw := h.waits (d, k)
    simp only [List.mem_cons, Prod.mk.injEq] at hw
    simp only [State.nch_modChan, State.chan_modChan s c d _ hc]
    split
    · next hd =>
      subst hd
      simp only [Bool.false_eq_true, and_false, iff_false]
      intro hm
      obtain ⟨rfl, -, -⟩ := hw.1 (.inr hm)
      exact honce hm
    · next hd => rw [← hw]; simp [hd]
  · simp only [hprio]
    exact hrest

end Parts

/-! Host commands and the consumer's nested commands. -/

section Commands

variable {s t : State} {c : Nat}

/-- A host command that is carried out on the main line: its effect on a channel that exists, then its status (R178). -/
def OnMainLine (i : Instr) (s t : State) : Prop :=
  ∃ r, commandEffect i s = some r ∧ i.ch < s.nch ∧ s.hostEnabled = true ∧ OperandsFit i ∧ t = r.1.reply .mainLine r.2

theorem OnMainLine.of_hostCommand {i : Instr} {f : State → State × Status} (he : commandEffect i s = some (f s))
    (hfit : OperandsFit i) (h : hostCommand i.ch f s = .next t) : OnMainLine i s t := by
  obtain ⟨hc, hen, rfl⟩ := hostCommand_next _ _ _ _ h
  exact ⟨_, he, hc, hen, hfit, rfl⟩

/-- A bounded request that is carried out has a buffer that fits (log 12). -/
theorem boundedRequest_next {a b : Word} {o : Result} (h : boundedRequest a b o = .next t) :
    bufferFits a b = true ∧ o = .next t := by
  unfold boundedRequest at h
  split at h
  · next hf => exact ⟨hf, h⟩
  · cases h

/-- The nine host commands have one form (R178, R60). -/
theorem exec_command_next {i : Instr} (hi : i.isCommand = true) (h : exec i s = .next t) : OnMainLine i s t := by
  cases i with
  | initOpen c => exact .of_hostCommand rfl (by simp [OperandsFit]) h
  | initClose c => exact .of_hostCommand rfl (by simp [OperandsFit]) h
  | initInvalid c v => exact .of_hostCommand rfl (by simp [OperandsFit]) h
  | setBaud c v => exact .of_hostCommand rfl (by simp [OperandsFit]) h
  | tx c a b =>
    obtain ⟨hf, ho⟩ := boundedRequest_next h
    exact .of_hostCommand rfl (by simp [OperandsFit, hf]) ho
  | rx c a b =>
    obtain ⟨hf, ho⟩ := boundedRequest_next h
    exact .of_hostCommand rfl (by simp [OperandsFit, hf]) ho
  | abortTx c => exact .of_hostCommand rfl (by simp [OperandsFit]) h
  | abortRx c => exact .of_hostCommand rfl (by simp [OperandsFit]) h
  | abortTxRx c => exact .of_hostCommand rfl (by simp [OperandsFit]) h
  | irqTx _ => cases hi
  | irqRx _ => cases hi
  | irqProto _ => cases hi
  | txDone _ => cases hi
  | envTxShift _ => cases hi
  | envRxArrive _ _ => cases hi
  | envRxArriveAlt _ _ => cases hi
  | envPFlag _ _ => cases hi

/-- A command's effect, channel by channel: a run of command effects, and nothing on the channels it does not name. -/
theorem commandEffect_chan_run {i : Instr} {r : State × Status} (h : commandEffect i s = some r) (hc : i.ch < s.nch)
    (hfit : OperandsFit i) (hw : targetsTransmit i = true → (s.chan i.ch).txWait = false) (d : Nat) :
    Chan.CommandRun s.par (s.chan d) (r.1.chan d) := by
  by_cases hd : d = i.ch
  · exact hd ▸ commandEffect_run h hc hfit hw
  · obtain ⟨n, f, hf, -⟩ := commandEffect_result _ _ _ h
    rw [hf, State.chan_modChan_ne _ _ _ _ hd]
    exact .refl

/-- A state whose channels ran commands is reached in the same contexts. -/
theorem State.SameContexts.of_runs (hp : t.par = s.par) (hn : t.nch = s.nch) (ha : t.active = s.active)
    (hr : ∀ d, Chan.CommandRun s.par (s.chan d) (t.chan d)) : State.SameContexts s t :=
  ⟨⟨hp, hn, fun d => (hr d).frame.1⟩, ha, fun d => (hr d).frame.2⟩

/-- It stays sound. -/
theorem State.Kept.of_runs (h : s.Sound) (hs : State.SameContexts s t) (hm : t.mem = s.mem)
    (hr : ∀ d, Chan.CommandRun s.par (s.chan d) (t.chan d)) : State.Kept s t :=
  ⟨hs, fun d hd => by rw [hs.nch, hs.par]; exact (hr d).inv (h.channels d (hs.nch ▸ hd)), by rw [hm]; exact h.memory⟩

/-- With no handler active none waits (R29). -/
theorem State.Inv.txWait_of_idle (h : s.Inv) (ha : s.active = []) (hc : c < s.nch) : (s.chan c).txWait = false := by
  cases hw : (s.chan c).txWait
  · rfl
  · have := (h.active_waits (c, .tx)).2 ⟨rfl, hc, hw⟩
    simp [ha] at this

/-- Every host command keeps the invariant. -/
theorem State.Inv.of_command (h : s.Inv) {i : Instr} (hi : i.isCommand = true) (hx : exec i s = .next t) : t.Inv := by
  obtain ⟨r, hr, hc, hen, hfit, rfl⟩ := exec_command_next hi hx
  have hidle : s.active = [] := by
    simp only [State.hostEnabled, Bool.and_eq_true, List.isEmpty_iff] at hen
    exact hen.1
  have hruns := commandEffect_chan_run hr hc hfit fun _ => h.txWait_of_idle hidle hc
  obtain ⟨n, f, hf, -⟩ := commandEffect_result _ _ _ hr
  have hsame : State.SameContexts s (r.1.reply .mainLine r.2) :=
    .of_runs (by rw [hf]; rfl) (by rw [State.nch_reply, hf]; exact State.nch_modChan s i.ch f) (by rw [hf]; rfl) hruns
  exact h.of_kept (.of_runs h.sound hsame (by rw [hf]; rfl) hruns)

/-- A nested command, channel by channel (R181). -/
theorem nestedCommand_run {w : BitVec 80} (h : nestedCommand w s = .next t) (d : Nat) :
    Chan.CommandRun s.par (s.chan d) (t.chan d) := by
  obtain ⟨i, r, hd, hw, hr, rfl⟩ := nestedCommand_next _ _ _ h
  obtain ⟨hc, hfit⟩ := decodeCmd_ok hd
  exact commandEffect_chan_run hr hc hfit (fun ht => by simpa [ht] using hw) d

/-- All of a consumer's nested commands, channel by channel (R181). -/
theorem nestedCommands_run {ws : List (BitVec 80)} (h : nestedCommands ws s = .next t) (d : Nat) :
    Chan.CommandRun s.par (s.chan d) (t.chan d) := by
  induction ws generalizing s with
  | nil => cases h; exact .refl
  | cons w ws ih =>
    obtain ⟨u, hu, ht⟩ := (andThen_next _ _ _).1 h
    have hrest := ih ht
    rw [(nestedCommand_result _ _ _ hu).par] at hrest
    exact (nestedCommand_run hu d).trans hrest

/-- A callback, channel by channel (R180, R181). -/
theorem callback_run {r : CbRec} (h : callback r s = .next t) (d : Nat) : Chan.CommandRun s.par (s.chan d) (t.chan d) :=
  nestedCommands_run (s := s.notify r) h d

/-- A callback returns in the contexts it was made in (R179, R181). -/
theorem callback_contexts {r : CbRec} (h : callback r s = .next t) : State.SameContexts s t := by
  have hres := callback_result _ _ _ h
  exact .of_runs hres.par (hres.nch.trans (State.nch_notify s r)) hres.active (callback_run h)

/-- A callback keeps a sound state sound. -/
theorem callback_kept {r : CbRec} (hs : s.Sound) (h : callback r s = .next t) : State.Kept s t :=
  .of_runs hs (callback_contexts h) (callback_result _ _ _ h).mem (callback_run h)

end Commands

/-! Environment steps. -/

section Environment

variable {s t : State} {c : Nat}

/-- An arrival at a receiver with room (R118). -/
theorem State.Sound.kept_arrive (h : s.Sound) (hc : c < s.nch) (ht : (s.chan c).takesUnit = true) (u : Byte) (alt : Bool) :
    State.Kept s (s.arrive c u alt) := by
  have hch := h.channels c hc
  have hdrawn : State.Kept s s.drawn := .of_chans h rfl rfl rfl h.memory
  unfold State.arrive
  split
  · next hf =>
    have hfull : (s.chan c).rxFull = false := by
      simp only [Chan.takesUnit, hf, Bool.true_and, Bool.and_eq_true, Bool.not_eq_true'] at ht
      exact ht.2
    exact .of_modChan h hc (hch.arriveFifo u alt hfull) (by simp [Chan.arriveFifo]) (by simp [Chan.arriveFifo])
  · next hf =>
    have hbyte : ∀ keep, ((s.chan c).arriveByte u keep).Inv s.nch s.par := fun keep =>
      hch.arriveByte u keep (Bool.eq_false_iff.2 hf)
    split
    · exact .of_modChan h hc (hbyte true) (by simp [Chan.arriveByte]) (by simp [Chan.arriveByte])
    · exact hdrawn.trans (.of_modChan hdrawn.sound hc (hbyte _) (by simp [Chan.arriveByte]) (by simp [Chan.arriveByte]))

/-- A channel's wire goes to a channel that exists (R5). -/
theorem Chan.Inv.loopTo_lt {nch : Nat} {p : Params} {ch : Chan} (h : ch.Inv nch p) {d : Nat} (hd : ch.par.loopTo = some d) :
    d < nch := by
  have := h.params
  simp only [Config.chanParamsOk, hd, Bool.and_eq_true, decide_eq_true_eq] at this
  exact this.2

/-- A shift, the wire's delivery included (R117, R120). -/
theorem State.Sound.kept_shiftUnit (h : s.Sound) (hc : c < s.nch) : State.Kept s (shiftUnit c s) := by
  unfold shiftUnit
  split
  · exact .of_chans h rfl rfl rfl h.memory
  · next u q _ =>
    have hshift : State.Kept s (s.modChan c fun ch => ch.shiftOut u) :=
      .of_modChan h hc ((h.channels c hc).shiftOut u) (by simp [Chan.shiftOut]) (by simp [Chan.shiftOut])
    dsimp only
    split
    · exact hshift
    · next d hd =>
      have hdn : d < s.nch := (h.channels c hc).loopTo_lt hd
      unfold State.deliver
      split
      · next ht => exact hshift.trans (hshift.sound.kept_arrive (hshift.nch ▸ hdn) ht u false)
      · exact hshift

/-- A detected protocol condition (R119). -/
theorem State.Sound.kept_detect (h : s.Sound) (hc : c < s.nch) {i : Nat} (hi : i < 5) :
    State.Kept s (s.modChan c fun ch => ch.detect s.par.protoMon i) :=
  .of_modChan h hc ((h.channels c hc).detect i hi) (by simp [Chan.detect, Chan.setFlag]) (by simp [Chan.detect, Chan.setFlag])

/-- An enabled environment step keeps the invariant if its effect does its part. -/
theorem State.Inv.of_environmentStep (h : s.Inv) {en : State → Bool} {why : Refusal} {f : State → State}
    (hf : c < s.nch → en s = true → State.Kept s (f s)) (hx : environmentStep c en why f s = .next t) : t.Inv := by
  obtain ⟨hc, hen, rfl⟩ := environmentStep_next _ _ _ _ _ _ hx
  exact h.of_kept (hf hc hen)

theorem State.Inv.of_execEnvTxShift (h : s.Inv) (hx : execEnvTxShift c s = .next t) : t.Inv :=
  h.of_environmentStep (fun hc _ => h.sound.kept_shiftUnit hc) hx

/-- A receiver the line may reach takes units (R118). -/
theorem State.takesUnit_of_arrivalEnabled (ha : s.arrivalEnabled c = true) : (s.chan c).takesUnit = true := by
  simp only [State.arrivalEnabled, Bool.and_eq_true] at ha
  exact ha.1

theorem State.Inv.of_execEnvRxArrive (h : s.Inv) {u : Byte} (hx : execEnvRxArrive c u s = .next t) : t.Inv :=
  h.of_environmentStep (fun hc hen => h.sound.kept_arrive hc (State.takesUnit_of_arrivalEnabled hen) u false) hx

theorem State.Inv.of_execEnvRxArriveAlt (h : s.Inv) {u : Byte} (hx : execEnvRxArriveAlt c u s = .next t) : t.Inv :=
  h.of_environmentStep (fun hc hen => h.sound.kept_arrive hc (State.takesUnit_of_arrivalEnabled hen) u true) hx

theorem State.Inv.of_execEnvPFlag (h : s.Inv) {i : Nat} (hx : execEnvPFlag c i s = .next t) : t.Inv := by
  unfold execEnvPFlag at hx
  split at hx
  · next hi => exact h.of_environmentStep (fun hc _ => h.sound.kept_detect hc hi) hx
  · cases hx

/-- The host's store of one byte (R50). -/
theorem State.Inv.hostStore (h : s.Inv) (a : Word) (b : Byte) : (s.hostStore a b).Inv :=
  h.of_kept (.of_chans h.sound rfl rfl rfl (Memory.wf_write _ _ _ a.isLt h.memory))

/-- Taking the head off the schedule. -/
theorem State.Inv.afterFetch (h : s.Inv) : s.afterFetch.Inv := h.of_kept (.of_chans h.sound rfl rfl rfl h.memory)

end Environment

/-! Handlers. Each body is followed from the entered state; the return takes the handler off ACTIVE again. -/

section Handlers

variable {s t : State} {c : Nat}

/-- Entry keeps the configuration, the channels' invariant and the memory (R175). -/
theorem State.Sound.enter (h : s.Sound) (hc : c < s.nch) (k : Vec) : (s.enter c k).Sound := by
  have hu := h.modChan (f := fun ch => ch.unpend k) hc ((h.channels c hc).unpend k)
  exact ⟨hu.channels, hu.memory⟩

theorem State.SameConfig.enter (hc : c < s.nch) (k : Vec) : State.SameConfig s (s.enter c k) := by
  have hu := State.SameConfig.of_modChan (s := s) (f := fun ch => ch.unpend k) hc (Chan.par_modVec _ _ _)
  exact ⟨rfl, hu.nch, hu.chanPar⟩

/-- Return takes the handler off ACTIVE and does nothing else (R176). -/
theorem State.Sound.leave (h : s.Sound) : s.leave.Sound := ⟨fun d hd => h.channels d hd, h.memory⟩

theorem State.SameConfig.leave (h : State.SameConfig s t) : State.SameConfig s t.leave := ⟨h.par, h.nch, h.chanPar⟩

/-- Entry writes no wait. -/
theorem State.txWait_enter (hc : c < s.nch) (k : Vec) (d : Nat) : ((s.enter c k).chan d).txWait = (s.chan d).txWait :=
  (State.SameContexts.of_modChan (s := s) (f := fun ch => ch.unpend k) hc (Chan.par_modVec _ _ _) (Chan.txWait_modVec _ _ _)).txWait d

/-- A handler that kept its entered state sound, and returns, keeps the invariant (R175, R176). -/
theorem State.Inv.returned (h : s.Inv) (hc : c < s.nch) {k : Vec} (hk : State.Kept (s.enter c k) t) : t.leave.Inv := by
  have hin := State.SameConfig.enter (s := s) hc k
  refine h.of_kept ⟨⟨(hin.trans hk.toSameConfig).leave, ?_, fun d => ?_⟩, hk.sound.leave⟩
  · rw [State.active_leave, hk.active]; rfl
  · exact (hk.txWait d).trans (State.txWait_enter hc k d)

/-- A dispatched handler that runs to its return in one step keeps the invariant if its body does its part (R173, R175). -/
theorem State.Inv.dispatched (h : s.Inv) {k : Vec} {body : State → Result}
    (hb : ∀ {s' t'}, s'.Sound → c < s'.nch → body s' = .next t' → State.Kept s' t')
    (hx : dispatchVector c k (fun s' => andThen (body s') fun t => .next t.leave) s = .next t) : t.Inv := by
  obtain ⟨hc, -, hrun⟩ := dispatchVector_next _ _ _ _ _ hx
  obtain ⟨u, hu, ht⟩ := (andThen_next _ _ _).1 hrun
  cases ht
  exact h.returned hc (hb (h.sound.enter hc k) (by rwa [State.nch_enter]) hu)

/-! The protocol handler. -/

/-- The scan clears one flag and notifies, or does nothing (R157, R158). -/
theorem State.Sound.kept_protoScan (h : s.Sound) (hc : c < s.nch) (hx : protoScan c s = .next t) : State.Kept s t := by
  unfold protoScan at hx
  split at hx
  · cases hx; exact .of_chans h rfl rfl rfl h.memory
  · next r _ =>
    have hclear : State.Kept s (s.modChan c fun ch => ch.clearFlag r.1) :=
      .of_modChan h hc ((h.channels c hc).clearFlag _) rfl rfl
    exact hclear.trans (callback_kept hclear.sound hx)

theorem State.Inv.of_execIrqProto (h : s.Inv) (hx : execIrqProto c s = .next t) : t.Inv := by
  unfold execIrqProto at hx
  split at hx
  · exact h.dispatched (fun hs hc => hs.kept_protoScan hc) hx
  · cases hx

/-! The receive handler. -/

/-- A pop takes the head of the queue, or draws (R103). -/
theorem State.Sound.kept_rxPop (h : s.Sound) (hc : c < s.nch) : State.Kept s (s.rxPop c).2 := by
  unfold State.rxPop
  split
  · next u q hq =>
    have hlen : q.length ≤ (s.chan c).rxDepth := by
      have := (h.channels c hc).rx_level
      simp only [Chan.rxLevel, hq, List.length_cons] at this
      omega
    exact .of_modChan h hc ((h.channels c hc).set_rxq q hlen) rfl rfl
  · exact .of_chans h rfl rfl rfl h.memory

/-- A popped unit is forwarded (R141, R142). -/
theorem State.Sound.kept_forwardPopped (h : s.Sound) (hc : c < s.nch) (hx : forwardUnit c (s.rxPop c).1 (s.rxPop c).2 = .next t) :
    State.Kept s t := by
  have hpop := h.kept_rxPop hc
  have hdrawn : State.Kept (s.rxPop c).2 (s.rxPop c).2.drawn := .of_chans hpop.sound rfl rfl rfl hpop.sound.memory
  exact (hpop.trans hdrawn).trans (callback_kept hdrawn.sound hx)

theorem State.Sound.kept_unsolicited (h : s.Sound) (hc : c < s.nch) (hx : unsolicited c s = .next t) : State.Kept s t := by
  unfold unsolicited unsolicitedFifo unsolicitedByte at hx
  split at hx
  · split at hx
    · cases hx; exact .of_chans h rfl rfl rfl h.memory
    · exact h.kept_forwardPopped hc hx
  · exact h.kept_forwardPopped hc hx

/-- Completion, from a state that is sound but for the receive that has reached its length (R147). -/
theorem completeRx_kept (hc : c < s.nch) (hothers : ∀ d < s.nch, d ≠ c → (s.chan d).Inv s.nch s.par)
    (hch : (s.chan c).RxCompleting s.nch s.par) (hm : Memory.wf s.mem) (hx : completeRx c s = .next t) : State.Kept s t := by
  obtain ⟨u, hu, ht⟩ := (andThen_next _ _ _).1 hx
  cases ht
  have hcall := callback_contexts hu
  have hrun := callback_run hu
  have hcu : c < u.nch := hcall.nch ▸ hc
  refine ⟨hcall.trans (.of_modChan hcu rfl rfl), fun d hd => ?_, ?_⟩
  · rw [State.nch_modChan, hcall.nch] at hd ⊢
    rw [State.chan_modChan u c d _ hcu, State.par_modChan, hcall.par]
    split
    · exact ((hrun c).rxCompleting hch).clearRx
    · next hne => exact (hrun d).inv (hothers d hd hne)
  · rw [State.mem_modChan, (callback_result _ _ _ hu).mem]
    exact hm

/-- The drain takes units from the queue and stops at the length at the latest (R144). -/
theorem drain_bounds {q q' : List Byte} {t t' : Tcb} {m m' : Memory} (h : drain q t m = .ok (q', t', m')) (hi : t.idx ≤ t.len) :
    q'.length ≤ q.length ∧ t'.idx ≤ t'.len := by
  induction q generalizing t m with
  | nil => cases h; exact ⟨Nat.le_refl _, hi⟩
  | cons u q ih =>
    simp only [drain] at h
    split at h
    · next hl =>
      split at h
      · cases h
      · have hadv : t.advance.idx ≤ t.advance.len := Tcb.advance_idx_le hl
        obtain ⟨hq, ht⟩ := ih h hadv
        exact ⟨hq.trans (Nat.le_succ _), ht⟩
    · cases h; exact ⟨Nat.le_refl _, hi⟩

/-- A receive in flight that has moved units and still wants some (R144, R146). -/
theorem Chan.Inv.moveRx {nch : Nat} {p : Params} {ch : Chan} (h : ch.Inv nch p) (hi : ch.flags.rxInFlight = true) {t : Tcb}
    (hptr : t.ptr = ch.rx.ptr) (hlen : t.len = ch.rx.len) (hlt : t.idx < t.len) : ({ ch with rx := t } : Chan).Inv nch p := by
  obtain ⟨hp, hfit, -⟩ := h.rx_buffer hi
  exact h.set_rx t ch.flags.rxBusy ch.flags.rxLock (BitVec.le_of_lt hlt) h.rx_busy_locked
    fun _ => ⟨hptr ▸ hp, by rwa [hptr, hlen], hlt⟩

/-- A receive in flight that has moved units, to the length perhaps, is ready to complete (R147). -/
theorem Chan.Inv.moveRx_completing {nch : Nat} {p : Params} {ch : Chan} (h : ch.Inv nch p) (hi : ch.flags.rxInFlight = true)
    {t : Tcb} (hidx : t.idx ≤ t.len) : ({ ch with rx := t } : Chan).RxCompleting nch p := by
  simp only [ChanFlags.rxInFlight, Bool.and_eq_true] at hi
  exact ⟨hi.1, h.set_rx t false ch.flags.rxLock hidx (by simp) (by simp)⟩

/-- Completion after units of channel `c` have moved to memory `m` (R144, R146, R147). -/
theorem State.Sound.kept_completeMoved (h : s.Sound) (hc : c < s.nch) {f : Chan → Chan} {m : Memory} (hm : Memory.wf m)
    (hf : (f (s.chan c)).RxCompleting s.nch s.par) (hp : (f (s.chan c)).par = (s.chan c).par)
    (hw : (f (s.chan c)).txWait = (s.chan c).txWait) (hx : completeRx c ((s.modChan c f).withMem m) = .next t) :
    State.Kept s t := by
  have hmod := State.SameContexts.of_modChan hc hp hw
  have hn : ((s.modChan c f).withMem m).nch = s.nch := hmod.nch
  have hto : State.SameContexts s ((s.modChan c f).withMem m) := ⟨⟨rfl, hn, hmod.chanPar⟩, rfl, hmod.txWait⟩
  have hdone := completeRx_kept (by rwa [hn]) (fun d hd hne => ?_) ?_ hm hx
  · exact ⟨hto.trans hdone.toSameContexts, hdone.sound⟩
  · rw [hn] at hd ⊢
    rw [State.chan_withMem, State.chan_modChan_ne s c d f hne]
    exact h.channels d hd
  · rw [hn, State.chan_withMem, State.chan_modChan_same s c f hc]
    exact hf

/-- The same where the receive goes on: the memory is written under a sound channel. -/
theorem State.Sound.kept_moved (h : s.Sound) (hc : c < s.nch) {f : Chan → Chan} {m : Memory} (hm : Memory.wf m)
    (hf : (f (s.chan c)).Inv s.nch s.par) (hp : (f (s.chan c)).par = (s.chan c).par)
    (hw : (f (s.chan c)).txWait = (s.chan c).txWait) : State.Kept s ((s.modChan c f).withMem m) := by
  have hmod := State.Kept.of_modChan h hc hf hp hw
  exact hmod.trans (.of_chans hmod.sound rfl rfl rfl hm)

/-- The FIFO path of a receive in flight (R144, R145, R147). -/
theorem State.Sound.kept_solicitedFifo (h : s.Sound) (hc : c < s.nch) (hi : (s.chan c).flags.rxInFlight = true)
    (hx : solicitedFifo c s = .next t) : State.Kept s t := by
  have hch := h.channels c hc
  unfold solicitedFifo at hx
  split at hx
  · cases hx
  · next q tcb m hdrain =>
    obtain ⟨hptr, hlen⟩ := drain_frame _ _ _ _ _ _ hdrain
    obtain ⟨hq, hidx⟩ := drain_bounds hdrain hch.rx_index
    have hm := drain_wf _ _ _ _ _ _ hdrain h.memory
    have hdrained := hch.set_rxq q (hq.trans hch.rx_level)
    dsimp only at hx
    split at hx
    · next hlt =>
      have hmoved : State.Kept s ((s.modChan c fun ch => { ch with rxq := q, rx := tcb }).withMem m) :=
        h.kept_moved hc hm (hdrained.moveRx hi hptr hlen hlt) rfl rfl
      have hcm : c < ((s.modChan c fun ch => { ch with rxq := q, rx := tcb }).withMem m).nch := hmoved.nch ▸ hc
      have hleft : 0 < tcb.remaining := Nat.sub_pos_of_lt hlt
      have hbound : tcb.remaining < 2 ^ 32 := (Nat.sub_le _ _).trans_lt tcb.len.isLt
      cases hx
      exact hmoved.trans (.of_modChan hmoved.sound hcm ((hmoved.sound.channels c hcm).rxSetLimit _ hleft hbound) rfl rfl)
    · split at hx
      · exact h.kept_completeMoved hc hm (hdrained.moveRx_completing hi hidx) rfl rfl hx
      · cases hx

/-- A pop leaves all of its channel but the queue (R103). -/
theorem chan_rxPop (s : State) (hc : c < s.nch) : (s.rxPop c).2.chan c = { s.chan c with rxq := (s.chan c).rxq.tail } := by
  unfold State.rxPop
  split
  · next u q hq => rw [State.chan_modChan_same s c _ hc, hq]; rfl
  · next hq =>
    have : (s.chan c).rxq.tail = (s.chan c).rxq := by rw [hq]; rfl
    rw [this]; rfl

/-- The byte path of a receive in flight (R146, R147). -/
theorem State.Sound.kept_solicitedByte (h : s.Sound) (hc : c < s.nch) (hi : (s.chan c).flags.rxInFlight = true)
    (hx : solicitedByte c s = .next t) : State.Kept s t := by
  have hpop := h.kept_rxPop hc
  have hcp : c < (s.rxPop c).2.nch := by rwa [nch_rxPop]
  have hrx : ((s.rxPop c).2.chan c).rx = (s.chan c).rx := by rw [chan_rxPop s hc]
  have hip : ((s.rxPop c).2.chan c).flags.rxInFlight = true := by rw [chan_rxPop s hc]; exact hi
  have hch := hpop.sound.channels c hcp
  obtain ⟨-, -, hlt⟩ := hch.rx_buffer hip
  have hidx := Tcb.advance_idx_le hlt
  unfold solicitedByte at hx
  dsimp only at hx
  split at hx
  · cases hx
  · next m hw =>
    obtain ⟨ha, rfl⟩ := memWrite_ok _ _ _ _ hw
    have hm := Memory.wf_write _ _ (s.rxPop c).1 ha hpop.sound.memory
    rw [State.chan_withMem, State.chan_modChan_same _ _ _ hcp] at hx
    split at hx
    · exact hpop.trans (hpop.sound.kept_completeMoved hcp hm (hch.moveRx_completing hip hidx) rfl rfl hx)
    · next hne =>
      cases hx
      have hlt' : ((s.rxPop c).2.chan c).rx.advance.idx < ((s.rxPop c).2.chan c).rx.advance.len :=
        BitVec.lt_of_le_ne hidx hne
      exact hpop.trans (hpop.sound.kept_moved hcp hm (hch.moveRx hip rfl rfl hlt') rfl rfl)

/-- The body of the receive handler (R140). -/
theorem State.Sound.kept_rxHandler (h : s.Sound) (hc : c < s.nch) (hx : rxHandler c s = .next t) : State.Kept s t := by
  unfold rxHandler at hx
  dsimp only at hx
  split at hx
  · next hi =>
    split at hx
    · exact h.kept_solicitedFifo hc hi hx
    · exact h.kept_solicitedByte hc hi hx
  · split at hx
    · exact h.kept_unsolicited hc hx
    · unfold mixedReceive at hx
      split at hx
      · cases hx; exact .of_chans h rfl rfl rfl h.memory
      · exact h.kept_unsolicited hc hx

theorem State.Inv.of_execIrqRx (h : s.Inv) (hx : execIrqRx c s = .next t) : t.Inv :=
  h.dispatched (fun hs hc => hs.kept_rxHandler hc) hx

/-! The transmit handler. -/

/-- Completion of a transmit that does not wait, with nothing queued (R134). -/
theorem State.Sound.kept_completeTx (h : s.Sound) (hc : c < s.nch) (hw : (s.chan c).txWait = false)
    (he : (s.chan c).txEmpty = true) (hx : completeTx c s = .next t) : State.Kept s t := by
  obtain ⟨u, hu, ht⟩ := (andThen_next _ _ _).1 hx
  cases ht
  have hoff : State.Kept s (s.modChan c fun ch => ch.evDisable ch.txEvm) :=
    .of_modChan h hc ((h.channels c hc).evDisable _) rfl rfl
  have hcall := hoff.trans (callback_kept hoff.sound hu)
  have hcu : c < u.nch := hcall.nch ▸ hc
  have hq : (u.chan c).txq <:+ (s.chan c).txq := by
    have hres := (callback_result _ _ _ hu).txq c
    rw [State.chan_notify, State.chan_modChan_same s c _ hc] at hres
    obtain hsame | ⟨hsuf, -⟩ := hres
    · exact hsame ▸ List.suffix_rfl
    · exact hsuf
  have hempty : (u.chan c).txEmpty = true := by
    have hs : (s.chan c).txq = [] := by simpa [Chan.txEmpty, Chan.txLevel] using he
    rw [hs, List.suffix_nil] at hq
    simp [Chan.txEmpty, Chan.txLevel, hq]
  have hwu : (u.chan c).txWait = false := (hcall.txWait c).trans hw
  exact hcall.trans (.of_modChan hcall.sound hcu ((hcall.sound.channels c hcu).clearTx hwu hempty) rfl rfl)

/-- A dispatchable vector outranks every handler on ACTIVE (R173). -/
theorem State.Inv.outranks (h : s.Inv) (hc : c < s.nch) {k : Vec} (hd : s.dispatchable c k = true) :
    ((s.chan c).vec k).en = true ∧
      ∀ w ∈ s.active, (s.chan c).configuredPrio k < (s.chan w.1).configuredPrio w.2 := by
  simp only [State.dispatchable, Bool.and_eq_true, VecRegs.wants] at hd
  obtain ⟨⟨⟨hen, -⟩, hrank⟩, -⟩ := hd
  refine ⟨hen, fun w hw => ?_⟩
  rw [← (h.channels c hc).enabled_prio k hen, ← h.sound.waiting_prio ((h.active_waits w).1 hw)]
  unfold State.outranksRunning at hrank
  have hranked := h.active_ranked
  split at hrank
  · next ha => simp [ha] at hw
  · next v rest ha =>
    rw [ha] at hw hranked
    have hv := of_decide_eq_true hrank
    rcases List.mem_cons.1 hw with rfl | hw
    · exact hv
    · exact BitVec.lt_trans hv ((List.pairwise_cons.1 hranked).1 w hw)

/-- A waiting handler's own vector is not dispatchable: it does not outrank itself. -/
theorem State.Inv.not_waiting_of_dispatchable (h : s.Inv) (hc : c < s.nch) (hd : s.dispatchable c .tx = true) :
    (s.chan c).txWait = false := by
  cases hw : (s.chan c).txWait
  · rfl
  · exact absurd ((h.outranks hc hd).2 _ ((h.active_waits (c, .tx)).2 ⟨rfl, hc, hw⟩)) (BitVec.lt_irrefl _)

/-- What the transmit handler's body can do (R130 to R134): nothing, fill, complete, or wait for the queue to empty. -/
theorem txHandler_next (h : txHandler c s = .next t) :
    ((s.chan c).flags.txInFlight = false ∧ t = s.leave) ∨
    (s.chan c).flags.txInFlight = true ∧
      (((s.chan c).tx.idx < (s.chan c).tx.len ∧
          ∃ ch', (s.chan c).fill s.mem = .ok ch' ∧ t = (s.modChan c fun _ => ch').leave) ∨
        ¬(s.chan c).tx.idx < (s.chan c).tx.len ∧
          ((s.chan c).txEmpty = true ∧ (∃ u, completeTx c s = .next u ∧ t = u.leave) ∨
            (s.chan c).txEmpty = false ∧ t = s.modChan c fun ch => { ch with txWait := true })) := by
  unfold txHandler at h
  dsimp only at h
  split at h
  · next hi => cases h; exact .inl ⟨by simpa using hi, rfl⟩
  · next hi =>
    refine .inr ⟨by simpa using hi, ?_⟩
    split at h
    · next hlt =>
      split at h
      · cases h
      · next ch' hfill => cases h; exact .inl ⟨hlt, ch', hfill, rfl⟩
    · next hlt =>
      refine .inr ⟨hlt, ?_⟩
      split at h
      · next he =>
        obtain ⟨u, hu, ht⟩ := (andThen_next _ _ _).1 h
        cases ht
        exact .inl ⟨he, u, hu, rfl⟩
      · next he => cases h; exact .inr ⟨Bool.eq_false_iff.2 he, rfl⟩

/-- A dispatched transmit handler that has pushed everything and waits stays on top of ACTIVE (R133). -/
theorem State.Inv.suspended (h : s.Inv) (hc : c < s.nch) (hd : s.dispatchable c .tx = true)
    (hi : ((s.enter c .tx).chan c).flags.txInFlight = true)
    (hlt : ¬((s.enter c .tx).chan c).tx.idx < ((s.enter c .tx).chan c).tx.len) :
    ((s.enter c .tx).modChan c fun ch => { ch with txWait := true }).Inv := by
  obtain ⟨hen, hrank⟩ := h.outranks hc hd
  have hs := h.sound.enter hc .tx
  have hce : c < (s.enter c .tx).nch := by rwa [State.nch_enter]
  have hch := hs.channels c hce
  have hdone := BitVec.le_antisymm hch.tx_index (BitVec.not_lt.1 hlt)
  have hene : ((s.enter c .tx).chan c).vTx.en = true := by rw [State.chan_enter_same s c .tx hc]; exact hen
  have hin := State.SameConfig.enter (s := s) hc .tx
  have hwaits : (s.enter c .tx).WaitsOn s.active := h.waitsOn.congr hin (State.txWait_enter hc .tx)
  have hsound := hs.modChan (f := fun ch => { ch with txWait := true }) hce
    (hch.set_txWait true fun _ => ⟨hi, hdone, hene⟩)
  have hout := State.SameConfig.of_modChan (s := s.enter c .tx) (f := fun ch => { ch with txWait := true }) hce rfl
  refine h.of_parts (hin.trans hout) hsound (hwaits.push hce fun w hw => ?_)
  rw [hin.configuredPrio (c, .tx), hin.configuredPrio w]
  exact hrank w hw

/-- IRQ.TX (R130 to R134): served at once, or left waiting on ACTIVE. -/
theorem State.Inv.of_execIrqTx (h : s.Inv) (hx : execIrqTx c s = .next t) : t.Inv := by
  obtain ⟨hc, hd, hrun⟩ := dispatchVector_next _ _ _ _ _ hx
  have hs := h.sound.enter hc .tx
  have hce : c < (s.enter c .tx).nch := by rwa [State.nch_enter]
  obtain ⟨-, rfl⟩ | ⟨hi, ⟨hlt, ch', hfill, rfl⟩ | ⟨hlt, ⟨he, u, hu, rfl⟩ | ⟨-, rfl⟩⟩⟩ := txHandler_next hrun
  · exact h.returned hc (.of_chans hs rfl rfl rfl hs.memory)
  · have hpend : ((s.enter c .tx).chan c).vTx.pend = false := by rw [State.chan_enter_same s c .tx hc]; rfl
    have hfilled := (hs.channels c hce).fill hi hlt hpend hfill
    obtain ⟨q, i, rfl⟩ := fill_frame hfill
    exact h.returned hc (.of_modChan hs hce hfilled rfl rfl)
  · have hw := (State.txWait_enter hc .tx c).trans (h.not_waiting_of_dispatchable hc hd)
    exact h.returned hc (hs.kept_completeTx hce hw he hu)
  · exact h.suspended hc hd hi hlt

/-- TXDONE (R134): the wait is over, the transmit completes, the handler returns. -/
theorem State.Inv.of_execTxDone (h : s.Inv) (hx : execTxDone c s = .next t) : t.Inv := by
  unfold execTxDone at hx
  split at hx
  · cases hx
  · next hc =>
    have hc : c < s.nch := Nat.not_le.1 hc
    split at hx
    · next hen =>
      simp only [State.txDoneEnabled, Bool.and_eq_true, beq_iff_eq] at hen
      obtain ⟨⟨-, htop⟩, he⟩ := hen
      obtain ⟨u, hu, ht⟩ := (andThen_next _ _ _).1 hx
      cases ht
      obtain ⟨rest, hactive⟩ : ∃ rest, s.active = (c, .tx) :: rest := List.head?_eq_some_iff.1 htop
      have hwaits := h.waitsOn
      rw [hactive] at hwaits
      have hsound := h.sound.modChan (f := fun ch => { ch with txWait := false }) hc
        ((h.channels c hc).set_txWait false (fun hb => by cases hb))
      have hin := State.SameConfig.of_modChan (s := s) (f := fun ch => { ch with txWait := false }) hc rfl
      have hdone := hsound.kept_completeTx (hin.nch ▸ hc) (by rw [State.chan_modChan_same s c _ hc])
        (by rw [State.chan_modChan_same s c _ hc]; exact he) hu
      have hrest := (hwaits.pop hc).congr hdone.toSameConfig hdone.txWait
      have hleave : u.leave.active = rest := by rw [State.active_leave, hdone.active, State.active_modChan, hactive]; rfl
      refine h.of_parts (hin.trans hdone.toSameConfig).leave hdone.sound.leave ?_
      rw [hleave]
      exact hrest.congr ⟨rfl, State.nch_leave u, fun _ => rfl⟩ fun _ => rfl
    · cases hx

end Handlers

/-! Every operation, and every step. -/

/-- An operation that is carried out keeps the invariant. -/
theorem State.Inv.of_exec {s t : State} (h : s.Inv) {i : Instr} (hx : exec i s = .next t) : t.Inv := by
  cases i with
  | initOpen c => exact h.of_command (by rfl) hx
  | initClose c => exact h.of_command (by rfl) hx
  | initInvalid c v => exact h.of_command (by rfl) hx
  | setBaud c v => exact h.of_command (by rfl) hx
  | tx c a b => exact h.of_command (by rfl) hx
  | rx c a b => exact h.of_command (by rfl) hx
  | abortTx c => exact h.of_command (by rfl) hx
  | abortRx c => exact h.of_command (by rfl) hx
  | abortTxRx c => exact h.of_command (by rfl) hx
  | irqTx c => exact h.of_execIrqTx hx
  | irqRx c => exact h.of_execIrqRx hx
  | irqProto c => exact h.of_execIrqProto hx
  | txDone c => exact h.of_execTxDone hx
  | envTxShift c => exact h.of_execEnvTxShift hx
  | envRxArrive c u => exact h.of_execEnvRxArrive hx
  | envRxArriveAlt c u => exact h.of_execEnvRxArriveAlt hx
  | envPFlag c n => exact h.of_execEnvPFlag hx

/-- A step takes a word off the schedule and runs the operation it spells (R66). -/
theorem step_word {s : State} {w : HwWord} {rest : List Item} (hs : s.sched = .word w :: rest) {i : Instr}
    (hd : decode s.nch w = .ok i) : step s = exec i s.afterFetch := by
  simp only [step, hs, hd]

/-- What a step that happens did: a host store, or an operation (log 1). -/
theorem step_next {s t : State} (h : step s = .next t) :
    (∃ a b, t = s.afterFetch.hostStore a b) ∨ ∃ i, exec i s.afterFetch = .next t := by
  unfold step at h
  split at h
  · cases h
  · cases h; exact .inl ⟨_, _, rfl⟩
  · split at h
    · cases h
    · exact .inr ⟨_, h⟩

/-- A channel at reset, with parameters R5 admits (R32). -/
theorem Chan.reset_inv {nch : Nat} {p : Params} {q : ChanParams} (hq : Config.chanParamsOk nch p.baudWl q = true) :
    (Chan.reset q).Inv nch p where
  params := hq
  tx_level := Nat.zero_le _
  rx_level := Nat.zero_le _
  tx_index := BitVec.le_refl _
  rx_index := BitVec.le_refl _
  tx_busy_locked := id
  rx_busy_locked := id
  tx_buffer h := by cases h
  rx_buffer h := by cases h
  rx_limit h := Nat.pos_of_ne_zero (by simpa [Chan.rxFifo] using h)
  even_named := BitVec.zero_and
  pstat_named := BitVec.zero_and
  baud_listed := by
    simp only [Config.chanParamsOk, Bool.and_eq_true] at hq
    exact hq.1.1.2
  open_runs := rfl
  open_vectors h := by cases h
  enabled_prio k h := by cases k <;> cases h
  no_monitor _ := rfl
  byte_unit _ h := by cases h
  byte_pending _ h := by cases h
  waiting h := by cases h

/-- The reset state, with parameters R5 admits (R32, R200). -/
theorem State.resetWith_inv {p : Params} {ps : List ChanParams} (h : Config.paramsOk p.baudWl ps = true) :
    (State.resetWith p ps).Inv := by
  simp only [Config.paramsOk, Bool.and_eq_true, List.all_eq_true, decide_eq_true_eq] at h
  obtain ⟨⟨hwl, hchans⟩, hirq⟩ := h
  have hn := State.nch_resetWith p ps
  have hch : ∀ c (hc : c < ps.length), ((State.resetWith p ps).chan c) = Chan.reset ps[c] := State.chan_resetWith p ps
  refine ⟨fun c hc => ?_, hwl, by rwa [State.irqNumbers_resetWith], ⟨.nil, fun x hx => by cases hx⟩, fun v => ?_, .nil⟩
  · rw [hn] at hc ⊢
    rw [hch c hc]
    exact Chan.reset_inv (hchans _ (List.getElem_mem hc))
  · constructor
    · intro hv; cases hv
    · rintro ⟨-, hc, hw⟩
      rw [hn] at hc
      rw [hch _ hc] at hw
      cases hw

end Sys2Proof.Machine

namespace Sys2Proof.Proofs

open Sys2Proof.Machine

/-- Settles O54: a step is a host store or an operation, and both keep the invariant. -/
theorem stepKeepsTheInvariant : Obligations.StepKeepsTheInvariant := by
  intro s t h hstep
  obtain ⟨a, b, rfl⟩ | ⟨i, hx⟩ := step_next hstep
  · exact h.afterFetch.hostStore a b
  · exact h.afterFetch.of_exec hx

/-- Settles O6: the head word is taken off the schedule and its operation runs. -/
theorem stepRunsTheDecodedOperation : Obligations.StepRunsTheDecodedOperation := by
  intro s w rest i hs hd
  rw [step_word hs hd, State.afterFetch, hs, List.tail_cons]

/-- Settles O53: for all parameters R5 admits, and the defaults meet R5's constraints. -/
theorem invariantHoldsAtReset : Obligations.InvariantHoldsAtReset :=
  ⟨fun _ _ => State.resetWith_inv, State.resetWith_inv (by decide)⟩

end Sys2Proof.Proofs

namespace Sys2Proof.Machine

/-! What no operation touches: the parameters, the set of channels, a stored rate but for a whitelisted one, and, without
protocol monitoring, the protocol vector. It holds of every state, so the operations are followed without the invariant. -/

/-- Channel state `ch` may become `ch'` in a machine with shared parameters `p` (R11, R20, R21, R28, R159). -/
structure Chan.SettingsKept (p : Params) (ch ch' : Chan) : Prop where
  par : ch'.par = ch.par
  baud : ch'.baud = ch.baud ∨ ch'.baud ∈ p.baudWl
  vPr : p.protoMon = false → ch'.vPr = ch.vPr

/-- The same of the whole machine. -/
structure State.SettingsKept (s t : State) : Prop where
  par : t.par = s.par
  nch : t.nch = s.nch
  chan : ∀ d, (s.chan d).SettingsKept s.par (t.chan d)

section ChannelSettings

variable {p : Params} {ch ch' ch'' : Chan}

/-- None of the three is written. -/
theorem Chan.SettingsKept.of_eq (hp : ch'.par = ch.par) (hb : ch'.baud = ch.baud) (hv : ch'.vPr = ch.vPr) :
    ch.SettingsKept p ch' :=
  ⟨hp, .inl hb, fun _ => hv⟩

theorem Chan.SettingsKept.trans (h : ch.SettingsKept p ch') (h' : ch'.SettingsKept p ch'') : ch.SettingsKept p ch'' where
  par := h'.par.trans h.par
  baud := by
    obtain hb | hb := h'.baud
    · rw [hb]; exact h.baud
    · exact .inr hb
  vPr hm := (h'.vPr hm).trans (h.vPr hm)

/-- A vector's registers may change, the protocol vector's only under protocol monitoring. -/
theorem Chan.SettingsKept.modVec (k : Vec) (f : VecRegs → VecRegs) (hk : k = .pr → p.protoMon = true) :
    ch.SettingsKept p (ch.modVec k f) := by
  cases k with
  | tx => exact .of_eq rfl rfl rfl
  | rx => exact .of_eq rfl rfl rfl
  | pr => exact ⟨rfl, .inl rfl, fun hm => absurd (hk rfl) (by simp [hm])⟩

/-- Opening enables the protocol vector under protocol monitoring alone (R75). -/
theorem Chan.SettingsKept.openClosed : ch.SettingsKept p (ch.openClosed p.protoMon) := by
  rw [openClosed_eq]
  exact ⟨rfl, .inl rfl, fun hm => by simp [hm]⟩

/-- An accepted TX (R85). -/
theorem Chan.SettingsKept.acceptTx (a b : Word) : ch.SettingsKept p (ch.acceptTx a b) := by
  rw [acceptTx_eq]
  exact .of_eq rfl rfl rfl

/-- An accepted RX (R86). -/
theorem Chan.SettingsKept.acceptRx (a b : Word) : ch.SettingsKept p (ch.acceptRx a b) := by
  unfold Chan.acceptRx
  dsimp only
  split <;> exact .of_eq rfl rfl rfl

/-- A unit leaves for the line (R117). -/
theorem Chan.SettingsKept.shiftOut (u : Byte) : ch.SettingsKept p (ch.shiftOut u) := by
  rw [Chan.shiftOut, Chan.pendIf_tx]
  exact .of_eq rfl rfl rfl

/-- A unit arrives in FIFO mode (R118). -/
theorem Chan.SettingsKept.arriveFifo (u : Byte) (alt : Bool) : ch.SettingsKept p (ch.arriveFifo u alt) := by
  rw [Chan.arriveFifo, Chan.pendIf_rx]
  exact .of_eq rfl rfl rfl

/-- A unit arrives in byte mode (R118). -/
theorem Chan.SettingsKept.arriveByte (u : Byte) (keep : Bool) : ch.SettingsKept p (ch.arriveByte u keep) := by
  rw [Chan.arriveByte, Chan.pendIf_rx]
  exact .of_eq rfl rfl rfl

/-- A detected condition pends the protocol vector under protocol monitoring alone (R119, R159). -/
theorem Chan.SettingsKept.detect (i : Nat) : ch.SettingsKept p (ch.detect p.protoMon i) := by
  rw [Chan.detect, Chan.pendIf_pr]
  exact ⟨rfl, .inl rfl, fun hm => by simp [hm, Chan.setFlag, VecRegs.raised]⟩

/-- The fill phase (R131, R132). -/
theorem Chan.SettingsKept.fill {m : Memory} (h : ch.fill m = .ok ch') : ch.SettingsKept p ch' := by
  obtain ⟨q, i, rfl⟩ := fill_frame h
  exact .of_eq rfl rfl rfl

end ChannelSettings

/-- An update of a channel that does not exist is none. -/
theorem State.modChan_of_nch_le {s : State} {c : Nat} (f : Chan → Chan) (h : s.nch ≤ c) : s.modChan c f = s := by
  rw [State.modChan, List.modify_eq_self h]

section StateSettings

variable {s t u : State} {c : Nat}

/-- Draws, ports, contexts, the schedule and memory are no settings. -/
theorem State.SettingsKept.of_chans (hp : t.par = s.par) (hc : t.chans = s.chans) : s.SettingsKept t where
  par := hp
  nch := by simp only [State.nch, hc]
  chan d := by
    simp only [State.chan, hc]
    exact .of_eq rfl rfl rfl

theorem State.SettingsKept.trans (h : s.SettingsKept t) (h' : t.SettingsKept u) : s.SettingsKept u where
  par := h'.par.trans h.par
  nch := h'.nch.trans h.nch
  chan d := (h.chan d).trans (h.par ▸ h'.chan d)

/-- An update of one channel. -/
theorem State.SettingsKept.of_modChan {f : Chan → Chan} (hf : (s.chan c).SettingsKept s.par (f (s.chan c))) :
    s.SettingsKept (s.modChan c f) := by
  by_cases hc : c < s.nch
  · refine ⟨rfl, State.nch_modChan s c f, fun d => ?_⟩
    rw [State.chan_modChan s c d f hc]
    split
    · next hd => exact hd ▸ hf
    · exact .of_eq rfl rfl rfl
  · rw [State.modChan_of_nch_le f (Nat.not_lt.1 hc)]
    exact .of_chans rfl rfl

/-! Commands and callbacks. -/

/-- A forced idle (R116). -/
theorem State.SettingsKept.txForceIdle (s : State) (c : Nat) : s.SettingsKept (s.txForceIdle c) := by
  obtain ⟨n, f, -, hf⟩ := txForceIdle_eq s c
  rw [hf]
  exact .trans (t := { s with draws := n }) (.of_chans rfl rfl) (.of_modChan (.of_eq rfl rfl rfl))

/-- ABORT.TX (R87). -/
theorem State.SettingsKept.cmdAbortTx (c : Nat) (s : State) : s.SettingsKept (cmdAbortTx c s).1 :=
  .trans (.of_modChan (.of_eq rfl rfl rfl)) (.txForceIdle _ c)

/-- SETBAUD stores a rate of the whitelist or none (R78). -/
theorem State.SettingsKept.cmdSetBaud (c : Nat) (v : Word) (s : State) : s.SettingsKept (cmdSetBaud c v s).1 := by
  unfold Machine.cmdSetBaud
  split
  · exact .of_chans rfl rfl
  · next hv =>
    have hlisted : v ∈ s.par.baudWl := by simpa using hv
    split
    · exact .of_chans rfl rfl
    · split
      · exact .trans (t := s.drawn) (.of_chans rfl rfl) (.of_modChan ⟨rfl, .inr hlisted, fun _ => rfl⟩)
      · exact .of_chans rfl rfl

/-- Every command, whoever issues it (R75 to R90). -/
theorem commandEffect_settings {i : Instr} {r : State × Status} (h : commandEffect i s = some r) : s.SettingsKept r.1 := by
  cases i with
  | initOpen c =>
    cases h
    unfold cmdInitOpen
    split
    · exact .of_chans rfl rfl
    · exact .of_modChan .openClosed
  | initClose c =>
    cases h
    unfold cmdInitClose
    split
    · exact .of_chans rfl rfl
    · next ch hs =>
      obtain ⟨-, rfl⟩ := stop_some _ _ hs
      exact .of_modChan (.of_eq rfl rfl rfl)
  | initInvalid c v => cases h; exact .of_chans rfl rfl
  | setBaud c v => cases h; exact .cmdSetBaud c v s
  | tx c a b =>
    cases h
    unfold cmdTx
    dsimp only
    split
    · exact .of_chans rfl rfl
    · exact .of_modChan (.acceptTx a b)
  | rx c a b =>
    cases h
    unfold cmdRx
    dsimp only
    split
    · exact .of_chans rfl rfl
    · exact .of_modChan (.acceptRx a b)
  | abortTx c => cases h; exact .cmdAbortTx c s
  | abortRx c => cases h; exact .of_modChan (.of_eq rfl rfl rfl)
  | abortTxRx c => cases h; exact .trans (.cmdAbortTx c s) (.of_modChan (.of_eq rfl rfl rfl))
  | irqTx _ | irqRx _ | irqProto _ | txDone _ | envTxShift _ | envRxArrive _ _ | envRxArriveAlt _ _ | envPFlag _ _ => cases h

/-- A host command on the main line (R178). -/
theorem OnMainLine.settings {i : Instr} (h : OnMainLine i s t) : s.SettingsKept t := by
  obtain ⟨r, hr, -, -, -, rfl⟩ := h
  exact (commandEffect_settings hr).trans (.of_chans rfl rfl)

/-- A consumer's nested commands (R181). -/
theorem nestedCommands_settings {ws : List (BitVec 80)} (h : nestedCommands ws s = .next t) : s.SettingsKept t := by
  induction ws generalizing s with
  | nil => cases h; exact .of_chans rfl rfl
  | cons w ws ih =>
    obtain ⟨u, hu, ht⟩ := (andThen_next _ _ _).1 h
    obtain ⟨i, r, -, -, hr, rfl⟩ := nestedCommand_next _ _ _ hu
    exact (commandEffect_settings hr).trans (.trans (t := r.1.reply .interrupt r.2) (.of_chans rfl rfl) (ih ht))

/-- A callback (R180, R181). -/
theorem callback_settings {r : CbRec} (h : callback r s = .next t) : s.SettingsKept t :=
  .trans (t := s.notify r) (.of_chans rfl rfl) (nestedCommands_settings h)

/-! Environment steps. -/

/-- An arrival (R118). -/
theorem State.SettingsKept.arrive (s : State) (c : Nat) (u : Byte) (alt : Bool) : s.SettingsKept (s.arrive c u alt) := by
  unfold State.arrive
  split
  · exact .of_modChan (.arriveFifo u alt)
  · split
    · exact .of_modChan (.arriveByte u true)
    · exact .trans (t := s.drawn) (.of_chans rfl rfl) (.of_modChan (.arriveByte u _))

/-- The wire's delivery (R120). -/
theorem State.SettingsKept.deliver (s : State) (d : Nat) (u : Byte) : s.SettingsKept (s.deliver d u) := by
  unfold State.deliver
  split
  · exact .arrive s d u false
  · exact .of_chans rfl rfl

/-- A shift, the wire's delivery included (R117, R120). -/
theorem State.SettingsKept.shiftUnit (c : Nat) (s : State) : s.SettingsKept (shiftUnit c s) := by
  unfold Machine.shiftUnit
  split
  · exact .of_chans rfl rfl
  · next u q _ =>
    have hshift : s.SettingsKept (s.modChan c fun ch => ch.shiftOut u) := .of_modChan (.shiftOut u)
    dsimp only
    split
    · exact hshift
    · next d _ => exact hshift.trans (.deliver _ d u)

/-- An environment step does what its effect does. -/
theorem environmentStep_settings {en : State → Bool} {why : Refusal} {f : State → State} (hf : s.SettingsKept (f s))
    (h : environmentStep c en why f s = .next t) : s.SettingsKept t := by
  obtain ⟨-, -, rfl⟩ := environmentStep_next _ _ _ _ _ _ h
  exact hf

/-- ENV.TXSHIFT (R117). -/
theorem execEnvTxShift_settings (h : execEnvTxShift c s = .next t) : s.SettingsKept t :=
  environmentStep_settings (.shiftUnit c s) h

/-- ENV.RXARRIVE (R118). -/
theorem execEnvRxArrive_settings {u : Byte} (h : execEnvRxArrive c u s = .next t) : s.SettingsKept t :=
  environmentStep_settings (f := fun s => s.arrive c u false) (.arrive s c u false) h

/-- ENV.RXARRIVE.ALT (R118). -/
theorem execEnvRxArriveAlt_settings {u : Byte} (h : execEnvRxArriveAlt c u s = .next t) : s.SettingsKept t :=
  environmentStep_settings (f := fun s => s.arrive c u true) (.arrive s c u true) h

/-- ENV.PFLAG (R119). -/
theorem execEnvPFlag_settings {i : Nat} (h : execEnvPFlag c i s = .next t) : s.SettingsKept t := by
  unfold execEnvPFlag at h
  split at h
  · exact environmentStep_settings (.of_modChan (.detect i)) h
  · cases h

/-! Handlers. -/

/-- Entry of a handler, the protocol handler's only under protocol monitoring (R175). -/
theorem State.SettingsKept.enter {k : Vec} (hk : k = .pr → s.par.protoMon = true) : s.SettingsKept (s.enter c k) :=
  .trans (t := s.modChan c fun ch => ch.unpend k) (.of_modChan (.modVec k _ hk)) (.of_chans rfl rfl)

/-- A handler that runs to its return in one step (R175, R176). -/
theorem dispatchVector_settings {k : Vec} {body : State → Result} (hk : k = .pr → s.par.protoMon = true)
    (hbody : ∀ {s' t'}, body s' = .next t' → s'.SettingsKept t')
    (h : dispatchVector c k (fun s' => andThen (body s') fun t => .next t.leave) s = .next t) : s.SettingsKept t := by
  obtain ⟨-, -, hrun⟩ := dispatchVector_next _ _ _ _ _ h
  obtain ⟨u, hu, ht⟩ := (andThen_next _ _ _).1 hrun
  cases ht
  exact (State.SettingsKept.enter hk).trans ((hbody hu).trans (.of_chans rfl rfl))

/-- The protocol scan (R157). -/
theorem protoScan_settings (h : protoScan c s = .next t) : s.SettingsKept t := by
  unfold protoScan at h
  split at h
  · cases h; exact .of_chans rfl rfl
  · exact .trans (.of_modChan (.of_eq rfl rfl rfl)) (callback_settings h)

/-- IRQ.PROTO is no step without protocol monitoring (R159). -/
theorem execIrqProto_unmonitored (hm : s.par.protoMon = false) : execIrqProto c s = .refused .notDispatchable := by
  rw [execIrqProto, if_neg (Bool.eq_false_iff.1 hm)]

/-- IRQ.PROTO (R155). -/
theorem execIrqProto_settings (h : execIrqProto c s = .next t) : s.SettingsKept t := by
  unfold execIrqProto at h
  split at h
  · next hm => exact dispatchVector_settings (fun _ => hm) protoScan_settings h
  · cases h

/-- A pop (R103). -/
theorem State.SettingsKept.rxPop (s : State) (c : Nat) : s.SettingsKept (s.rxPop c).2 := by
  unfold State.rxPop
  split
  · exact .of_modChan (.of_eq rfl rfl rfl)
  · exact .of_chans rfl rfl

/-- A popped unit is forwarded (R141, R142). -/
theorem forwardPopped_settings (h : forwardUnit c (s.rxPop c).1 (s.rxPop c).2 = .next t) : s.SettingsKept t :=
  (State.SettingsKept.rxPop s c).trans (.trans (t := (s.rxPop c).2.drawn) (.of_chans rfl rfl) (callback_settings h))

/-- The unsolicited paths (R141, R142). -/
theorem unsolicited_settings (h : unsolicited c s = .next t) : s.SettingsKept t := by
  unfold unsolicited unsolicitedFifo unsolicitedByte at h
  split at h
  · split at h
    · cases h; exact .of_chans rfl rfl
    · exact forwardPopped_settings h
  · exact forwardPopped_settings h

/-- Completion of a receive (R147). -/
theorem completeRx_settings (h : completeRx c s = .next t) : s.SettingsKept t := by
  obtain ⟨u, hu, ht⟩ := (andThen_next _ _ _).1 h
  cases ht
  exact (callback_settings hu).trans (.of_modChan (.of_eq rfl rfl rfl))

/-- Units that moved to memory `m` under an update of their channel (R144, R146). -/
theorem State.SettingsKept.moved {f : Chan → Chan} (m : Memory) (hf : (s.chan c).SettingsKept s.par (f (s.chan c))) :
    s.SettingsKept ((s.modChan c f).withMem m) :=
  .trans (.of_modChan hf) (.of_chans rfl rfl)

/-- The FIFO path of a receive in flight (R144). -/
theorem solicitedFifo_settings (h : solicitedFifo c s = .next t) : s.SettingsKept t := by
  unfold solicitedFifo at h
  split at h
  · cases h
  · next q tcb m _ =>
    have hmoved : s.SettingsKept ((s.modChan c fun ch => { ch with rxq := q, rx := tcb }).withMem m) :=
      .moved m (.of_eq rfl rfl rfl)
    dsimp only at h
    split at h
    · cases h; exact hmoved.trans (.of_modChan (.of_eq rfl rfl rfl))
    · split at h
      · exact hmoved.trans (completeRx_settings h)
      · cases h

/-- The byte path of a receive in flight (R146). -/
theorem solicitedByte_settings (h : solicitedByte c s = .next t) : s.SettingsKept t := by
  have hpop := State.SettingsKept.rxPop s c
  unfold solicitedByte at h
  dsimp only at h
  split at h
  · cases h
  · split at h
    · exact hpop.trans (.trans (.moved _ (.of_eq rfl rfl rfl)) (completeRx_settings h))
    · cases h; exact hpop.trans (.moved _ (.of_eq rfl rfl rfl))

/-- The receive handler's body (R140). -/
theorem rxHandler_settings (h : rxHandler c s = .next t) : s.SettingsKept t := by
  unfold rxHandler at h
  dsimp only at h
  split at h
  · split at h
    · exact solicitedFifo_settings h
    · exact solicitedByte_settings h
  · split at h
    · exact unsolicited_settings h
    · unfold mixedReceive at h
      split at h
      · cases h; exact .of_chans rfl rfl
      · exact unsolicited_settings h

/-- Completion of a transmit (R134). -/
theorem completeTx_settings (h : completeTx c s = .next t) : s.SettingsKept t := by
  obtain ⟨u, hu, ht⟩ := (andThen_next _ _ _).1 h
  cases ht
  exact .trans (.of_modChan (.of_eq rfl rfl rfl)) ((callback_settings hu).trans (.of_modChan (.of_eq rfl rfl rfl)))

/-- The transmit handler's body (R130 to R134). -/
theorem txHandler_settings (h : txHandler c s = .next t) : s.SettingsKept t := by
  obtain ⟨-, rfl⟩ | ⟨-, ⟨-, ch', hfill, rfl⟩ | ⟨-, ⟨-, u, hu, rfl⟩ | ⟨-, rfl⟩⟩⟩ := txHandler_next h
  · exact .of_chans rfl rfl
  · exact .trans (.of_modChan (.fill hfill)) (.of_chans rfl rfl)
  · exact (completeTx_settings hu).trans (.of_chans rfl rfl)
  · exact .of_modChan (.of_eq rfl rfl rfl)

/-- IRQ.TX (R130). -/
theorem execIrqTx_settings (h : execIrqTx c s = .next t) : s.SettingsKept t := by
  obtain ⟨-, -, hrun⟩ := dispatchVector_next _ _ _ _ _ h
  exact .trans (.enter fun hk => by cases hk) (txHandler_settings hrun)

/-- TXDONE (R134). -/
theorem execTxDone_settings (h : execTxDone c s = .next t) : s.SettingsKept t := by
  unfold execTxDone at h
  split at h
  · cases h
  · split at h
    · obtain ⟨u, hu, ht⟩ := (andThen_next _ _ _).1 h
      cases ht
      exact .trans (.of_modChan (.of_eq rfl rfl rfl)) ((completeTx_settings hu).trans (.of_chans rfl rfl))
    · cases h

/-- Every operation. -/
theorem exec_settings {i : Instr} (h : exec i s = .next t) : s.SettingsKept t := by
  cases i with
  | initOpen _ | initClose _ | initInvalid _ _ | setBaud _ _ | tx _ _ _ | rx _ _ _ | abortTx _ | abortRx _ | abortTxRx _ =>
    exact (exec_command_next (by rfl) h).settings
  | irqTx c => exact execIrqTx_settings h
  | irqRx c => exact dispatchVector_settings (fun hk => by cases hk) rxHandler_settings h
  | irqProto c => exact execIrqProto_settings h
  | txDone c => exact execTxDone_settings h
  | envTxShift c => exact execEnvTxShift_settings h
  | envRxArrive c u => exact execEnvRxArrive_settings h
  | envRxArriveAlt c u => exact execEnvRxArriveAlt_settings h
  | envPFlag c n => exact execEnvPFlag_settings h

end StateSettings

/-! A stopped channel (R22, R123). -/

section StoppedChannel

variable {s : State} {c : Nat}

/-- On a channel that exists a disabled environment step is refused with its own reason (log 2). -/
theorem environmentStep_disabled {en : State → Bool} {why : Refusal} {f : State → State} (hc : c < s.nch)
    (he : en s = false) : environmentStep c en why f s = .refused why := by
  rw [environmentStep, if_neg (Nat.not_le.2 hc), if_neg (Bool.eq_false_iff.1 he)]

/-- No unit reaches a stopped receiver (R118). -/
theorem State.arrivalEnabled_stopped (hr : (s.chan c).run = false) : s.arrivalEnabled c = false := by
  simp [State.arrivalEnabled, Chan.takesUnit, hr]

/-- ENV.TXSHIFT (R117). -/
theorem execEnvTxShift_stopped (hc : c < s.nch) (hr : (s.chan c).run = false) :
    execEnvTxShift c s = .refused .nothingToShift :=
  environmentStep_disabled hc (by simp [State.shiftEnabled, hr])

/-- ENV.RXARRIVE (R118). -/
theorem execEnvRxArrive_stopped (hc : c < s.nch) (hr : (s.chan c).run = false) (u : Byte) :
    execEnvRxArrive c u s = .refused .noArrival :=
  environmentStep_disabled hc (State.arrivalEnabled_stopped hr)

/-- ENV.RXARRIVE.ALT (R118). -/
theorem execEnvRxArriveAlt_stopped (hc : c < s.nch) (hr : (s.chan c).run = false) (u : Byte) :
    execEnvRxArriveAlt c u s = .refused .noArrival :=
  environmentStep_disabled hc (State.arrivalEnabled_stopped hr)

/-- ENV.PFLAG (R119). -/
theorem execEnvPFlag_stopped (hc : c < s.nch) (hr : (s.chan c).run = false) {i : Nat} (hi : i < 5) :
    execEnvPFlag c i s = .refused .noDetection := by
  rw [execEnvPFlag, if_pos hi]
  exact environmentStep_disabled hc hr

end StoppedChannel

/-- The STATE word of a channel at reset (R32). -/
theorem Chan.stateWord_reset (q : ChanParams) : (Chan.reset q).flags.stateWord = 0 := by
  change ChanFlags.stateWord ⟨false, false, false, false, false⟩ = 0
  decide

end Sys2Proof.Machine

namespace Sys2Proof.Proofs

open Sys2Proof.Machine

/-- Settles O29: IRQ.PROTO tests PROTO_MON first, and what an operation keeps of a channel's settings includes the
unmonitored protocol vector. -/
theorem noProtocolPathWithoutMonitoring : Obligations.NoProtocolPathWithoutMonitoring := by
  intro s hm
  exact ⟨fun c => execIrqProto_unmonitored hm, fun i t d hx => ((exec_settings hx).chan d).vPr hm⟩

/-- Settles O46: every operation keeps the settings. -/
theorem configurationIsImmutable : Obligations.ConfigurationIsImmutable := by
  intro s t i c hx
  have hkept := exec_settings hx
  exact ⟨hkept.par, hkept.nch, (hkept.chan c).par, (hkept.chan c).baud⟩

/-- Settles O34: each of the four steps is disabled while RUN is 0. -/
theorem stoppedChannelHasNoEnvironmentStep : Obligations.StoppedChannelHasNoEnvironmentStep := by
  intro s c i u hc hi hrun
  exact ⟨execEnvTxShift_stopped hc hrun, execEnvRxArrive_stopped hc hrun u, execEnvRxArriveAlt_stopped hc hrun u,
    execEnvPFlag_stopped hc hrun hi⟩

/-- Settles O51: channel `c` of the reset state is a channel at reset with its own parameters. -/
theorem resetValues : Obligations.ResetValues := by
  intro p ps c h
  rw [State.chan_resetWith p ps c h]
  exact ⟨State.nch_resetWith p ps, rfl, rfl, Chan.stateWord_reset _, rfl⟩

end Sys2Proof.Proofs

namespace Sys2Proof.Machine

/-! Faults. A fault comes only from an access above the address space, a push onto an occupied buffer or a limit with nothing
remaining; the operations are followed under the invariant to those three places. -/

/-- An outcome that is no fault. -/
def Faultless (o : Result) : Prop := ∀ f, o ≠ .fault f

section Outcomes

variable {s t : State} {c : Nat}

theorem Faultless.next : Faultless (.next t) := fun _ h => by cases h

theorem Faultless.refused {why : Refusal} : Faultless (.refused why) := fun _ h => by cases h

/-- A sequence faults through its first part, or through its second part after a next state. -/
theorem Faultless.andThen {o : Result} {f : State → Result} (ho : Faultless o)
    (hf : ∀ u, o = .next u → Faultless (f u)) : Faultless (andThen o f) := by
  cases o with
  | next u => exact hf u rfl
  | fault r => exact absurd rfl (ho r)
  | refused r => exact .refused

/-- A host command is carried out or refused (R178). -/
theorem Faultless.hostCommand {f : State → State × Status} : Faultless (hostCommand c f s) := by
  unfold Machine.hostCommand
  split
  · exact .refused
  · split
    · exact .next
    · exact .refused

/-- A bounded request has the outcome of its command, or is refused (log 12). -/
theorem Faultless.boundedRequest {a b : Word} {o : Result} (ho : Faultless o) : Faultless (boundedRequest a b o) := by
  unfold Machine.boundedRequest
  split
  · exact ho
  · exact .refused

/-- A step of the environment happens or is refused (R63). -/
theorem Faultless.environmentStep {en : State → Bool} {why : Refusal} {f : State → State} :
    Faultless (environmentStep c en why f s) := by
  unfold Machine.environmentStep
  split
  · exact .refused
  · split
    · exact .next
    · exact .refused

/-- A dispatch faults only where its handler does, from the entered state of a dispatchable vector (R173). -/
theorem Faultless.dispatchVector {k : Vec} {body : State → Result}
    (hb : c < s.nch → s.dispatchable c k = true → Faultless (body (s.enter c k))) : Faultless (dispatchVector c k body s) := by
  unfold Machine.dispatchVector
  split
  · exact .refused
  · next hc =>
    split
    · next hd => exact hb (Nat.not_le.1 hc) hd
    · exact .refused

/-- A handler that runs to its return in one step faults only in its body. -/
theorem Faultless.dispatched {k : Vec} {body : State → Result} (h : s.Sound)
    (hb : ∀ {s'}, s'.Sound → c < s'.nch → Faultless (body s')) :
    Faultless (Machine.dispatchVector c k (fun s' => Machine.andThen (body s') fun t => .next t.leave) s) :=
  .dispatchVector fun hc _ => .andThen (hb (h.enter hc k) (by rwa [State.nch_enter])) fun _ _ => .next

/-! Callbacks. -/

/-- A nested command is carried out or refused (R181, U1, U6). -/
theorem nestedCommand_faultless (w : BitVec 80) (s : State) : Faultless (nestedCommand w s) := by
  unfold nestedCommand
  split
  · exact .refused
  · split
    · exact .refused
    · split
      · exact .next
      · exact .refused

theorem nestedCommands_faultless (ws : List (BitVec 80)) (s : State) : Faultless (nestedCommands ws s) := by
  induction ws generalizing s with
  | nil => exact .next
  | cons w ws ih => exact .andThen (nestedCommand_faultless w s) fun u _ => ih u

theorem callback_faultless (r : CbRec) (s : State) : Faultless (callback r s) := nestedCommands_faultless _ _

/-- The scan faults nowhere (R157). -/
theorem protoScan_faultless (c : Nat) (s : State) : Faultless (protoScan c s) := by
  unfold protoScan
  split
  · exact .next
  · exact callback_faultless _ _

/-- The unsolicited paths access no buffer memory (R141, R142). -/
theorem unsolicited_faultless (c : Nat) (s : State) : Faultless (unsolicited c s) := by
  unfold unsolicited unsolicitedFifo unsolicitedByte
  split
  · split
    · exact .next
    · exact callback_faultless _ _
  · exact callback_faultless _ _

/-- The mixed path does nothing or is unsolicited (R143). -/
theorem mixedReceive_faultless (c : Nat) (s : State) : Faultless (mixedReceive c s) := by
  unfold mixedReceive
  split
  · exact .next
  · exact unsolicited_faultless c s

theorem completeRx_faultless (c : Nat) (s : State) : Faultless (completeRx c s) :=
  .andThen (callback_faultless _ _) fun _ _ => .next

theorem completeTx_faultless (c : Nat) (s : State) : Faultless (completeTx c s) :=
  .andThen (callback_faultless _ _) fun _ _ => .next

end Outcomes

section Accesses

variable {s : State} {c : Nat}

theorem bufferFits_iff {a b : Word} : bufferFits a b = true ↔ a.toNat + b.toNat ≤ Memory.top := decide_eq_true_iff

/-- The next unit of an unfinished transfer lies inside its buffer (R42, R43). -/
theorem Tcb.address_lt_end {t : Tcb} (hlt : t.idx < t.len) : t.address < t.ptr.toNat + t.len.toNat :=
  Nat.add_lt_add_left hlt _

/-- Where the buffer fits, the next unit lies inside the address space (R42, R43). -/
theorem Tcb.address_lt_top {t : Tcb} (hfit : bufferFits t.ptr t.len = true) (hlt : t.idx < t.len) : t.address < Memory.top :=
  (Tcb.address_lt_end hlt).trans_le (bufferFits_iff.1 hfit)

theorem memRead_eq {m : Memory} {a : Nat} (h : a < Memory.top) : memRead m a = .ok (m.read a) := if_pos h

theorem memWrite_eq {m : Memory} {a : Nat} {b : Byte} (h : a < Memory.top) : memWrite m a b = .ok (m.write a b) := if_pos h

theorem txPush_eq {ch : Chan} {u : Byte} (h : ch.txFull = false) : ch.txPush u = .ok { ch with txq := ch.txq ++ [u] } :=
  if_neg (Bool.eq_false_iff.1 h)

/-- An empty transmit buffer is not full: in either mode there is room for a unit (R101). -/
theorem Chan.txFull_of_txEmpty {ch : Chan} (he : ch.txEmpty = true) : ch.txFull = false := by
  have hlevel : ch.txLevel = 0 := by simpa [Chan.txEmpty] using he
  have hdepth : ch.txDepth ≠ 0 := by
    unfold Chan.txDepth Chan.txFifo
    split
    · next hf => simpa using hf
    · exact Nat.one_ne_zero
  simp [Chan.txFull, hlevel, hdepth.symm]

/-- The fill of an unfinished transmit in flight succeeds: its buffer fits, and in byte mode its one slot is empty
(R131, R132, R136 (c)). -/
theorem Chan.Inv.fill_ok {nch : Nat} {p : Params} {ch : Chan} (h : ch.Inv nch p) (m : Memory)
    (hi : ch.flags.txInFlight = true) (hlt : ch.tx.idx < ch.tx.len) (hbyte : ch.txFifo = false → ch.txEmpty = true) :
    ∃ ch', ch.fill m = .ok ch' := by
  obtain ⟨-, hfit⟩ := h.tx_buffer hi
  unfold Chan.fill
  split
  · next hf =>
    have hdepth : ch.txDepth = ch.par.txCap := if_pos hf
    have hlevel : ch.txq.length ≤ ch.par.txCap := hdepth ▸ h.tx_level
    exact ⟨_, fillFifo_eq m _ ch (bufferFits_iff.1 hfit) hdepth rfl h.tx_index hlevel⟩
  · next hf =>
    have hroom := Chan.txFull_of_txEmpty (hbyte (Bool.eq_false_iff.2 hf))
    have hone : ch.fillOne m = .ok { ch with txq := ch.txq ++ [m.read ch.tx.address], tx := ch.tx.advance } := by
      simp only [Chan.fillOne, memRead_eq (Tcb.address_lt_top hfit hlt), txPush_eq hroom]
    exact ⟨_, hone⟩

/-- The transmit handler's body (R130 to R133). -/
theorem State.Sound.txHandler_faultless (h : s.Sound) (hc : c < s.nch)
    (hbyte : (s.chan c).txFifo = false → (s.chan c).txEmpty = true) : Faultless (txHandler c s) := by
  unfold txHandler
  dsimp only
  split
  · exact .next
  · next hi =>
    split
    · next hlt =>
      obtain ⟨ch', hfill⟩ := (h.channels c hc).fill_ok s.mem (by simpa using hi) hlt hbyte
      rw [hfill]
      exact .next
    · split
      · exact .andThen (completeTx_faultless c s) fun _ _ => .next
      · exact .next

/-- IRQ.TX: the vector was pending, so a byte-mode buffer is empty (R136 (c)). -/
theorem State.Inv.execIrqTx_faultless (h : s.Inv) : Faultless (execIrqTx c s) := by
  refine .dispatchVector fun hc hd => (h.sound.enter hc .tx).txHandler_faultless (by rwa [State.nch_enter]) ?_
  have hpend : (s.chan c).vTx.pend = true := by
    simp only [State.dispatchable, VecRegs.wants, Bool.and_eq_true] at hd
    exact hd.1.1.2
  rw [State.chan_enter_same s c .tx hc]
  exact fun hf => (h.channels c hc).byte_pending hf hpend

/-- TXDONE (R134). -/
theorem execTxDone_faultless (c : Nat) (s : State) : Faultless (execTxDone c s) := by
  unfold execTxDone
  split
  · exact .refused
  · split
    · exact .andThen (completeTx_faultless c _) fun _ _ => .next
    · exact .refused

/-- The FIFO path of a receive in flight: the buffer fits, and a unit was still to come (R144 (c), R106). -/
theorem State.Sound.solicitedFifo_faultless (h : s.Sound) (hc : c < s.nch) (hi : (s.chan c).flags.rxInFlight = true) :
    Faultless (solicitedFifo c s) := by
  have hch := h.channels c hc
  obtain ⟨-, hfit, hlt⟩ := hch.rx_buffer hi
  obtain ⟨m, hdrain, -⟩ := drain_eq (s.chan c).rxq (s.chan c).rx s.mem h.memory (bufferFits_iff.1 hfit) hch.rx_index
  unfold solicitedFifo
  rw [hdrain]
  dsimp only
  rw [if_pos hlt]
  split
  · exact .next
  · exact completeRx_faultless c _

/-- The byte path of a receive in flight (R146). -/
theorem State.Sound.solicitedByte_faultless (h : s.Sound) (hc : c < s.nch) (hi : (s.chan c).flags.rxInFlight = true) :
    Faultless (solicitedByte c s) := by
  obtain ⟨-, hfit, hlt⟩ := (h.channels c hc).rx_buffer hi
  unfold solicitedByte
  dsimp only
  rw [memWrite_eq (Tcb.address_lt_top hfit hlt)]
  dsimp only
  split
  · exact completeRx_faultless c _
  · exact .next

/-- The receive handler's body (R140). -/
theorem State.Sound.rxHandler_faultless (h : s.Sound) (hc : c < s.nch) : Faultless (rxHandler c s) := by
  unfold rxHandler
  dsimp only
  split
  · next hi =>
    split
    · exact h.solicitedFifo_faultless hc hi
    · exact h.solicitedByte_faultless hc hi
  · split
    · exact unsolicited_faultless c s
    · exact mixedReceive_faultless c s

/-- IRQ.PROTO (R155). -/
theorem State.Sound.execIrqProto_faultless (h : s.Sound) : Faultless (execIrqProto c s) := by
  unfold execIrqProto
  split
  · exact .dispatched h fun _ _ => protoScan_faultless c _
  · exact .refused

/-- ENV.TXSHIFT (R117). -/
theorem execEnvTxShift_faultless (c : Nat) (s : State) : Faultless (execEnvTxShift c s) := .environmentStep

/-- ENV.RXARRIVE (R118). -/
theorem execEnvRxArrive_faultless (c : Nat) (u : Byte) (s : State) : Faultless (execEnvRxArrive c u s) := .environmentStep

/-- ENV.RXARRIVE.ALT (R118). -/
theorem execEnvRxArriveAlt_faultless (c : Nat) (u : Byte) (s : State) : Faultless (execEnvRxArriveAlt c u s) :=
  .environmentStep

/-- ENV.PFLAG (R119). -/
theorem execEnvPFlag_faultless (c i : Nat) (s : State) : Faultless (execEnvPFlag c i s) := by
  unfold execEnvPFlag
  split
  · exact .environmentStep
  · exact .refused

/-- No operation faults under the invariant. -/
theorem State.Inv.exec_faultless (h : s.Inv) (i : Instr) : Faultless (exec i s) := by
  cases i with
  | initOpen _ | initClose _ | initInvalid _ _ | setBaud _ _ | abortTx _ | abortRx _ | abortTxRx _ => exact .hostCommand
  | tx _ _ _ | rx _ _ _ => exact .boundedRequest .hostCommand
  | irqTx c => exact h.execIrqTx_faultless
  | irqRx c => exact .dispatched h.sound fun hs hc => hs.rxHandler_faultless hc
  | irqProto c => exact h.sound.execIrqProto_faultless
  | txDone c => exact execTxDone_faultless c s
  | envTxShift c => exact execEnvTxShift_faultless c s
  | envRxArrive c u => exact execEnvRxArrive_faultless c u s
  | envRxArriveAlt c u => exact execEnvRxArriveAlt_faultless c u s
  | envPFlag c n => exact execEnvPFlag_faultless c n s

/-- A step is refused, a host store, or an operation after the fetch (log 1). -/
theorem State.Inv.step_faultless (h : s.Inv) : Faultless (step s) := by
  unfold step
  split
  · exact .refused
  · exact .next
  · split
    · exact .refused
    · exact h.afterFetch.exec_faultless _

end Accesses

/-! Buffer memory. Everything but a receive in flight leaves MEM as it is, from any state. -/

section MemoryFrames

variable {s t : State} {c : Nat}

/-- A command, whoever issues it, writes no memory (R46). -/
theorem commandEffect_mem {i : Instr} {r : State × Status} (h : commandEffect i s = some r) : r.1.mem = s.mem := by
  obtain ⟨n, f, hf, -⟩ := commandEffect_result _ _ _ h
  rw [hf]
  rfl

theorem OnMainLine.mem {i : Instr} (h : OnMainLine i s t) : t.mem = s.mem := by
  obtain ⟨r, hr, -, -, -, rfl⟩ := h
  exact commandEffect_mem hr

/-- Nor does a callback (R181). -/
theorem callback_mem {r : CbRec} (h : callback r s = .next t) : t.mem = s.mem := (callback_result _ _ _ h).mem

@[simp] theorem State.mem_arrive (s : State) (c : Nat) (u : Byte) (alt : Bool) : (s.arrive c u alt).mem = s.mem := by
  unfold State.arrive
  split
  · rfl
  · split <;> rfl

@[simp] theorem State.mem_deliver (s : State) (d : Nat) (u : Byte) : (s.deliver d u).mem = s.mem := by
  unfold State.deliver
  split
  · exact State.mem_arrive s d u false
  · rfl

@[simp] theorem mem_shiftUnit (c : Nat) (s : State) : (shiftUnit c s).mem = s.mem := by
  unfold shiftUnit
  split
  · rfl
  · dsimp only
    split
    · rfl
    · exact State.mem_deliver _ _ _

theorem environmentStep_mem {en : State → Bool} {why : Refusal} {f : State → State} (hf : (f s).mem = s.mem)
    (h : environmentStep c en why f s = .next t) : t.mem = s.mem := by
  obtain ⟨-, -, rfl⟩ := environmentStep_next _ _ _ _ _ _ h
  exact hf

theorem execEnvTxShift_mem (h : execEnvTxShift c s = .next t) : t.mem = s.mem :=
  environmentStep_mem (mem_shiftUnit c s) h

theorem execEnvRxArrive_mem {u : Byte} (h : execEnvRxArrive c u s = .next t) : t.mem = s.mem :=
  environmentStep_mem (f := fun s => s.arrive c u false) (State.mem_arrive s c u false) h

theorem execEnvRxArriveAlt_mem {u : Byte} (h : execEnvRxArriveAlt c u s = .next t) : t.mem = s.mem :=
  environmentStep_mem (f := fun s => s.arrive c u true) (State.mem_arrive s c u true) h

theorem execEnvPFlag_mem {i : Nat} (h : execEnvPFlag c i s = .next t) : t.mem = s.mem := by
  unfold execEnvPFlag at h
  split at h
  · exact environmentStep_mem (State.mem_modChan ..) h
  · cases h

theorem protoScan_mem (h : protoScan c s = .next t) : t.mem = s.mem := by
  unfold protoScan at h
  split at h
  · cases h; rfl
  · exact (callback_mem h :)

theorem execIrqProto_mem (h : execIrqProto c s = .next t) : t.mem = s.mem := by
  unfold execIrqProto at h
  split at h
  · obtain ⟨-, -, hrun⟩ := dispatchVector_next _ _ _ _ _ h
    obtain ⟨u, hu, ht⟩ := (andThen_next _ _ _).1 hrun
    cases ht
    exact (protoScan_mem hu :)
  · cases h

/-- Completion of a transmit writes no memory (R134). -/
theorem completeTx_mem (h : completeTx c s = .next t) : t.mem = s.mem := by
  obtain ⟨u, hu, ht⟩ := (andThen_next _ _ _).1 h
  cases ht
  exact (callback_mem hu :)

/-- The transmit handler leaves memory as it is: its fill only reads it (R131, R132). -/
theorem execIrqTx_mem (h : execIrqTx c s = .next t) : t.mem = s.mem := by
  obtain ⟨-, -, hrun⟩ := dispatchVector_next _ _ _ _ _ h
  obtain ⟨-, rfl⟩ | ⟨-, ⟨-, ch', -, rfl⟩ | ⟨-, ⟨-, u, hu, rfl⟩ | ⟨-, rfl⟩⟩⟩ := txHandler_next hrun
  · rfl
  · rfl
  · exact (completeTx_mem hu :)
  · rfl

theorem execTxDone_mem (h : execTxDone c s = .next t) : t.mem = s.mem := by
  unfold execTxDone at h
  split at h
  · cases h
  · split at h
    · obtain ⟨u, hu, ht⟩ := (andThen_next _ _ _).1 h
      cases ht
      exact (completeTx_mem hu :)
    · cases h

/-! The receive handler. -/

/-- A unit that is forwarded to the consumer is not stored (R141, R142). -/
theorem unsolicited_mem (h : unsolicited c s = .next t) : t.mem = s.mem := by
  have hforward : forwardUnit c (s.rxPop c).1 (s.rxPop c).2 = .next t → t.mem = s.mem :=
    fun hx => (callback_mem hx).trans (mem_rxPop s c)
  unfold unsolicited unsolicitedFifo unsolicitedByte at h
  split at h
  · split at h
    · cases h; rfl
    · exact hforward h
  · exact hforward h

/-- The mixed path does nothing or is unsolicited (R143). -/
theorem mixedReceive_mem (h : mixedReceive c s = .next t) : t.mem = s.mem := by
  unfold mixedReceive at h
  split at h
  · cases h; rfl
  · exact unsolicited_mem h

/-- Completion of a receive stores nothing itself (R147). -/
theorem completeRx_mem (h : completeRx c s = .next t) : t.mem = s.mem := by
  obtain ⟨u, hu, ht⟩ := (andThen_next _ _ _).1 h
  cases ht
  exact (callback_mem hu :)

/-- Where a transfer with control block `t` may store: from its next address up, inside the address space, and inside its
buffer while a unit is still to come (R43, R148). -/
def Tcb.MayStoreAt (t : Tcb) (a : Nat) : Prop :=
  t.address ≤ a ∧ a < Memory.top ∧ (t.idx < t.len → a < t.ptr.toNat + t.len.toNat)

/-- One store that succeeds is at the next address. -/
theorem Tcb.MayStoreAt.of_memWrite {t : Tcb} {m m' : Memory} {u : Byte} {a : Nat} (h : memWrite m t.address u = .ok m')
    (ha : m'.read a ≠ m.read a) : t.MayStoreAt a := by
  obtain ⟨htop, rfl⟩ := memWrite_ok _ _ _ _ h
  have hat : a = t.address := by
    by_contra hne
    exact ha (Memory.read_write_ne m _ a u hne)
  subst hat
  exact ⟨Nat.le_refl _, htop, Tcb.address_lt_end⟩

/-- Where the rest of an unfinished transfer may store, the transfer may. -/
theorem Tcb.MayStoreAt.of_advance {t : Tcb} {a : Nat} (hlt : t.idx < t.len) (hadv : t.advance.idx < t.advance.len)
    (h : t.advance.MayStoreAt a) : t.MayStoreAt a := by
  obtain ⟨hlow, htop, hend⟩ := h
  rw [t.advance_address hlt] at hlow
  exact ⟨Nat.le_of_succ_le hlow, htop, fun _ => hend hadv⟩

/-- The drain stores at the addresses of its transfer, and below the buffer's end (R144). -/
theorem drain_stores {q q' : List Byte} {t t' : Tcb} {m m' : Memory} {a : Nat} (h : drain q t m = .ok (q', t', m'))
    (ha : m'.read a ≠ m.read a) : t.idx < t.len ∧ t.MayStoreAt a := by
  induction q generalizing t m with
  | nil => cases h; exact absurd rfl ha
  | cons u q ih =>
    simp only [drain] at h
    split at h
    · next hlt =>
      refine ⟨hlt, ?_⟩
      split at h
      · cases h
      · next m1 hw =>
        by_cases hfirst : m1.read a = m.read a
        · obtain ⟨hadv, hrest⟩ := ih h (by rwa [hfirst])
          exact hrest.of_advance hlt hadv
        · exact .of_memWrite hw hfirst
    · cases h; exact absurd rfl ha

/-- The FIFO path stores what the drain does (R144). -/
theorem solicitedFifo_stores {a : Nat} (h : solicitedFifo c s = .next t) (ha : t.mem.read a ≠ s.mem.read a) :
    (s.chan c).rx.MayStoreAt a := by
  unfold solicitedFifo at h
  split at h
  · cases h
  · next q tcb m hdrain =>
    have hmem : t.mem = m := by
      dsimp only at h
      split at h
      · cases h; rfl
      · split at h
        · exact (completeRx_mem h :)
        · cases h
    exact (drain_stores hdrain (hmem ▸ ha)).2

/-- The byte path stores one unit (R146). -/
theorem solicitedByte_stores {a : Nat} (h : solicitedByte c s = .next t) (ha : t.mem.read a ≠ s.mem.read a) :
    (s.chan c).rx.MayStoreAt a := by
  unfold solicitedByte at h
  dsimp only at h
  split at h
  · cases h
  · next m hw =>
    have hmem : t.mem = m := by
      split at h
      · exact (completeRx_mem h :)
      · cases h; rfl
    rw [mem_rxPop] at hw
    exact .of_memWrite hw (hmem ▸ ha)

/-- The receive handler stores only for a receive in flight (R140). -/
theorem rxHandler_stores {a : Nat} (h : rxHandler c s = .next t) (ha : t.mem.read a ≠ s.mem.read a) :
    (s.chan c).flags.rxInFlight = true ∧ (s.chan c).rx.MayStoreAt a := by
  unfold rxHandler at h
  dsimp only at h
  split at h
  · next hi =>
    refine ⟨hi, ?_⟩
    split at h
    · exact solicitedFifo_stores h ha
    · exact solicitedByte_stores h ha
  · have hkept : t.mem = s.mem := by
      split at h
      · exact unsolicited_mem h
      · exact mixedReceive_mem h
    exact absurd (by rw [hkept]) ha

/-- IRQ.RX: entry leaves the transfer and the memory, return leaves the memory (R175, R176). -/
theorem execIrqRx_stores {a : Nat} (h : execIrqRx c s = .next t) (ha : t.mem.read a ≠ s.mem.read a) :
    (s.chan c).flags.rxInFlight = true ∧ (s.chan c).rx.MayStoreAt a := by
  obtain ⟨hc, -, hrun⟩ := dispatchVector_next _ _ _ _ _ h
  obtain ⟨u, hu, ht⟩ := (andThen_next _ _ _).1 hrun
  cases ht
  have hstores := rxHandler_stores hu (a := a) ha
  rwa [State.chan_enter_same s c .rx hc] at hstores

/-- An operation other than IRQ.RX leaves memory as it is (R46). -/
theorem exec_mem {i : Instr} (hi : ∀ c, i ≠ .irqRx c) (h : exec i s = .next t) : t.mem = s.mem := by
  cases i with
  | initOpen _ | initClose _ | initInvalid _ _ | setBaud _ _ | tx _ _ _ | rx _ _ _ | abortTx _ | abortRx _ | abortTxRx _ =>
    exact (exec_command_next (by rfl) h).mem
  | irqTx c => exact execIrqTx_mem h
  | irqRx c => exact absurd rfl (hi c)
  | irqProto c => exact execIrqProto_mem h
  | txDone c => exact execTxDone_mem h
  | envTxShift c => exact execEnvTxShift_mem h
  | envRxArrive c u => exact execEnvRxArrive_mem h
  | envRxArriveAlt c u => exact execEnvRxArriveAlt_mem h
  | envPFlag c n => exact execEnvPFlag_mem h

end MemoryFrames

/-- A request whose buffer does not fit is refused, whatever its command would answer (R43, R64 (f)). -/
theorem boundedRequest_refused {a b : Word} (h : 2 ^ 32 < a.toNat + b.toNat) (o : Result) :
    boundedRequest a b o = .refused (.reserved .bufferPastTop) :=
  if_neg fun hfit => Nat.not_le.2 h (bufferFits_iff.1 hfit)

end Sys2Proof.Machine

namespace Sys2Proof.Proofs

open Sys2Proof.Machine

/-- Settles O55: under the invariant a buffer in flight fits and is unfinished, and a pending byte-mode transmit finds its
buffer empty, so none of the three faults is met. -/
theorem noStepFaults : Obligations.NoStepFaults := by
  intro s f h
  exact h.step_faultless f

/-- Settles O45: every operation but IRQ.RX keeps memory, and IRQ.RX stores at the addresses of its transfer. -/
theorem onlyTheReceiveHandlerWritesItsBuffer : Obligations.OnlyTheReceiveHandlerWritesItsBuffer := by
  intro s t i a hx ha
  by_cases hi : ∃ c, i = .irqRx c
  · obtain ⟨c, rfl⟩ := hi
    obtain ⟨hflight, hlow, htop, hend⟩ := execIrqRx_stores hx ha
    obtain ⟨hlock, hbusy⟩ := Bool.and_eq_true_iff.1 hflight
    exact ⟨c, rfl, hlock, hbusy, hlow, htop, hend⟩
  · exact absurd (by rw [exec_mem (not_exists.1 hi) hx]) ha

/-- Settles O13: both requests test the bound before anything else. -/
theorem bufferPastTheTopIsRefused : Obligations.BufferPastTheTopIsRefused := by
  intro s c a b h
  exact ⟨boundedRequest_refused h _, boundedRequest_refused h _⟩

end Sys2Proof.Proofs

namespace Sys2Proof

/-! The words of R55 and R63: reading one back field by field, and what the decoder makes of the fields. -/

/-- The field just above the lowest one. -/
theorem extractLsb'_middle {u v w : Nat} (x : BitVec u) (y : BitVec v) (z : BitVec w) :
    (x ++ y ++ z).extractLsb' w v = y := by
  rw [BitVec.extractLsb'_append_eq_of_le (Nat.le_refl w), Nat.sub_self, BitVec.extractLsb'_append_eq_right]

/-- Above the two lowest fields the bits are those of the part put before them. -/
theorem extractLsb'_above {u v w start len : Nat} (x : BitVec u) (y : BitVec v) (z : BitVec w) :
    (x ++ y ++ z).extractLsb' (w + v + start) len = x.extractLsb' start len := by
  rw [BitVec.extractLsb'_append_eq_of_le (by omega), BitVec.extractLsb'_append_eq_of_le (by omega)]
  congr 1
  omega

section Descriptor

variable {nch c : Nat} {a b : Word} {i : Instr}

theorem cmdOp_fields (op ch : BitVec 8) (a b : Word) : cmdOp (op ++ ch ++ a ++ b) = op :=
  (extractLsb'_above (start := 8) (op ++ ch) a b).trans BitVec.extractLsb'_append_eq_left

theorem cmdCh_fields (op ch : BitVec 8) (a b : Word) : cmdCh (op ++ ch ++ a ++ b) = ch :=
  (extractLsb'_above (start := 0) (op ++ ch) a b).trans BitVec.extractLsb'_append_eq_right

theorem cmdA_fields (op ch : BitVec 8) (a b : Word) : cmdA (op ++ ch ++ a ++ b) = a :=
  extractLsb'_middle (op ++ ch) a b

theorem cmdB_fields (op ch : BitVec 8) (a b : Word) : cmdB (op ++ ch ++ a ++ b) = b :=
  BitVec.extractLsb'_append_eq_right

theorem commandChannelOk_iff : commandChannelOk nch c = true ↔ c < nch ∧ c < 256 := by
  simp [commandChannelOk]

/-- R66 once the channel is known to exist: the operation that OP, A and B spell on channel `c`. -/
def decodeOp (op : BitVec 8) (c : Nat) (a b : Word) : Except Reject Instr :=
  match op.toNat with
  | 1 => .ok (decodeInit c a)
  | 2 => .ok (.setBaud c a)
  | 3 => if bufferFits a b then .ok (.tx c a b) else .error .bufferPastTop
  | 4 => if bufferFits a b then .ok (.rx c a b) else .error .bufferPastTop
  | 5 => decodeAbort c a
  | _ => .error .reservedOp

/-- The channel is checked first (R66). -/
theorem decodeCmd_eq (nch : Nat) (w : BitVec 80) : decodeCmd nch w =
    if nch ≤ (cmdCh w).toNat then .error .channelOutOfRange
    else decodeOp (cmdOp w) (cmdCh w).toNat (cmdA w) (cmdB w) := rfl

/-- A descriptor put together from its fields is decoded by them, the channel number cut to 8 bits being itself (R55). -/
theorem decode_encodeCmd (hc : commandChannelOk nch c = true) (op : BitVec 8) (a b : Word) :
    decode nch (encodeCmd op c a b) = decodeOp op c a b := by
  obtain ⟨hlt, hfield⟩ := commandChannelOk_iff.1 hc
  rw [encodeCmd, decode, decodeCmd_eq, cmdOp_fields, cmdCh_fields, cmdA_fields, cmdB_fields, BitVec.toNat_ofNat,
    Nat.mod_eq_of_lt hfield, if_neg (Nat.not_le.2 hlt)]

/-- An INIT request other than 0 and 1 (R58). -/
theorem decodeInit_invalid (h0 : a ≠ 0) (h1 : a ≠ 1) : decodeInit c a = .initInvalid c a := by
  rw [decodeInit, if_neg h1, if_neg h0]

/-- TX and RX with a buffer that fits (R64 (f)). -/
theorem decodeOp_tx (hfit : bufferFits a b = true) : decodeOp 3 c a b = .ok (.tx c a b) := if_pos hfit

theorem decodeOp_rx (hfit : bufferFits a b = true) : decodeOp 4 c a b = .ok (.rx c a b) := if_pos hfit

/-- INIT gives a well-formed operation for every request (R58). -/
theorem decodeInit_wf (hc : commandChannelOk nch c = true) (a : Word) : (decodeInit c a).wf nch = true := by
  unfold decodeInit
  split
  · exact hc
  · split
    · exact hc
    · next h1 h0 => simpa [Instr.wf, hc] using And.intro h0 h1

/-- So does ABORT for every direction that is not reserved (R59). -/
theorem decodeAbort_wf (hc : commandChannelOk nch c = true) (h : decodeAbort c a = .ok i) : i.wf nch = true := by
  unfold decodeAbort at h
  split at h
  · cases h; exact hc
  · split at h
    · cases h; exact hc
    · split at h
      · cases h; exact hc
      · cases h

/-- Whatever OP, A and B spell on a channel that exists is well-formed (R64). -/
theorem decodeOp_wf {op : BitVec 8} (hc : commandChannelOk nch c = true) (h : decodeOp op c a b = .ok i) :
    i.wf nch = true := by
  unfold decodeOp at h
  split at h
  · cases h; exact decodeInit_wf hc a
  · cases h; exact hc
  · split at h
    · next hfit => cases h; exact Bool.and_eq_true_iff.2 ⟨hc, hfit⟩
    · cases h
  · split at h
    · next hfit => cases h; exact Bool.and_eq_true_iff.2 ⟨hc, hfit⟩
    · cases h
  · exact decodeAbort_wf hc h
  · cases h

theorem decodeCmd_wf {w : BitVec 80} (h : decodeCmd nch w = .ok i) : i.wf nch = true := by
  rw [decodeCmd_eq] at h
  split at h
  · cases h
  · next hc => exact decodeOp_wf (commandChannelOk_iff.2 ⟨Nat.not_le.1 hc, (cmdCh w).isLt⟩) h

/-- R64 (c). -/
theorem decodeAbort_refused_iff : (∃ r, decodeAbort c a = .error r) ↔ a ≠ 1 ∧ a ≠ 2 ∧ a ≠ 3 := by
  unfold decodeAbort
  split
  · next h => simp [h]
  · next h1 =>
    split
    · next h => simp [h]
    · next h2 =>
      split
      · next h => simp [h]
      · next h3 => exact iff_of_true ⟨_, rfl⟩ ⟨h1, h2, h3⟩

/-- R64 (f). -/
theorem bounded_refused_iff :
    (∃ r : Reject, (if bufferFits a b then .ok i else .error .bufferPastTop : Except Reject Instr) = .error r) ↔
      2 ^ 32 < a.toNat + b.toNat := by
  split
  · next hfit => exact iff_of_false (by simp) (Nat.not_lt.2 (Machine.bufferFits_iff.1 hfit))
  · next hfit => exact iff_of_true ⟨_, rfl⟩ (Nat.not_le.1 fun hle => hfit (Machine.bufferFits_iff.2 hle))

/-- R64 (a), (c), (f): when OP, A and B spell no operation. -/
theorem decodeOp_refused_iff (op : BitVec 8) : (∃ r, decodeOp op c a b = .error r) ↔
    op.toNat < 1 ∨ 5 < op.toNat ∨ (op.toNat = 5 ∧ a ≠ 1 ∧ a ≠ 2 ∧ a ≠ 3) ∨
    ((op.toNat = 3 ∨ op.toNat = 4) ∧ 2 ^ 32 < a.toNat + b.toNat) := by
  unfold decodeOp
  split
  · next h => simp [h]
  · next h => simp [h]
  · next h => simpa [h] using bounded_refused_iff
  · next h => simpa [h] using bounded_refused_iff
  · next h => simpa [h] using decodeAbort_refused_iff
  · next h1 h2 h3 h4 h5 =>
    have hop : op.toNat < 1 ∨ 5 < op.toNat := by
      simp only [imp_false] at h1 h2 h3 h4 h5
      omega
    exact iff_of_true ⟨_, rfl⟩ (hop.imp_right .inl)

theorem decodeCmd_refused_iff (nch : Nat) (w : BitVec 80) : (∃ r, decodeCmd nch w = .error r) ↔
    nch ≤ (cmdCh w).toNat ∨ (cmdOp w).toNat < 1 ∨ 5 < (cmdOp w).toNat ∨
    ((cmdOp w).toNat = 5 ∧ cmdA w ≠ 1 ∧ cmdA w ≠ 2 ∧ cmdA w ≠ 3) ∨
    (((cmdOp w).toNat = 3 ∨ (cmdOp w).toNat = 4) ∧ 2 ^ 32 < (cmdA w).toNat + (cmdB w).toNat) := by
  rw [decodeCmd_eq]
  split
  · next hc => exact iff_of_true ⟨_, rfl⟩ (.inl hc)
  · next hc => rw [decodeOp_refused_iff, or_iff_right hc]

end Descriptor

section ScheduleWord

variable {nch c : Nat} {arg : BitVec 8} {i j : Instr}

theorem schKind_fields (kind ch : BitVec 4) (arg : BitVec 8) : schKind (kind ++ ch ++ arg) = kind :=
  (extractLsb'_above (start := 0) kind ch arg).trans BitVec.extractLsb'_eq_self

theorem schCh_fields (kind ch : BitVec 4) (arg : BitVec 8) : schCh (kind ++ ch ++ arg) = ch :=
  extractLsb'_middle kind ch arg

theorem schArg_fields (kind ch : BitVec 4) (arg : BitVec 8) : schArg (kind ++ ch ++ arg) = arg :=
  BitVec.extractLsb'_append_eq_right

theorem scheduleChannelOk_iff : scheduleChannelOk nch c = true ↔ c < nch ∧ c < 16 := by
  simp [scheduleChannelOk]

/-- R63 once the channel is known to exist: the step that KIND and ARG spell on channel `c`. -/
def decodeKind (kind : BitVec 4) (c : Nat) (arg : BitVec 8) : Except Reject Instr :=
  match kind.toNat with
  | 0 => decodeNoArg arg (.irqTx c)
  | 1 => decodeNoArg arg (.irqRx c)
  | 2 => decodeNoArg arg (.irqProto c)
  | 3 => decodeNoArg arg (.txDone c)
  | 8 => decodeNoArg arg (.envTxShift c)
  | 9 => .ok (.envRxArrive c arg)
  | 10 => .ok (.envRxArriveAlt c arg)
  | 11 => if arg.toNat < 5 then .ok (.envPFlag c arg.toNat) else .error .reservedArg
  | _ => .error .reservedKind

/-- The channel is checked first (R66). -/
theorem decodeSch_eq (nch : Nat) (w : BitVec 16) : decodeSch nch w =
    if nch ≤ (schCh w).toNat then .error .channelOutOfRange
    else decodeKind (schKind w) (schCh w).toNat (schArg w) := rfl

/-- A schedule word put together from its fields is decoded by them, the channel number cut to 4 bits being itself (R63). -/
theorem decode_encodeSch (hc : scheduleChannelOk nch c = true) (kind : BitVec 4) (arg : BitVec 8) :
    decode nch (encodeSch kind c arg) = decodeKind kind c arg := by
  obtain ⟨hlt, hfield⟩ := scheduleChannelOk_iff.1 hc
  rw [encodeSch, decode, decodeSch_eq, schKind_fields, schCh_fields, schArg_fields, BitVec.toNat_ofNat,
    Nat.mod_eq_of_lt hfield, if_neg (Nat.not_le.2 hlt)]

/-- ENV.PFLAG with an index the table has (R64 (e)). -/
theorem decodeKind_pflag {n : Nat} (hn : n < 5) : decodeKind 0xB c (BitVec.ofNat 8 n) = .ok (.envPFlag c n) := by
  have hfield : (BitVec.ofNat 8 n).toNat = n := by rw [BitVec.toNat_ofNat, Nat.mod_eq_of_lt (by omega)]
  change (if (BitVec.ofNat 8 n).toNat < 5 then _ else _) = _
  rw [hfield, if_pos hn]

/-- A kind without argument gives its own step or none. -/
theorem decodeNoArg_ok (h : decodeNoArg arg i = .ok j) : j = i := by
  unfold decodeNoArg at h
  split at h
  · cases h; rfl
  · cases h

/-- Whatever KIND and ARG spell on a channel that exists is well-formed (R64). -/
theorem decodeKind_wf {kind : BitVec 4} (hc : scheduleChannelOk nch c = true) (h : decodeKind kind c arg = .ok i) :
    i.wf nch = true := by
  unfold decodeKind at h
  split at h
  · cases decodeNoArg_ok h; exact hc
  · cases decodeNoArg_ok h; exact hc
  · cases decodeNoArg_ok h; exact hc
  · cases decodeNoArg_ok h; exact hc
  · cases decodeNoArg_ok h; exact hc
  · cases h; exact hc
  · cases h; exact hc
  · split at h
    · next hn => cases h; exact Bool.and_eq_true_iff.2 ⟨hc, decide_eq_true hn⟩
    · cases h
  · cases h

theorem decodeSch_wf {w : BitVec 16} (h : decodeSch nch w = .ok i) : i.wf nch = true := by
  rw [decodeSch_eq] at h
  split at h
  · cases h
  · next hc => exact decodeKind_wf (scheduleChannelOk_iff.2 ⟨Nat.not_le.1 hc, (schCh w).isLt⟩) h

/-- R64 (e) for a kind without argument. -/
theorem decodeNoArg_refused_iff : (∃ r, decodeNoArg arg i = .error r) ↔ arg ≠ 0 := by
  unfold decodeNoArg
  split
  · next h => simp [h]
  · next h => exact iff_of_true ⟨_, rfl⟩ h

/-- R64 (d), (e): when KIND and ARG spell no step. -/
theorem decodeKind_refused_iff (kind : BitVec 4) : (∃ r, decodeKind kind c arg = .error r) ↔
    (4 ≤ kind.toNat ∧ kind.toNat ≤ 7) ∨ 12 ≤ kind.toNat ∨ ((kind.toNat ≤ 3 ∨ kind.toNat = 8) ∧ arg ≠ 0) ∨
    (kind.toNat = 11 ∧ 5 ≤ arg.toNat) := by
  unfold decodeKind
  split
  · next h => simpa [h] using decodeNoArg_refused_iff
  · next h => simpa [h] using decodeNoArg_refused_iff
  · next h => simpa [h] using decodeNoArg_refused_iff
  · next h => simpa [h] using decodeNoArg_refused_iff
  · next h => simpa [h] using decodeNoArg_refused_iff
  · next h => simp [h]
  · next h => simp [h]
  · next h => by_cases hn : arg.toNat < 5 <;> simp [h, hn]; omega
  · next h0 h1 h2 h3 h8 h9 h10 h11 =>
    have hkind : (4 ≤ kind.toNat ∧ kind.toNat ≤ 7) ∨ 12 ≤ kind.toNat := by
      simp only [imp_false] at h0 h1 h2 h3 h8 h9 h10 h11
      omega
    exact iff_of_true ⟨_, rfl⟩ (hkind.imp_right .inl)

theorem decodeSch_refused_iff (nch : Nat) (w : BitVec 16) : (∃ r, decodeSch nch w = .error r) ↔
    nch ≤ (schCh w).toNat ∨ (4 ≤ (schKind w).toNat ∧ (schKind w).toNat ≤ 7) ∨ 12 ≤ (schKind w).toNat ∨
    (((schKind w).toNat ≤ 3 ∨ (schKind w).toNat = 8) ∧ schArg w ≠ 0) ∨
    ((schKind w).toNat = 11 ∧ 5 ≤ (schArg w).toNat) := by
  rw [decodeSch_eq]
  split
  · next hc => exact iff_of_true ⟨_, rfl⟩ (.inl hc)
  · next hc => rw [decodeKind_refused_iff, or_iff_right hc]

end ScheduleWord

/-- A well-formed operation decodes from its word: both formats read back their fields, and each row its operands. -/
theorem decode_encode {nch : Nat} {i : Instr} (h : i.wf nch = true) : decode nch (encode i) = .ok i := by
  cases i with
  | initOpen c => exact decode_encodeCmd h 0x01 1 0
  | initClose c => exact decode_encodeCmd h 0x01 0 0
  | initInvalid c r =>
    simp only [Instr.wf, Bool.and_eq_true, bne_iff_ne] at h
    obtain ⟨⟨hc, h0⟩, h1⟩ := h
    exact (decode_encodeCmd hc 0x01 r 0).trans (congrArg Except.ok (decodeInit_invalid h0 h1))
  | setBaud c v => exact decode_encodeCmd h 0x02 v 0
  | tx c a b =>
    obtain ⟨hc, hfit⟩ := Bool.and_eq_true_iff.1 h
    exact (decode_encodeCmd hc 0x03 a b).trans (decodeOp_tx hfit)
  | rx c a b =>
    obtain ⟨hc, hfit⟩ := Bool.and_eq_true_iff.1 h
    exact (decode_encodeCmd hc 0x04 a b).trans (decodeOp_rx hfit)
  | abortTx c => exact decode_encodeCmd h 0x05 1 0
  | abortRx c => exact decode_encodeCmd h 0x05 2 0
  | abortTxRx c => exact decode_encodeCmd h 0x05 3 0
  | irqTx c => exact decode_encodeSch h 0x0 0
  | irqRx c => exact decode_encodeSch h 0x1 0
  | irqProto c => exact decode_encodeSch h 0x2 0
  | txDone c => exact decode_encodeSch h 0x3 0
  | envTxShift c => exact decode_encodeSch h 0x8 0
  | envRxArrive c u => exact decode_encodeSch h 0x9 u
  | envRxArriveAlt c u => exact decode_encodeSch h 0xA u
  | envPFlag c n =>
    obtain ⟨hc, hn⟩ := Bool.and_eq_true_iff.1 h
    exact (decode_encodeSch hc 0xB _).trans (decodeKind_pflag (of_decide_eq_true hn))

end Sys2Proof

namespace Sys2Proof.Machine

/-! The callback record (R61, R62). -/

/-- Every event is read back from its code (R62). -/
theorem Event.ofCode_code (e : Event) : Event.ofCode e.code = some e := by
  cases e <;> rfl

/-- A record put together from its fields is decoded by them (R61). -/
theorem CbRec.decode_fields (ch ev : BitVec 8) (p : Word) (d : Byte) : CbRec.decode (ch ++ ev ++ p ++ d) =
    (Event.ofCode ev).map fun e => { ch := ch.toNat, event := e, ptr := p, data := d } := by
  have hch : (ch ++ ev ++ p ++ d).extractLsb' 48 8 = ch :=
    (extractLsb'_above (start := 8) (ch ++ ev) p d).trans BitVec.extractLsb'_append_eq_left
  have hev : (ch ++ ev ++ p ++ d).extractLsb' 40 8 = ev :=
    (extractLsb'_above (start := 0) (ch ++ ev) p d).trans BitVec.extractLsb'_append_eq_right
  have hp : (ch ++ ev ++ p ++ d).extractLsb' 8 32 = p := extractLsb'_middle (ch ++ ev) p d
  have hd : (ch ++ ev ++ p ++ d).extractLsb' 0 8 = d := BitVec.extractLsb'_append_eq_right
  unfold CbRec.decode
  rw [hch, hev, hp, hd]
  cases Event.ofCode ev <;> rfl

/-- A record whose channel number fits its field reads back from its word. -/
theorem CbRec.decode_encode {r : CbRec} (h : r.ch < 256) : CbRec.decode r.encode = some r := by
  rw [CbRec.encode, CbRec.decode_fields, Event.ofCode_code, BitVec.toNat_ofNat, Nat.mod_eq_of_lt h]
  rfl

/-! Statuses: which ones a step delivers, to the host or to the consumer (R60, R165). -/

/-- What is delivered between two states is appended to the status port and holds no OutOfBound (U7). -/
def State.Answers (s t : State) : Prop :=
  ∃ rs, t.statusLog = s.statusLog ++ rs ∧ ∀ r ∈ rs, r.status ≠ .outOfBound

section Statuses

variable {s t u : State} {c : Nat}

/-- Nothing is delivered. -/
theorem State.Answers.of_eq (h : t.statusLog = s.statusLog) : s.Answers t :=
  ⟨[], by rw [h, List.append_nil], by simp⟩

theorem State.Answers.trans (h : s.Answers t) (h' : t.Answers u) : s.Answers u := by
  obtain ⟨rs, hrs, hok⟩ := h
  obtain ⟨rs', hrs', hok'⟩ := h'
  exact ⟨rs ++ rs', by rw [hrs', hrs, List.append_assoc], fun r hr => (List.mem_append.1 hr).elim (hok r) (hok' r)⟩

/-- The checks of R90 answer with one of three other statuses. -/
theorem requestRejected_ne_outOfBound {a b : Word} {isOpen occupied : Bool} {st : Status}
    (h : requestRejected a b isOpen occupied = some st) : st ≠ .outOfBound := by
  unfold requestRejected at h
  split at h
  · cases h; decide
  · split at h
    · cases h; decide
    · split at h
      · cases h; decide
      · split at h
        · cases h; decide
        · cases h

/-- No command answers OutOfBound (R60, U7). -/
theorem commandEffect_status {i : Instr} {r : State × Status} (h : commandEffect i s = some r) : r.2 ≠ .outOfBound := by
  cases i with
  | initOpen c => cases h; unfold cmdInitOpen; split <;> simp
  | initClose c => cases h; unfold cmdInitClose; split <;> simp
  | initInvalid _ _ => cases h; simp [cmdInitInvalid]
  | setBaud c v =>
    cases h
    unfold cmdSetBaud
    split
    · simp
    · split
      · simp
      · split <;> simp
  | tx c a b =>
    cases h
    unfold cmdTx
    dsimp only
    split
    · next st hst => exact requestRejected_ne_outOfBound hst
    · simp
  | rx c a b =>
    cases h
    unfold cmdRx
    dsimp only
    split
    · next st hst => exact requestRejected_ne_outOfBound hst
    · simp
  | abortTx _ => cases h; simp [cmdAbortTx]
  | abortRx _ => cases h; simp [cmdAbortRx]
  | abortTxRx _ => cases h; simp [cmdAbortTxRx, cmdAbortRx]
  | irqTx _ | irqRx _ | irqProto _ | txDone _ | envTxShift _ | envRxArrive _ _ | envRxArriveAlt _ _ | envPFlag _ _ => cases h

/-- A command delivers its own status alone, whoever issues it. -/
theorem State.Answers.of_command {i : Instr} {r : State × Status} (h : commandEffect i s = some r) (x : Ctx) :
    s.Answers (r.1.reply x r.2) := by
  obtain ⟨n, f, hf, -⟩ := commandEffect_result _ _ _ h
  refine ⟨[{ ctx := x, status := r.2 }], by rw [State.statusLog_reply, hf]; rfl, fun q hq => ?_⟩
  rw [List.mem_singleton.1 hq]
  exact commandEffect_status h

theorem OnMainLine.answers {i : Instr} (h : OnMainLine i s t) : s.Answers t := by
  obtain ⟨r, hr, -, -, -, rfl⟩ := h
  exact .of_command hr _

/-- Nested commands deliver their statuses to the consumer (R181). -/
theorem nestedCommands_answers {ws : List (BitVec 80)} (h : nestedCommands ws s = .next t) : s.Answers t := by
  induction ws generalizing s with
  | nil => cases h; exact .of_eq rfl
  | cons w ws ih =>
    obtain ⟨u, hu, ht⟩ := (andThen_next _ _ _).1 h
    obtain ⟨i, r, -, -, hr, rfl⟩ := nestedCommand_next _ _ _ hu
    exact (State.Answers.of_command hr _).trans (ih ht)

theorem callback_answers {r : CbRec} (h : callback r s = .next t) : s.Answers t :=
  .trans (t := s.notify r) (.of_eq rfl) (nestedCommands_answers h)

/-! Environment steps and handlers deliver nothing themselves: what they deliver is their callback's. -/

@[simp] theorem State.statusLog_arrive (s : State) (c : Nat) (u : Byte) (alt : Bool) :
    (s.arrive c u alt).statusLog = s.statusLog := by
  unfold State.arrive
  split
  · rfl
  · split <;> rfl

@[simp] theorem State.statusLog_deliver (s : State) (d : Nat) (u : Byte) : (s.deliver d u).statusLog = s.statusLog := by
  unfold State.deliver
  split
  · exact State.statusLog_arrive s d u false
  · rfl

@[simp] theorem statusLog_shiftUnit (c : Nat) (s : State) : (shiftUnit c s).statusLog = s.statusLog := by
  unfold shiftUnit
  split
  · rfl
  · dsimp only
    split
    · rfl
    · exact State.statusLog_deliver _ _ _

@[simp] theorem statusLog_rxPop (s : State) (c : Nat) : (s.rxPop c).2.statusLog = s.statusLog := by
  unfold State.rxPop
  split <;> rfl

theorem environmentStep_answers {en : State → Bool} {why : Refusal} {f : State → State}
    (hf : (f s).statusLog = s.statusLog) (h : environmentStep c en why f s = .next t) : s.Answers t := by
  obtain ⟨-, -, rfl⟩ := environmentStep_next _ _ _ _ _ _ h
  exact .of_eq hf

theorem execEnvTxShift_answers (h : execEnvTxShift c s = .next t) : s.Answers t :=
  environmentStep_answers (statusLog_shiftUnit c s) h

theorem execEnvRxArrive_answers {u : Byte} (h : execEnvRxArrive c u s = .next t) : s.Answers t :=
  environmentStep_answers (f := fun s => s.arrive c u false) (State.statusLog_arrive s c u false) h

theorem execEnvRxArriveAlt_answers {u : Byte} (h : execEnvRxArriveAlt c u s = .next t) : s.Answers t :=
  environmentStep_answers (f := fun s => s.arrive c u true) (State.statusLog_arrive s c u true) h

theorem execEnvPFlag_answers {i : Nat} (h : execEnvPFlag c i s = .next t) : s.Answers t := by
  unfold execEnvPFlag at h
  split at h
  · exact environmentStep_answers (State.statusLog_modChan ..) h
  · cases h

/-- A handler that runs to its return in one step delivers what its body does. -/
theorem dispatched_answers {k : Vec} {body : State → Result} (hb : ∀ {v w}, body v = .next w → v.Answers w)
    (h : dispatchVector c k (fun v => andThen (body v) fun w => .next w.leave) s = .next t) : s.Answers t := by
  obtain ⟨-, -, hrun⟩ := dispatchVector_next _ _ _ _ _ h
  obtain ⟨u, hu, ht⟩ := (andThen_next _ _ _).1 hrun
  cases ht
  exact (hb hu :)

theorem protoScan_answers (h : protoScan c s = .next t) : s.Answers t := by
  unfold protoScan at h
  split at h
  · cases h; exact .of_eq rfl
  · exact (callback_answers h :)

theorem execIrqProto_answers (h : execIrqProto c s = .next t) : s.Answers t := by
  unfold execIrqProto at h
  split at h
  · exact dispatched_answers protoScan_answers h
  · cases h

theorem unsolicited_answers (h : unsolicited c s = .next t) : s.Answers t := by
  have hforward : forwardUnit c (s.rxPop c).1 (s.rxPop c).2 = .next t → s.Answers t :=
    fun hx => .trans (t := (s.rxPop c).2.drawn) (.of_eq (statusLog_rxPop s c)) (callback_answers hx)
  unfold unsolicited unsolicitedFifo unsolicitedByte at h
  split at h
  · split at h
    · cases h; exact .of_eq rfl
    · exact hforward h
  · exact hforward h

theorem mixedReceive_answers (h : mixedReceive c s = .next t) : s.Answers t := by
  unfold mixedReceive at h
  split at h
  · cases h; exact .of_eq rfl
  · exact unsolicited_answers h

theorem completeRx_answers (h : completeRx c s = .next t) : s.Answers t := by
  obtain ⟨u, hu, ht⟩ := (andThen_next _ _ _).1 h
  cases ht
  exact (callback_answers hu :)

theorem solicitedFifo_answers (h : solicitedFifo c s = .next t) : s.Answers t := by
  unfold solicitedFifo at h
  split at h
  · cases h
  · dsimp only at h
    split at h
    · cases h; exact .of_eq rfl
    · split at h
      · exact (completeRx_answers h :)
      · cases h

theorem solicitedByte_answers (h : solicitedByte c s = .next t) : s.Answers t := by
  have hpop : s.Answers (s.rxPop c).2 := .of_eq (statusLog_rxPop s c)
  unfold solicitedByte at h
  dsimp only at h
  split at h
  · cases h
  · split at h
    · exact hpop.trans (completeRx_answers h :)
    · cases h; exact hpop.trans (.of_eq rfl)

theorem rxHandler_answers (h : rxHandler c s = .next t) : s.Answers t := by
  unfold rxHandler at h
  dsimp only at h
  split at h
  · split at h
    · exact solicitedFifo_answers h
    · exact solicitedByte_answers h
  · split at h
    · exact unsolicited_answers h
    · exact mixedReceive_answers h

theorem completeTx_answers (h : completeTx c s = .next t) : s.Answers t := by
  obtain ⟨u, hu, ht⟩ := (andThen_next _ _ _).1 h
  cases ht
  exact (callback_answers hu :)

theorem execIrqTx_answers (h : execIrqTx c s = .next t) : s.Answers t := by
  obtain ⟨-, -, hrun⟩ := dispatchVector_next _ _ _ _ _ h
  obtain ⟨-, rfl⟩ | ⟨-, ⟨-, ch', -, rfl⟩ | ⟨-, ⟨-, u, hu, rfl⟩ | ⟨-, rfl⟩⟩⟩ := txHandler_next hrun
  · exact .of_eq rfl
  · exact .of_eq rfl
  · exact (completeTx_answers hu :)
  · exact .of_eq rfl

theorem execTxDone_answers (h : execTxDone c s = .next t) : s.Answers t := by
  unfold execTxDone at h
  split at h
  · cases h
  · split at h
    · obtain ⟨u, hu, ht⟩ := (andThen_next _ _ _).1 h
      cases ht
      exact (completeTx_answers hu :)
    · cases h

/-- Every operation. -/
theorem exec_answers {i : Instr} (h : exec i s = .next t) : s.Answers t := by
  cases i with
  | initOpen _ | initClose _ | initInvalid _ _ | setBaud _ _ | tx _ _ _ | rx _ _ _ | abortTx _ | abortRx _ | abortTxRx _ =>
    exact (exec_command_next (by rfl) h).answers
  | irqTx c => exact execIrqTx_answers h
  | irqRx c => exact dispatched_answers rxHandler_answers h
  | irqProto c => exact execIrqProto_answers h
  | txDone c => exact execTxDone_answers h
  | envTxShift c => exact execEnvTxShift_answers h
  | envRxArrive c u => exact execEnvRxArrive_answers h
  | envRxArriveAlt c u => exact execEnvRxArriveAlt_answers h
  | envPFlag c n => exact execEnvPFlag_answers h

theorem step_answers (h : step s = .next t) : s.Answers t := by
  obtain ⟨a, b, rfl⟩ | ⟨i, hx⟩ := step_next h
  · exact .of_eq rfl
  · exact (exec_answers hx :)

end Statuses

/-! Disabled operations (R63, log 2). A shared form that tests its enabling condition refuses when the condition fails, whether
or not the channel exists. -/

section Disabled

variable {s : State} {c : Nat}

theorem dispatchVector_refused {k : Vec} {body : State → Result} (hd : s.dispatchable c k = false) :
    ∃ r, dispatchVector c k body s = .refused r := by
  unfold dispatchVector
  split
  · exact ⟨_, rfl⟩
  · exact ⟨_, if_neg (Bool.eq_false_iff.1 hd)⟩

theorem hostCommand_refused {f : State → State × Status} (he : s.hostEnabled = false) : ∃ r, hostCommand c f s = .refused r := by
  unfold hostCommand
  split
  · exact ⟨_, rfl⟩
  · exact ⟨_, if_neg (Bool.eq_false_iff.1 he)⟩

theorem environmentStep_refused {en : State → Bool} {why : Refusal} {f : State → State} (he : en s = false) :
    ∃ r, environmentStep c en why f s = .refused r := by
  unfold environmentStep
  split
  · exact ⟨_, rfl⟩
  · exact ⟨_, if_neg (Bool.eq_false_iff.1 he)⟩

/-- A bounded request is refused where its command is. -/
theorem boundedRequest_refused_of {a b : Word} {o : Result} (h : ∃ r, o = .refused r) :
    ∃ r, boundedRequest a b o = .refused r := by
  unfold boundedRequest
  split
  · exact h
  · exact ⟨_, rfl⟩

theorem execIrqRx_refused (h : s.dispatchable c .rx = false) : ∃ r, execIrqRx c s = .refused r :=
  dispatchVector_refused h

theorem execIrqProto_refused (h : (s.par.protoMon && s.dispatchable c .pr) = false) : ∃ r, execIrqProto c s = .refused r := by
  unfold execIrqProto
  split
  · next hmon => exact dispatchVector_refused (by rwa [hmon, Bool.true_and] at h)
  · exact ⟨_, rfl⟩

theorem execTxDone_refused (h : s.txDoneEnabled c = false) : ∃ r, execTxDone c s = .refused r := by
  unfold execTxDone
  split
  · exact ⟨_, rfl⟩
  · exact ⟨_, if_neg (Bool.eq_false_iff.1 h)⟩

theorem execEnvTxShift_refused (h : s.shiftEnabled c = false) : ∃ r, execEnvTxShift c s = .refused r :=
  environmentStep_refused h

theorem execEnvRxArrive_refused (h : s.arrivalEnabled c = false) (u : Byte) : ∃ r, execEnvRxArrive c u s = .refused r :=
  environmentStep_refused h

theorem execEnvRxArriveAlt_refused (h : s.arrivalEnabled c = false) (u : Byte) :
    ∃ r, execEnvRxArriveAlt c u s = .refused r :=
  environmentStep_refused h

theorem execEnvPFlag_refused (h : (s.chan c).run = false) (i : Nat) : ∃ r, execEnvPFlag c i s = .refused r := by
  unfold execEnvPFlag
  split
  · exact environmentStep_refused h
  · exact ⟨_, rfl⟩

/-- Every operation. -/
theorem exec_refused_of_disabled {i : Instr} (h : s.enabled i = false) : ∃ r, exec i s = .refused r := by
  cases i with
  | initOpen _ | initClose _ | initInvalid _ _ | setBaud _ _ | abortTx _ | abortRx _ | abortTxRx _ =>
    exact hostCommand_refused h
  | tx _ _ _ | rx _ _ _ => exact boundedRequest_refused_of (hostCommand_refused h)
  | irqTx _ => exact dispatchVector_refused h
  | irqRx _ => exact execIrqRx_refused h
  | irqProto _ => exact execIrqProto_refused h
  | txDone _ => exact execTxDone_refused h
  | envTxShift _ => exact execEnvTxShift_refused h
  | envRxArrive _ u => exact execEnvRxArrive_refused h u
  | envRxArriveAlt _ u => exact execEnvRxArriveAlt_refused h u
  | envPFlag _ n => exact execEnvPFlag_refused h n

end Disabled

end Sys2Proof.Machine

namespace Sys2Proof.Proofs

open Sys2Proof.Machine

/-- Settles O1: an encoded word reads back its fields, and each row of the decoder its operands. -/
theorem everyOperationDecodesFromItsWord : Obligations.EveryOperationDecodesFromItsWord := fun _ _ => decode_encode

/-- Settles O2: the channel is checked first, then the rows of each format say what they refuse. -/
theorem wordRefusedExactlyWhenReserved : Obligations.WordRefusedExactlyWhenReserved :=
  ⟨decodeCmd_refused_iff, decodeSch_refused_iff⟩

/-- Settles O3: a field's width bounds the channel number, and each row checks its operands. -/
theorem decodedOperationIsWellFormed : Obligations.DecodedOperationIsWellFormed := by
  intro nch w i h
  cases w with
  | cmd w => exact decodeCmd_wf h
  | sch w => exact decodeSch_wf h

/-- Settles O4: the four fields are read back, and the event code determines the event. -/
theorem callbackRecordReadsBack : Obligations.CallbackRecordReadsBack := fun _ => CbRec.decode_encode

/-- Settles O5, by evaluation of the six words. -/
theorem writtenWordsDecode : Obligations.WrittenWordsDecode := by
  unfold Obligations.WrittenWordsDecode
  decide

/-- Settles O44: a step delivers the statuses of commands, and no command answers OutOfBound. -/
theorem outOfBoundIsNeverReturned : Obligations.OutOfBoundIsNeverReturned := fun _ _ => step_answers

/-- Settles O57: each operation tests its enabling condition before it does anything. -/
theorem disabledStepIsRefused : Obligations.DisabledStepIsRefused := fun _ _ => exec_refused_of_disabled

end Sys2Proof.Proofs

namespace Sys2Proof.Machine

/-! Host commands on the main line: a command that rewrites its own channel at most is carried out within the frame R178 and
R60 give it. -/

section CommandFrames

variable {s : State} {c n : Nat} {f : State → State × Status} {g : Chan → Chan} {st : Status}

/-- Rewriting a channel, counting draws and answering stays inside the channel and the status port. -/
theorem CommandFrame.of_modChan : CommandFrame c st s (({ s with draws := n }.modChan c g).reply .mainLine st) where
  par := rfl
  nch := by rw [State.nch_reply, State.nch_modChan]; rfl
  others d hd := State.chan_modChan_ne { s with draws := n } c d g hd
  sched := rfl
  active := rfl
  memory _ := rfl
  cbLog := rfl
  consumer := rfl
  status := rfl

theorem hostCommand_rewrites (hc : c < s.nch) (he : s.hostEnabled = true)
    (hf : f s = ({ s with draws := n }.modChan c g, st)) :
    ∃ t, hostCommand c f s = .next t ∧ CommandFrame c st s t ∧ t.chan c = g (s.chan c) := by
  refine ⟨_, hostCommand_eq c f s hc he, ?_⟩
  rw [hf]
  exact ⟨.of_modChan, State.chan_modChan_same { s with draws := n } c g hc⟩

/-- A command whose only effect is a count of draws has none on its channel either. -/
theorem hostCommand_onlyAnswers (hc : c < s.nch) (he : s.hostEnabled = true) (hf : f s = ({ s with draws := n }, st)) :
    ∃ t, hostCommand c f s = .next t ∧ OnlyAnswered c st s t :=
  hostCommand_rewrites (g := id) hc he (hf.trans (by rw [State.modChan_id]))

end CommandFrames

/-! The lifecycle commands, one equation per branch (R75 to R78). -/

section Lifecycle

variable {s : State} {c : Nat} {v : Word}

theorem cmdInitOpen_of_open (h : (s.chan c).flags.init = true) : cmdInitOpen c s = (s, .success) := if_pos h

theorem cmdInitOpen_of_closed (h : (s.chan c).flags.init = false) :
    cmdInitOpen c s = (s.modChan c fun ch => ch.openClosed s.par.protoMon, .success) := if_neg (by simp [h])

/-- The stop is answered busy exactly while units are queued (R111). -/
theorem Chan.stop_eq (ch : Chan) : ch.stop = if ch.txq = [] then some { ch with run := false } else none := by
  simp [Chan.stop, Chan.txEmpty, Chan.txLevel]

theorem cmdInitClose_of_queued (h : (s.chan c).txq ≠ []) : cmdInitClose c s = (s, .busy) := by
  simp [cmdInitClose, Chan.stop_eq, h]

theorem cmdInitClose_of_empty (h : (s.chan c).txq = []) :
    cmdInitClose c s = (s.modChan c fun _ =>
      { s.chan c with run := false, flags := { (s.chan c).flags with init := false } }, .success) := by
  simp [cmdInitClose, Chan.stop_eq, h]

theorem cmdSetBaud_of_unlisted (h : v ∉ s.par.baudWl) : cmdSetBaud c v s = (s, .invalidArgument) := by
  simp [cmdSetBaud, h]

theorem cmdSetBaud_of_transfer (hv : v ∈ s.par.baudWl) (hx : (s.chan c).flags.anyTransfer = true) :
    cmdSetBaud c v s = (s, .busy) := by
  simp [cmdSetBaud, hv, hx]

/-- Past the checks the hardware's answer decides (R112). -/
theorem cmdSetBaud_of_idle (hv : v ∈ s.par.baudWl) (hx : (s.chan c).flags.anyTransfer = false) :
    cmdSetBaud c v s = if Config.drawBaudOk s.draws then (s.drawn.modChan c fun ch => { ch with baud := v }, .success)
      else (s.drawn, .failed) := by
  simp [cmdSetBaud, hv, hx]

/-- R5, D23: 57600 is no supported rate. -/
theorem not_mem_57600_of_baudWlOk {wl : List Word} (h : Config.baudWlOk wl = true) : (57600 : Word) ∉ wl := by
  have h := (Bool.and_eq_true_iff.1 h).2
  simpa using h

end Lifecycle

end Sys2Proof.Machine

namespace Sys2Proof.Proofs

open Sys2Proof.Machine

/-- Settles O7: an open channel is left alone, a closed one becomes what `openClosed` writes. -/
theorem openLoadsAClosedChannel : Obligations.OpenLoadsAClosedChannel := by
  intro s c hc he
  cases hi : (s.chan c).flags.init with
  | true =>
    obtain ⟨t, hx, hf, ht⟩ := hostCommand_onlyAnswers hc he (cmdInitOpen_of_open hi)
    exact ⟨t, hx, hf, fun _ => ht, nofun⟩
  | false =>
    obtain ⟨t, hx, hf, ht⟩ := hostCommand_rewrites hc he (cmdInitOpen_of_closed hi)
    exact ⟨t, hx, hf, nofun, fun _ => ht.trans (openClosed_eq ..)⟩

/-- Settles O8: the stop looks at the transmit queue alone, and its answer decides. -/
theorem closeLooksAtTheTransmitQueueOnly : Obligations.CloseLooksAtTheTransmitQueueOnly := fun _ _ hc he =>
  ⟨fun hq => hostCommand_onlyAnswers hc he (cmdInitClose_of_queued hq),
    fun hq => hostCommand_rewrites hc he (cmdInitClose_of_empty hq)⟩

/-- Settles O9: the request is not looked at, and the state is returned as it was. -/
theorem unrecognisedInitIsInvalid : Obligations.UnrecognisedInitIsInvalid := fun _ _ _ hc he =>
  hostCommand_onlyAnswers hc he rfl

/-- Settles O10: one clause per branch of the command; the last one is the first at 57600. -/
theorem setBaudChecksThenAsksTheHardware : Obligations.SetBaudChecksThenAsksTheHardware := by
  intro s c v hc he
  have hunlisted : v ∉ s.par.baudWl → ∃ t, exec (.setBaud c v) s = .next t ∧ OnlyAnswered c .invalidArgument s t :=
    fun hv => hostCommand_onlyAnswers hc he (cmdSetBaud_of_unlisted hv)
  refine ⟨hunlisted, fun hv hx => hostCommand_onlyAnswers hc he (cmdSetBaud_of_transfer hv hx), fun hv hx => ?_,
    fun hok h => hunlisted (h ▸ not_mem_57600_of_baudWlOk hok)⟩
  have hcmd := cmdSetBaud_of_idle hv hx
  cases hok : Config.drawBaudOk s.draws with
  | true =>
    obtain ⟨t, ht, hf⟩ := hostCommand_rewrites hc he (hcmd.trans (if_pos hok))
    exact ⟨t, ht, .inl hf⟩
  | false =>
    obtain ⟨t, ht, hf⟩ := hostCommand_onlyAnswers hc he (hcmd.trans (if_neg (by simp [hok])))
    exact ⟨t, ht, .inr hf⟩

end Sys2Proof.Proofs

namespace Sys2Proof.Machine

/-! The transfer commands, one equation per branch (R85 to R90). -/

section Requests

variable {s : State} {c : Nat} {a b : Word}

/-- The event a mode's transmit direction signals, as its bit of EVEN (R26, R100). -/
theorem Chan.txEvm_eq (ch : Chan) : ch.txEvm = if ch.par.txCap = 0 then 0x0001 else 0x0002 := by
  by_cases hcap : ch.par.txCap = 0 <;> simp [Chan.txEvm, Chan.txFifo, hcap, evTbe, evTxfStd]

/-- The events a mode's receive direction signals, as their bits of EVEN (R26, R100). -/
theorem Chan.rxEvm_eq (ch : Chan) : ch.rxEvm = if ch.par.rxCap = 0 then 0x0004 else 0x0018 := by
  by_cases hcap : ch.par.rxCap = 0 <;> simp [Chan.rxEvm, Chan.rxFifo, hcap, evRxe, evRxfStd, evRxfAlt]

theorem requestRejected_null (isOpen occupied : Bool) (h : a = 0 ∨ b = 0) :
    requestRejected a b isOpen occupied = some .invalidArgument := by
  by_cases ha : a = 0
  · exact if_pos ha
  · rw [requestRejected, if_neg ha, if_pos (h.resolve_left ha)]

theorem requestRejected_closed (occupied : Bool) (ha : a ≠ 0) (hb : b ≠ 0) :
    requestRejected a b false occupied = some .failed :=
  (if_neg ha).trans (if_neg hb)

theorem requestRejected_open (occupied : Bool) (ha : a ≠ 0) (hb : b ≠ 0) :
    requestRejected a b true occupied = if occupied then some .busy else none :=
  (if_neg ha).trans (if_neg hb)

/-- A request whose buffer fits is the host command itself (R43). -/
theorem boundedRequest_of_fits {o : Result} (h : bufferFits a b = true) : boundedRequest a b o = o := if_pos h

theorem cmdTx_of_rejected {st : Status}
    (h : requestRejected a b (s.chan c).flags.init ((s.chan c).flags.txBusy || (s.chan c).flags.txLock) = some st) :
    cmdTx c a b s = (s, st) := by
  simp only [cmdTx, h]

theorem cmdTx_of_accepted
    (h : requestRejected a b (s.chan c).flags.init ((s.chan c).flags.txBusy || (s.chan c).flags.txLock) = none) :
    cmdTx c a b s = (s.modChan c fun ch => ch.acceptTx a b, .success) := by
  simp only [cmdTx, h]

theorem cmdRx_of_rejected {st : Status}
    (h : requestRejected a b (s.chan c).flags.init ((s.chan c).flags.rxBusy || (s.chan c).flags.rxLock) = some st) :
    cmdRx c a b s = (s, st) := by
  simp only [cmdRx, h]

theorem cmdRx_of_accepted
    (h : requestRejected a b (s.chan c).flags.init ((s.chan c).flags.rxBusy || (s.chan c).flags.rxLock) = none) :
    cmdRx c a b s = (s.modChan c fun ch => ch.acceptRx a b, .success) := by
  simp only [cmdRx, h]

/-- An accepted TX register by register (R85). -/
theorem acceptTx_registers (ch : Chan) (a b : Word) : ch.acceptTx a b = { ch with
    tx := { ptr := a, len := b, idx := 0 }
    flags := { ch.flags with txBusy := true, txLock := true }
    txq := if ch.par.txCap = 0 then ch.txq else []
    even := ch.even ||| (if ch.par.txCap = 0 then 0x0001 else 0x0002)
    vTx := { ch.vTx with pend := true } } := by
  rw [acceptTx_eq, Chan.txEvm_eq]
  by_cases hcap : ch.par.txCap = 0 <;> simp [Chan.txFifo, hcap, Chan.pend, Chan.modVec]

/-- An accepted RX register by register (R86, R106). -/
theorem acceptRx_registers (ch : Chan) (a b : Word) : ch.acceptRx a b = { ch with
    rx := { ptr := a, len := b, idx := 0 }
    flags := { ch.flags with rxBusy := true, rxLock := true }
    rxq := if ch.par.rxCap = 0 then ch.rxq else []
    rxLim := if ch.par.rxCap = 0 then ch.rxLim else BitVec.ofNat 32 (min b.toNat ch.par.rxCap - 1)
    even := ch.even ||| (if ch.par.rxCap = 0 then 0x0004 else 0x0018) } := by
  unfold Chan.acceptRx
  by_cases hcap : ch.par.rxCap = 0 <;>
    simp [Chan.rxFifo, hcap, Chan.evEnable, Chan.rxEvm_eq, Chan.rxFlush, Chan.rxSetLimit, rxLimitFor]

/-- The forced idle on an abandoned transmit, as one update: byte mode empties the buffer, FIFO mode keeps the queue or loses
its head unit (R87, R116). -/
theorem cmdAbortTx_eq (c : Nat) (s : State) : ∃ n, ∃ f : List Byte → List Byte,
    cmdAbortTx c s = ({ s with draws := n }.modChan c fun ch => { ch.abandonTx with txq := f ch.txq }, .success) ∧
      ((s.chan c).par.txCap = 0 → ∀ q, f q = []) ∧ ((s.chan c).par.txCap ≠ 0 → ∀ q, f q = q ∨ f q = q.tail) := by
  have hpar : ((s.modChan c Chan.abandonTx).chan c).par.txCap = (s.chan c).par.txCap := by
    by_cases hc : c < s.nch
    · rw [State.chan_modChan_same s c _ hc]; rfl
    · rw [State.modChan_of_nch_le _ (Nat.not_lt.1 hc)]
  unfold cmdAbortTx State.txForceIdle Chan.txFifo
  rw [hpar]
  by_cases hcap : (s.chan c).par.txCap = 0
  · refine ⟨s.draws, fun _ => [], ?_, fun _ _ => rfl, fun h => absurd hcap h⟩
    rw [if_neg (by simp [hcap]), State.modChan_modChan]
    rfl
  · refine ⟨s.draws + 1, fun q => if Config.drawDrop s.draws then q.tail else q, ?_, fun h => absurd h hcap, fun _ q => ?_⟩
    · rw [if_pos (by simp [hcap])]
      exact congrArg (·, Status.success) (State.modChan_modChan s.drawn c _ _)
    · cases Config.drawDrop s.draws
      · exact .inl rfl
      · exact .inr rfl

end Requests

end Sys2Proof.Machine

namespace Sys2Proof.Proofs

open Sys2Proof.Machine

/-- Settles O11: one clause per answer of the checks R85 and R90 list. -/
theorem transmitRequestIsCheckedThenRecorded : Obligations.TransmitRequestIsCheckedThenRecorded := by
  intro s c a b hc he hfit
  simp only [exec, execTx, boundedRequest_of_fits hfit]
  refine ⟨fun h0 => ?_, fun ha hb hi => ?_, fun ha hb hi hbusy => ?_, fun ha hb hi hbusy hlock => ?_⟩
  · exact hostCommand_onlyAnswers hc he (cmdTx_of_rejected (requestRejected_null _ _ h0))
  · exact hostCommand_onlyAnswers hc he (cmdTx_of_rejected (hi ▸ requestRejected_closed _ ha hb))
  · have hoccupied : ((s.chan c).flags.txBusy || (s.chan c).flags.txLock) = true := Bool.or_eq_true_iff.2 hbusy
    exact hostCommand_onlyAnswers hc he (cmdTx_of_rejected (by rw [hi, hoccupied, requestRejected_open _ ha hb]; rfl))
  · obtain ⟨t, hx, hframe, ht⟩ := hostCommand_rewrites hc he
      (cmdTx_of_accepted (by rw [hi, hbusy, hlock, requestRejected_open _ ha hb]; rfl))
    exact ⟨t, hx, hframe, ht.trans (acceptTx_registers ..)⟩

/-- Settles O12: one clause per answer of the checks R86 and R90 list. -/
theorem receiveRequestIsCheckedThenRecorded : Obligations.ReceiveRequestIsCheckedThenRecorded := by
  intro s c a b hc he hfit
  simp only [exec, execRx, boundedRequest_of_fits hfit]
  refine ⟨fun h0 => ?_, fun ha hb hi => ?_, fun ha hb hi hbusy => ?_, fun ha hb hi hbusy hlock => ?_⟩
  · exact hostCommand_onlyAnswers hc he (cmdRx_of_rejected (requestRejected_null _ _ h0))
  · exact hostCommand_onlyAnswers hc he (cmdRx_of_rejected (hi ▸ requestRejected_closed _ ha hb))
  · have hoccupied : ((s.chan c).flags.rxBusy || (s.chan c).flags.rxLock) = true := Bool.or_eq_true_iff.2 hbusy
    exact hostCommand_onlyAnswers hc he (cmdRx_of_rejected (by rw [hi, hoccupied, requestRejected_open _ ha hb]; rfl))
  · obtain ⟨t, hx, hframe, ht⟩ := hostCommand_rewrites hc he
      (cmdRx_of_accepted (by rw [hi, hbusy, hlock, requestRejected_open _ ha hb]; rfl))
    exact ⟨t, hx, hframe, ht.trans (acceptRx_registers ..)⟩

/-- Settles O14: the abandoned transmit, then what the forced idle leaves of the queue. -/
theorem abortTxClearsBusyAndKeepsLock : Obligations.AbortTxClearsBusyAndKeepsLock := by
  intro s c hc he
  obtain ⟨n, f, hcmd, hbyte, hfifo⟩ := cmdAbortTx_eq c s
  obtain ⟨t, hx, hframe, ht⟩ := hostCommand_rewrites hc he hcmd
  refine ⟨t, f (s.chan c).txq, hx, hframe, fun h => hbyte h _, fun h => hfifo h _, ht.trans ?_⟩
  rw [← Chan.txEvm_eq]
  rfl

/-- Settles O15: the abandoned receive is the whole effect. -/
theorem abortRxClearsBusyAndKeepsLock : Obligations.AbortRxClearsBusyAndKeepsLock := by
  intro s c hc he
  obtain ⟨t, hx, hframe, ht⟩ := hostCommand_rewrites (f := cmdAbortRx c) (n := s.draws) hc he rfl
  refine ⟨t, hx, hframe, ht.trans ?_⟩
  rw [← Chan.rxEvm_eq]
  rfl

/-- Settles O16: the two updates of one channel are one update. -/
theorem abortTxRxDoesBoth : Obligations.AbortTxRxDoesBoth := by
  intro s c hc he
  obtain ⟨n, f, hcmd, hbyte, hfifo⟩ := cmdAbortTx_eq c s
  have hboth : cmdAbortTxRx c s = ({ s with draws := n }.modChan c fun ch =>
      Chan.abandonRx { ch.abandonTx with txq := f ch.txq }, .success) := by
    rw [cmdAbortTxRx, hcmd, cmdAbortRx, State.modChan_modChan]
  obtain ⟨t, hx, hframe, ht⟩ := hostCommand_rewrites hc he hboth
  refine ⟨t, f (s.chan c).txq, hx, hframe, fun h => hbyte h _, fun h => hfifo h _, ht.trans ?_⟩
  rw [← Chan.txEvm_eq, ← Chan.rxEvm_eq]
  rfl

end Sys2Proof.Proofs

namespace Sys2Proof.Machine

/-! The transmit vector and the shift as one update of their channel each. -/

/-- An update of a channel is a replacement by the updated channel. -/
theorem State.modChan_eq_replace (s : State) (c : Nat) (f : Chan → Chan) :
    s.modChan c f = s.modChan c fun _ => f (s.chan c) := by
  simp only [State.modChan, State.mk.injEq, true_and, and_true]
  apply List.ext_getElem?
  intro i
  simp only [List.getElem?_modify]
  by_cases hi : c = i
  · subst hi
    cases hx : s.chans[c]? <;> simp [State.chan, List.getD_eq_getElem?_getD, hx]
  · simp [hi]

/-- A handler that is entered, rewrites its channel and returns leaves that update alone (R175, R176). -/
theorem State.leave_modChan_enter (s : State) (c : Nat) (k : Vec) (f : Chan → Chan) :
    ((s.enter c k).modChan c f).leave = s.modChan c fun ch => f (ch.unpend k) := by
  show State.modChan (s.modChan c fun ch => ch.unpend k) c f = _
  exact State.modChan_modChan s c _ f

section TransmitSteps

variable {s : State} {c : Nat}

/-- The only vector that is enabled and pending is dispatchable while no handler runs (R173). -/
theorem State.dispatchable_of_only {k : Vec} (ha : s.active = []) (hw : ((s.chan c).vec k).wants = true)
    (hq : ∀ d < s.nch, ∀ j, (d, j) ≠ (c, k) → ((s.chan d).vec j).wants = false) : s.dispatchable c k = true := by
  have hrank : s.outranksRunning ((s.chan c).vec k).prio = true := by simp [State.outranksRunning, ha]
  simp only [State.dispatchable, hw, hrank, Bool.true_and, List.all_eq_true]
  rintro ⟨d, j⟩ hm
  by_cases hv : (d, j) = (c, k)
  · cases hv
    simp
  · simp [hq d ((State.mem_allVecs ..).1 hm) j hv]

/-- With every vector at rest and no handler running the host may step (R178). -/
theorem State.hostEnabled_of_quiet (ha : s.active = []) (hq : ∀ d < s.nch, ∀ k, ((s.chan d).vec k).wants = false) :
    s.hostEnabled = true := by
  have hnone : s.anyDispatchable = false := s.anyDispatchable_eq_false.2 fun d hd k => by simp [State.dispatchable, hq d hd k]
  simp [State.hostEnabled, ha, hnone]

/-- The fill phase: the handler queues what it read and returns (R131, R132). -/
theorem execIrqTx_fills (hc : c < s.nch) (hd : s.dispatchable c .tx = true) (hi : (s.chan c).flags.txInFlight = true)
    (hlt : (s.chan c).tx.idx < (s.chan c).tx.len) {ch' : Chan} (hfill : ((s.chan c).unpend .tx).fill s.mem = .ok ch') :
    exec (.irqTx c) s = .next (s.modChan c fun _ => ch') := by
  refine (dispatchVector_eq _ _ _ _ hc hd).trans ?_
  simp only [txHandler, State.chan_enter_same s c .tx hc, State.mem_enter, hfill, State.leave_modChan_enter]
  exact (if_neg (by simp [hi])).trans (if_pos hlt)

/-- The completion: with everything sent the handler disables its event, reports, frees the direction and returns (R134). -/
theorem execIrqTx_completes (hc : c < s.nch) (hd : s.dispatchable c .tx = true) (hi : (s.chan c).flags.txInFlight = true)
    (hdone : ¬(s.chan c).tx.idx < (s.chan c).tx.len) (he : (s.chan c).txEmpty = true) (hs : s.consumerSilent) :
    exec (.irqTx c) s = .next (State.notify (s.modChan c fun ch => ((ch.unpend .tx).evDisable ch.txEvm).clearTx)
      { ch := c, event := .txComplete, ptr := (s.chan c).tx.ptr, data := 0 }) := by
  have hrun : ∀ r, callback r ((s.enter c .tx).modChan c fun ch => ch.evDisable ch.txEvm) =
      .next (((s.enter c .tx).modChan c fun ch => ch.evDisable ch.txEvm).notify r) := fun r => callback_silent r _ hs
  refine (dispatchVector_eq _ _ _ _ hc hd).trans ?_
  simp only [txHandler, completeTx, State.chan_enter_same s c .tx hc, hrun, andThen]
  refine (if_neg (by simp [hi])).trans ((if_neg hdone).trans ((if_pos he).trans ?_))
  show Host.Outcome.next (State.notify (((s.enter c .tx).modChan c _).modChan c Chan.clearTx).leave _) = _
  rw [State.modChan_modChan, State.leave_modChan_enter]
  rfl

/-- A shift onto a line that is wired to no receiver (R117). -/
theorem execEnvTxShift_unwired (hc : c < s.nch) (hr : (s.chan c).run = true) (hl : (s.chan c).par.loopTo = none) {u : Byte}
    {q : List Byte} (hq : (s.chan c).txq = u :: q) :
    exec (.envTxShift c) s = .next (s.modChan c fun ch => ch.shiftOut u) := by
  have hen : s.shiftEnabled c = true := by simp [State.shiftEnabled, hr, Chan.txEmpty, Chan.txLevel, hq]
  refine (environmentStep_eq c (fun s => s.shiftEnabled c) _ _ s hc hen).trans ?_
  simp only [shiftUnit, hq, hl]

end TransmitSteps

/-! The fill from an empty queue, in both modes. -/

/-- `n` bytes of memory, then `k` more. -/
theorem Memory.bytes_add (m : Memory) (a n k : Nat) : m.bytes a (n + k) = m.bytes a n ++ m.bytes (a + n) k := by
  simp [Memory.bytes, List.range_add, Function.comp_def, Nat.add_assoc]

@[simp] theorem Memory.bytes_zero (m : Memory) (a : Nat) : m.bytes a 0 = [] := rfl

@[simp] theorem Memory.length_bytes (m : Memory) (a n : Nat) : (m.bytes a n).length = n := by simp [Memory.bytes]

/-- Into an empty queue the fill pushes as many units as it has room for and the request still has (R131, R132). -/
theorem Chan.fill_of_empty {ch : Chan} (m : Memory) (hq : ch.txq = []) (hfit : bufferFits ch.tx.ptr ch.tx.len = true)
    (hlt : ch.tx.idx < ch.tx.len) : ch.fill m = .ok { ch with
      txq := m.bytes ch.tx.address (min ch.txDepth ch.tx.remaining)
      tx := { ch.tx with idx := ch.tx.idx + BitVec.ofNat 32 (min ch.txDepth ch.tx.remaining) } } := by
  unfold Chan.fill
  split
  · next hf =>
    have hdepth : ch.txDepth = ch.par.txCap := if_pos hf
    rw [fillFifo_eq m _ ch (bufferFits_iff.1 hfit) hdepth rfl (Nat.le_of_lt hlt) (by simp [hq]), hq, hdepth]
    rfl
  · next hf =>
    have hdepth : ch.txDepth = 1 := if_neg hf
    have hone : min ch.txDepth ch.tx.remaining = 1 := by
      have := ch.tx.advance_remaining hlt
      omega
    have hroom : ch.txFull = false := Chan.txFull_of_txEmpty (by simp [Chan.txEmpty, Chan.txLevel, hq])
    simp only [Chan.fillOne, memRead_eq (Tcb.address_lt_top hfit hlt), txPush_eq hroom, hq, hone]
    rfl

/-! A transmit under way with nothing else to do (R136 (a)). Its channel runs through two shapes: between rounds the queue is
empty and the vector pending; inside a round the vector has been served and units are queued. -/

/-- A channel with a request in flight that nothing but its own transmit vector and the line can move: it shifts onto an unwired
line, the shift of the last queued unit raises the transmit event, and its other vectors are at rest. -/
structure Chan.CanSend (ch : Chan) : Prop where
  run : ch.run = true
  unwired : ch.par.loopTo = none
  event : ch.evEnabled ch.txEvm = true
  limit : ch.txFifo = true → ch.txLimit = 1
  enabled : ch.vTx.en = true
  rest : ∀ k, k ≠ .tx → (ch.vec k).wants = false
  inFlight : ch.flags.txInFlight = true
  fits : bufferFits ch.tx.ptr ch.tx.len = true

/-- The request of `ch` with `n` units on the line and `k` more queued, the vector served. -/
def Chan.filled (ch : Chan) (m : Memory) (n k : Nat) : Chan := { ch with
  tx := { ch.tx with idx := BitVec.ofNat 32 (n + k) }
  txLine := ch.txLine ++ m.bytes ch.tx.ptr.toNat n
  txq := m.bytes (ch.tx.ptr.toNat + n) k
  vTx := ch.vTx.served }

/-- The queue shifted out whole, the last unit's event pending. -/
def Chan.drained (ch : Chan) : Chan := { ch with
  txLine := ch.txLine ++ ch.txq
  txq := []
  vTx := { ch.vTx with pend := true } }

/-- The request of `ch` with `n` units on the line, none queued, the vector pending. -/
def Chan.sent (ch : Chan) (m : Memory) (n : Nat) : Chan := (ch.filled m n 0).drained

/-- The registers a transmit moves through are none of these. -/
theorem Chan.CanSend.moved {ch : Chan} (h : ch.CanSend) (i : Word) (l q : List Byte) (p : Bool) :
    ({ ch with tx := { ch.tx with idx := i }, txLine := l, txq := q, vTx := { ch.vTx with pend := p } } : Chan).CanSend :=
  { h with rest := fun k hk => by cases k with
      | tx => exact absurd rfl hk
      | rx => exact h.rest .rx hk
      | pr => exact h.rest .pr hk }

theorem Chan.CanSend.filled {ch : Chan} (h : ch.CanSend) (m : Memory) (n k : Nat) : (ch.filled m n k).CanSend := h.moved ..

theorem Chan.CanSend.sent {ch : Chan} (h : ch.CanSend) (m : Memory) (n : Nat) : (ch.sent m n).CanSend := h.moved ..

theorem Chan.CanSend.shiftOut {ch : Chan} (h : ch.CanSend) (u : Byte) : (ch.shiftOut u).CanSend := by
  rw [Chan.shiftOut, Chan.pendIf_tx]
  exact h.moved ..

theorem Chan.drained_filled (ch : Chan) (m : Memory) (n k : Nat) : (ch.filled m n k).drained = ch.sent m (n + k) := by
  simp [Chan.drained, Chan.filled, Chan.sent, Memory.bytes_add, VecRegs.served]

/-- Draining first one unit, then the rest. -/
theorem Chan.drained_shiftOut {ch : Chan} {u : Byte} {q : List Byte} (hq : ch.txq = u :: q) :
    (ch.shiftOut u).drained = ch.drained := by
  simp [Chan.drained, Chan.shiftOut, hq, VecRegs.raised]

/-- The last queued unit raises the event (R117): always in byte mode, in FIFO mode because the limit is 1. -/
theorem Chan.CanSend.shiftOut_last {ch : Chan} (h : ch.CanSend) {u : Byte} (hq : ch.txq = [u]) :
    ch.shiftOut u = ch.drained := by
  have hraise : ch.shiftRaises = true := by
    have hev := h.event
    unfold Chan.txEvm at hev
    unfold Chan.shiftRaises
    cases hf : ch.txFifo with
    | true => simpa [hf, h.limit hf, Chan.txLevel, hq] using hev
    | false => simpa [hf] using hev
  simp [Chan.shiftOut, Chan.drained, hq, hraise, VecRegs.raised]

section Rounds

variable {s : State} {c : Nat} {ch : Chan}

/-- One unit shifted out of a channel that can send (R117). -/
theorem Chan.CanSend.exec_shift (h : ch.CanSend) (hc : c < s.nch) {u : Byte} {q : List Byte} (hq : ch.txq = u :: q) :
    exec (.envTxShift c) (s.modChan c fun _ => ch) = .next (s.modChan c fun _ => ch.shiftOut u) := by
  have hchan : (s.modChan c fun _ => ch).chan c = ch := State.chan_modChan_same s c _ hc
  rw [execEnvTxShift_unwired (by rwa [State.nch_modChan]) (by rw [hchan]; exact h.run) (by rw [hchan]; exact h.unwired)
    (by rw [hchan]; exact hq), State.modChan_modChan]

/-- Every queued unit shifted out, one after the other. -/
theorem Chan.CanSend.shiftUnits (h : ch.CanSend) (hc : c < s.nch) {u : Byte} {q : List Byte} (hq : ch.txq = u :: q) :
    shiftUnits c (q.length + 1) (s.modChan c fun _ => ch) = .next (s.modChan c fun _ => ch.drained) := by
  induction q generalizing ch u with
  | nil => simp only [List.length_nil, Machine.shiftUnits, h.exec_shift hc hq, andThen, h.shiftOut_last hq]
  | cons v q ih =>
    have htail : (ch.shiftOut u).txq = v :: q := by simp [Chan.shiftOut, hq]
    rw [Machine.shiftUnits, h.exec_shift hc hq, andThen, List.length_cons, ih (h.shiftOut u) htail, Chan.drained_shiftOut hq]

variable (ha : s.active = []) (hrest : ∀ d < s.nch, d ≠ c → ∀ k, ((s.chan d).vec k).wants = false)

include ha hrest in
/-- In a machine at rest otherwise, the pending transmit vector of a channel that can send is dispatchable. -/
theorem Chan.CanSend.dispatchable (h : ch.CanSend) (hc : c < s.nch) (hp : ch.vTx.pend = true) :
    (s.modChan c fun _ => ch).dispatchable c .tx = true := by
  have hchan : (s.modChan c fun _ => ch).chan c = ch := State.chan_modChan_same s c _ hc
  refine State.dispatchable_of_only ha (by simp [hchan, Chan.vec, VecRegs.wants, h.enabled, hp]) fun d hd j hv => ?_
  by_cases hdc : d = c
  · subst hdc
    rw [hchan]
    exact h.rest j fun hj => hv (hj ▸ rfl)
  · rw [State.chan_modChan_ne s c d _ hdc]
    exact hrest d (by rwa [State.nch_modChan] at hd) hdc j

/-- Below the length the index does not wrap: it counts the units sent (R16). -/
theorem Chan.idx_sent {ch : Chan} (m : Memory) {n : Nat} (hn : n < ch.tx.len.toNat) : (ch.sent m n).tx.idx.toNat = n :=
  Nat.mod_eq_of_lt (hn.trans ch.tx.len.isLt)

/-- The fill of a request with `n` units sent (R131, R132). -/
theorem Chan.CanSend.fill_sent (h : ch.CanSend) (m : Memory) {n : Nat} (hn : n < ch.tx.len.toNat) :
    ((ch.sent m n).unpend .tx).fill m = .ok (ch.filled m n (min ch.txDepth (ch.tx.len.toNat - n))) := by
  have hidx := ch.idx_sent m hn
  have hlt : ((ch.sent m n).unpend .tx).tx.idx < ((ch.sent m n).unpend .tx).tx.len := hidx.trans_lt hn
  have haddr : ((ch.sent m n).unpend .tx).tx.address = ch.tx.ptr.toNat + n := congrArg (ch.tx.ptr.toNat + ·) hidx
  have hremaining : ((ch.sent m n).unpend .tx).tx.remaining = ch.tx.len.toNat - n := congrArg (ch.tx.len.toNat - ·) hidx
  have hdepth : ((ch.sent m n).unpend .tx).txDepth = ch.txDepth := rfl
  rw [Chan.fill_of_empty (ch := (ch.sent m n).unpend .tx) m rfl h.fits hlt, haddr, hremaining, hdepth]
  simp [Chan.sent, Chan.drained, Chan.filled, VecRegs.served, BitVec.ofNat_add]

include ha hrest in
/-- The vector served with `n` units sent and more to send. -/
theorem Chan.CanSend.exec_serve (h : ch.CanSend) (hc : c < s.nch) {n : Nat} (hn : n < ch.tx.len.toNat) :
    exec (.irqTx c) (s.modChan c fun _ => ch.sent s.mem n) =
      .next (s.modChan c fun _ => ch.filled s.mem n (min ch.txDepth (ch.tx.len.toNat - n))) := by
  have hchan : (s.modChan c fun _ => ch.sent s.mem n).chan c = ch.sent s.mem n := State.chan_modChan_same s c _ hc
  rw [execIrqTx_fills (by rwa [State.nch_modChan]) ((h.sent s.mem n).dispatchable ha hrest hc rfl)
    (by rw [hchan]; exact h.inFlight) (by rw [hchan]; exact (ch.idx_sent s.mem hn).trans_lt hn)
    (by rw [hchan]; exact h.fill_sent s.mem hn), State.modChan_modChan]

include ha hrest in
/-- One round: the vector served, then all it queued shifted out. -/
theorem Chan.CanSend.round (h : ch.CanSend) (hc : c < s.nch) {n k : Nat} (hk : min ch.txDepth (ch.tx.len.toNat - n) = k + 1) :
    exec (.irqTx c) (s.modChan c fun _ => ch.sent s.mem n) = .next (s.modChan c fun _ => ch.filled s.mem n (k + 1)) ∧
      Machine.shiftUnits c (k + 1) (s.modChan c fun _ => ch.filled s.mem n (k + 1)) =
        .next (s.modChan c fun _ => ch.sent s.mem (n + (k + 1))) := by
  refine ⟨hk ▸ h.exec_serve ha hrest hc (by omega), ?_⟩
  have hdrain := (h.filled s.mem n (k + 1)).shiftUnits hc (s.mem.bytes_succ (ch.tx.ptr.toNat + n) k)
  rwa [Memory.length_bytes, Chan.drained_filled] at hdrain

include ha hrest in
/-- Byte mode: every round sends one unit (R132). -/
theorem Chan.CanSend.serveAndShift (h : ch.CanSend) (hc : c < s.nch) (hbyte : ch.txDepth = 1) {r n : Nat}
    (hr : n + r ≤ ch.tx.len.toNat) :
    serveAndShift c r (s.modChan c fun _ => ch.sent s.mem n) = .next (s.modChan c fun _ => ch.sent s.mem (n + r)) := by
  induction r generalizing n with
  | zero => rfl
  | succ r ih =>
    obtain ⟨hserve, hshift⟩ := h.round ha hrest hc (n := n) (k := 0) (by omega)
    have hone : exec (.envTxShift c) (s.modChan c fun _ => ch.filled s.mem n 1) =
        .next (s.modChan c fun _ => ch.sent s.mem (n + 1)) := by
      obtain ⟨t, hx, ht⟩ := (andThen_next _ _ _).1 hshift
      exact hx.trans ht
    rw [Machine.serveAndShift, hserve, andThen, hone, andThen, ih (by omega), Nat.add_assoc, Nat.add_comm 1 r]

include ha hrest in
/-- FIFO mode: every round sends what fits the FIFO (R131), so every round but the last sends its capacity. -/
theorem Chan.CanSend.serveAndDrain (h : ch.CanSend) (hc : c < s.nch) {r n : Nat} (hpos : 0 < ch.txDepth)
    (hn : n ≤ ch.tx.len.toNat) (hr : n + r * ch.txDepth < ch.tx.len.toNat + ch.txDepth) :
    serveAndDrain c r (s.modChan c fun _ => ch.sent s.mem n) =
      .next (s.modChan c fun _ => ch.sent s.mem (min ch.tx.len.toNat (n + r * ch.txDepth))) := by
  induction r generalizing n with
  | zero => simp [Machine.serveAndDrain, hn]
  | succ r ih =>
    rw [Nat.succ_mul] at hr ⊢
    obtain ⟨k, hk⟩ : ∃ k, min ch.txDepth (ch.tx.len.toNat - n) = k + 1 := Nat.exists_eq_add_one.2 (by omega)
    obtain ⟨hserve, hdrain⟩ := h.round ha hrest hc hk
    have hqueued : ((s.modChan c fun _ => ch.filled s.mem n (k + 1)).chan c).txq.length = k + 1 := by
      rw [State.chan_modChan_same s c _ hc]
      exact Memory.length_bytes ..
    have hlast : ch.tx.len.toNat < n + ch.txDepth → r * ch.txDepth = 0 := fun hlt => by
      cases r with
      | zero => exact Nat.zero_mul _
      | succ r => rw [Nat.succ_mul] at hr; omega
    rw [Machine.serveAndDrain, hserve, andThen, hqueued, hdrain, andThen, ih (by omega) (by omega)]
    have hsum : min ch.tx.len.toNat (n + (k + 1) + r * ch.txDepth) =
        min ch.tx.len.toNat (n + (r * ch.txDepth + ch.txDepth)) := by omega
    rw [hsum]

end Rounds

end Sys2Proof.Machine

namespace Sys2Proof.Machine

/-! From an idle open channel to the completion. -/

/-- TX with operands `a` and `b` is accepted on channel `c`, and nothing but that transfer can happen until it completes: the
machine is at rest, the wire leads to no receiver, the consumer issues nothing, a FIFO signals when its last unit leaves. -/
structure State.ReadyToSend (s : State) (c : Nat) (a b : Word) : Prop where
  inv : s.Inv
  channel : c < s.nch
  silent : s.consumerSilent
  idle : s.active = []
  rest : ∀ d < s.nch, ∀ k, ((s.chan d).vec k).wants = false
  unwired : (s.chan c).par.loopTo = none
  limit : (s.chan c).par.txCap ≠ 0 → (s.chan c).txLimit = 1
  opened : (s.chan c).flags.init = true
  unlocked : (s.chan c).flags.txLock = false
  source : a ≠ 0
  length : b ≠ 0
  fits : bufferFits a b = true

/-- The transfer of `b` units from `a` ended: one record, the buffer on the line, the direction free (R134). -/
def State.SentWhole (s : State) (c : Nat) (a b : Word) (t : State) : Prop :=
  t.cbLog = s.cbLog ++ [{ ch := c, event := .txComplete, ptr := a, data := 0 }] ∧
  (t.chan c).txLine = (s.chan c).txLine ++ s.mem.bytes a.toNat b.toNat ∧ (t.chan c).txq = [] ∧
  (t.chan c).tx = { ptr := 0, len := b, idx := b } ∧
  (t.chan c).flags.txLock = false ∧ (t.chan c).flags.txBusy = false ∧ t.active = []

/-- The transmit event is enabled once its mask was put in (R107). -/
theorem Chan.evEnabled_txEvm_acceptTx (ch : Chan) (a b : Word) :
    (ch.acceptTx a b).evEnabled (ch.acceptTx a b).txEvm = true := by
  rw [acceptTx_registers, Chan.txEvm_eq]
  by_cases hcap : ch.par.txCap = 0
  · simp only [hcap, if_true]
    exact (Chan.evEnabled_tbe _).trans (by simp)
  · simp only [hcap, if_false]
    exact (Chan.evEnabled_txfStd _).trans (by simp)

/-- An accepted request has sent nothing; its queue was flushed in FIFO mode and is empty in byte mode. -/
theorem Chan.acceptTx_sent_zero {ch : Chan} (hq : ch.par.txCap = 0 → ch.txq = []) (a b : Word) (m : Memory) :
    (ch.acceptTx a b).sent m 0 = ch.acceptTx a b := by
  rw [acceptTx_registers]
  simpa [Chan.sent, Chan.filled, Chan.drained, VecRegs.served] using fun hcap => (hq hcap).symm

theorem Chan.len_acceptTx (ch : Chan) (a b : Word) : (ch.acceptTx a b).tx.len = b := by rw [acceptTx_registers]

theorem Chan.txDepth_acceptTx (ch : Chan) (a b : Word) : (ch.acceptTx a b).txDepth = ch.txDepth := by
  rw [acceptTx_registers]
  rfl

/-- With all of an accepted request sent the index has reached the length (R16). -/
theorem Chan.tx_acceptTx_sent (ch : Chan) (a b : Word) (m : Memory) :
    ((ch.acceptTx a b).sent m b.toNat).tx = { ptr := a, len := b, idx := b } := by
  rw [acceptTx_registers]
  simp [Chan.sent, Chan.filled, Chan.drained]

/-- With all of an accepted request sent its buffer is on the line. -/
theorem Chan.txLine_acceptTx_sent (ch : Chan) (a b : Word) (m : Memory) :
    ((ch.acceptTx a b).sent m b.toNat).txLine = ch.txLine ++ m.bytes a.toNat b.toNat := by
  rw [acceptTx_registers]
  simp [Chan.sent, Chan.filled, Chan.drained]

section Completion

variable {s : State} {c : Nat} {a b : Word}

theorem State.ReadyToSend.canSend (h : s.ReadyToSend c a b) : ((s.chan c).acceptTx a b).CanSend := by
  have hinv := h.inv.channels c h.channel
  have hevent := Chan.evEnabled_txEvm_acceptTx (s.chan c) a b
  rw [acceptTx_registers] at hevent ⊢
  exact {
    run := hinv.open_runs.trans h.opened
    unwired := h.unwired
    event := hevent
    limit := fun hf => h.limit (bne_iff_ne.1 hf)
    enabled := (hinv.open_vectors h.opened).1
    rest := fun k hk => by cases k with
      | tx => exact absurd rfl hk
      | rx => exact h.rest c h.channel .rx
      | pr => exact h.rest c h.channel .pr
    inFlight := rfl
    fits := h.fits }

/-- The request is accepted (R85): the run starts with nothing sent. -/
theorem State.ReadyToSend.exec_tx (h : s.ReadyToSend c a b) : exec (.tx c a b) s =
    .next ((s.reply .mainLine .success).modChan c fun _ => ((s.chan c).acceptTx a b).sent s.mem 0) := by
  have hinv := h.inv.channels c h.channel
  have hbusy : (s.chan c).flags.txBusy = false := by
    cases hb : (s.chan c).flags.txBusy
    · rfl
    · exact absurd (hinv.tx_busy_locked hb) (by simp [h.unlocked])
  have hempty : (s.chan c).par.txCap = 0 → (s.chan c).txq = [] := fun hcap => by
    simpa [Chan.txEmpty, Chan.txLevel] using
      hinv.txEmpty_of_idle (by simp [Chan.txFifo, hcap]) (by simp [ChanFlags.txInFlight, hbusy])
  have hcmd : cmdTx c a b s = (s.modChan c fun ch => ch.acceptTx a b, .success) :=
    cmdTx_of_accepted (by rw [h.opened, hbusy, h.unlocked, requestRejected_open _ h.source h.length]; rfl)
  rw [Chan.acceptTx_sent_zero hempty]
  refine (boundedRequest_of_fits h.fits).trans
    ((hostCommand_eq _ _ _ h.channel (s.hostEnabled_of_quiet h.idle h.rest)).trans ?_)
  rw [hcmd, State.modChan_eq_replace]
  rfl

/-- Whatever rounds send all units, one more service completes the transfer (R134, R136 (a)). -/
theorem State.ReadyToSend.completes (h : s.ReadyToSend c a b) {rounds : State → Result}
    (hrounds : rounds ((s.reply .mainLine .success).modChan c fun _ => ((s.chan c).acceptTx a b).sent s.mem 0) =
      .next ((s.reply .mainLine .success).modChan c fun _ => ((s.chan c).acceptTx a b).sent s.mem b.toNat)) :
    ∃ t, andThen (exec (.tx c a b) s) (fun s1 => andThen (rounds s1) (exec (.irqTx c))) = .next t ∧
      s.SentWhole c a b t := by
  have hsend := h.canSend.sent s.mem b.toNat
  have hchan := State.chan_modChan_same (s.reply .mainLine .success) c
    (fun _ => ((s.chan c).acceptTx a b).sent s.mem b.toNat) h.channel
  have hdispatchable := hsend.dispatchable (s := s.reply .mainLine .success) (c := c) h.idle (fun d hd _ => h.rest d hd)
    h.channel rfl
  have htx := (s.chan c).tx_acceptTx_sent a b s.mem
  simp only [h.exec_tx, andThen, hrounds]
  refine ⟨_, execIrqTx_completes (by rw [State.nch_modChan]; exact h.channel) hdispatchable
    (by rw [hchan]; exact hsend.inFlight) (by rw [hchan, htx]; exact BitVec.lt_irrefl b) (by rw [hchan]; rfl) h.silent, ?_⟩
  rw [State.modChan_modChan, hchan, htx]
  simp only [State.SentWhole, State.chan_notify, State.chan_modChan_same (s.reply .mainLine .success) c _ h.channel]
  exact ⟨rfl, (s.chan c).txLine_acceptTx_sent a b s.mem, rfl,
    congrArg (fun t : Tcb => { t with ptr := 0 }) htx, rfl, rfl, h.idle⟩

end Completion

end Sys2Proof.Machine

namespace Sys2Proof.Proofs

open Sys2Proof.Machine

/-- Settles O59: each of TXLEN rounds sends one unit. -/
theorem byteModeTransmitCompletes : Obligations.ByteModeTransmitCompletes := by
  intro s c a b hinv hc hsilent hidle hrest hcap hwire hopen hlock ha hb hfit
  have h : s.ReadyToSend c a b :=
    ⟨hinv, hc, hsilent, hidle, hrest, hwire, fun hf => absurd hcap hf, hopen, hlock, ha, hb, hfit⟩
  have hdepth : ((s.chan c).acceptTx a b).txDepth = 1 :=
    (Chan.txDepth_acceptTx ..).trans (if_neg (by simp [Chan.txFifo, hcap]))
  refine h.completes ?_
  have hrounds := h.canSend.serveAndShift (s := s.reply .mainLine .success) hidle (fun d hd _ => hrest d hd) hc hdepth
    (r := b.toNat) (n := 0) (by rw [Chan.len_acceptTx, Nat.zero_add])
  rwa [Nat.zero_add] at hrounds

/-- Settles O60: each round sends what the FIFO holds, and ceil(TXLEN / TXCAP) rounds send everything. -/
theorem fifoModeTransmitCompletes : Obligations.FifoModeTransmitCompletes := by
  intro s c a b hinv hc hsilent hidle hrest hcap hlimit hwire hopen hlock ha hb hfit
  have h : s.ReadyToSend c a b :=
    ⟨hinv, hc, hsilent, hidle, hrest, hwire, fun _ => hlimit, hopen, hlock, ha, hb, hfit⟩
  have hdepth : ((s.chan c).acceptTx a b).txDepth = (s.chan c).par.txCap :=
    (Chan.txDepth_acceptTx ..).trans (if_pos (by simp [Chan.txFifo, hcap]))
  have hpos : 0 < (s.chan c).par.txCap := Nat.pos_of_ne_zero hcap
  have hround := Nat.div_mul_le_self (b.toNat + (s.chan c).par.txCap - 1) (s.chan c).par.txCap
  have hreach := Nat.lt_div_mul_add hpos (a := b.toNat + (s.chan c).par.txCap - 1)
  refine h.completes ?_
  have hrounds := h.canSend.serveAndDrain (s := s.reply .mainLine .success) hidle (fun d hd _ => hrest d hd) hc
    (r := (b.toNat + (s.chan c).par.txCap - 1) / (s.chan c).par.txCap) (n := 0) (by rwa [hdepth]) (Nat.zero_le _)
    (by rw [hdepth, Chan.len_acceptTx]; omega)
  rwa [Chan.len_acceptTx, hdepth, Nat.zero_add, Nat.min_eq_left (by omega)] at hrounds

end Sys2Proof.Proofs

namespace Sys2Proof.Machine

/-! The environment: its four steps as equations, and what each makes of the machine (R117 to R120). -/

section EnvironmentSteps

variable {s t u : State} {c d n : Nat}

/-- An enabled shift (R117). -/
theorem exec_envTxShift (hc : c < s.nch) (he : s.shiftEnabled c = true) :
    exec (.envTxShift c) s = .next (shiftUnit c s) :=
  environmentStep_eq c (fun s => s.shiftEnabled c) _ _ s hc he

/-- An enabled arrival (R118). -/
theorem exec_envRxArrive (hc : c < s.nch) (he : s.arrivalEnabled c = true) {x : Byte} :
    exec (.envRxArrive c x) s = .next (s.arrive c x false) :=
  environmentStep_eq c (fun s => s.arrivalEnabled c) .noArrival (fun s => s.arrive c x false) s hc he

/-- An enabled arrival, flagged alternate (R118). -/
theorem exec_envRxArriveAlt (hc : c < s.nch) (he : s.arrivalEnabled c = true) {x : Byte} :
    exec (.envRxArriveAlt c x) s = .next (s.arrive c x true) :=
  environmentStep_eq c (fun s => s.arrivalEnabled c) .noArrival (fun s => s.arrive c x true) s hc he

/-- A detected condition of the fault table (R119). -/
theorem exec_envPFlag (hc : c < s.nch) (hn : n < 5) (hr : (s.chan c).run = true) :
    exec (.envPFlag c n) s = .next (s.modChan c fun ch => ch.detect s.par.protoMon n) :=
  (if_pos hn).trans (environmentStep_eq c (fun s => (s.chan c).run) .noDetection
    (fun s => s.modChan c fun ch => ch.detect s.par.protoMon n) s hc hr)

/-- A disabled shift (log 2). -/
theorem exec_envTxShift_disabled (hc : c < s.nch) (he : ¬s.shiftEnabled c = true) :
    exec (.envTxShift c) s = .refused .nothingToShift :=
  environmentStep_disabled (en := fun s => s.shiftEnabled c) (f := shiftUnit c) hc (Bool.eq_false_iff.2 he)

/-- A disabled arrival of either form (log 2). -/
theorem exec_envRxArrive_disabled (hc : c < s.nch) (he : ¬s.arrivalEnabled c = true) (x : Byte) :
    exec (.envRxArrive c x) s = .refused .noArrival ∧ exec (.envRxArriveAlt c x) s = .refused .noArrival :=
  have hdisabled (f : State → State) : environmentStep c (fun s => s.arrivalEnabled c) .noArrival f s = .refused .noArrival :=
    environmentStep_disabled hc (Bool.eq_false_iff.2 he)
  ⟨hdisabled fun s => s.arrive c x false, hdisabled fun s => s.arrive c x true⟩

/-! Enabling conditions. -/

theorem Chan.rxEmpty_iff {ch : Chan} : ch.rxEmpty = true ↔ ch.rxq = [] := by simp [Chan.rxEmpty, Chan.rxLevel]

/-- R117. -/
theorem State.shiftEnabled_iff : s.shiftEnabled c = true ↔ (s.chan c).run = true ∧ (s.chan c).txq ≠ [] := by
  simp [State.shiftEnabled, Chan.txEmpty, Chan.txLevel]

/-- A receiver is wired exactly where some transmitter's wire goes to it (R118). -/
theorem State.wiredReceiver_iff : s.wiredReceiver c = true ↔ ∃ b < s.nch, (s.chan b).par.loopTo = some c := by
  simp only [State.wiredReceiver, List.any_eq_true, beq_iff_eq, List.mem_iff_getElem]
  constructor
  · rintro ⟨ch, ⟨b, hb, rfl⟩, hw⟩
    exact ⟨b, hb, by simpa [State.chan, hb] using hw⟩
  · rintro ⟨b, hb, hw⟩
    have hb' : b < s.chans.length := hb
    exact ⟨_, ⟨b, hb', rfl⟩, by simpa [State.chan, hb'] using hw⟩

/-- R118. -/
theorem State.arrivalEnabled_iff :
    s.arrivalEnabled c = true ↔ HasRoom (s.chan c) ∧ ¬∃ b < s.nch, (s.chan b).par.loopTo = some c := by
  rw [← State.wiredReceiver_iff, ← Chan.takesUnit_iff]
  simp [State.arrivalEnabled]

/-! Effects, in the terms of Safety.lean. -/

/-- A shift on the sender's side (R117). -/
theorem Chan.shiftOut_eq {ch : Chan} {x : Byte} {q : List Byte} (hq : ch.txq = x :: q) : ch.shiftOut x = shifted x q ch := by
  have hraises : ch.shiftRaises = if ch.par.txCap = 0 then ch.even.getLsbD 0
      else decide (q.length + 1 = ch.txLimit.toNat) && ch.even.getLsbD 1 := by
    by_cases hcap : ch.par.txCap = 0
    · simp [Chan.shiftRaises, Chan.txFifo, hcap, Chan.evEnabled_tbe]
    · simp [Chan.shiftRaises, Chan.txFifo, hcap, Chan.evEnabled_txfStd, Chan.txLevel, hq, Bool.beq_eq_decide_eq]
  rw [Chan.shiftOut, Chan.pendIf_tx, hraises, hq]
  rfl

/-- An arrival in FIFO mode (R118). -/
theorem Chan.arrives_arriveFifo {ch : Chan} (hf : ch.rxFifo = true) (x : Byte) (alt : Bool) :
    Arrives x alt ch (ch.arriveFifo x alt) := by
  have hcap : ch.par.rxCap ≠ 0 := by simpa [Chan.rxFifo] using hf
  rw [Arrives, if_neg hcap, Chan.arriveFifo, Chan.pendIf_rx, Chan.evEnabled_rxfStd, Chan.evEnabled_rxfAlt]
  simp [Chan.rxLevel, Bool.beq_eq_decide_eq]

/-- An arrival in byte mode; only an occupied buffer may keep the old unit (R118, U4). -/
theorem Chan.arrives_arriveByte {ch : Chan} (hf : ch.rxFifo = false) (x : Byte) (alt keep : Bool) :
    Arrives x alt ch (ch.arriveByte x keep) := by
  have hcap : ch.par.rxCap = 0 := by simpa [Chan.rxFifo] using hf
  rw [Arrives, if_pos hcap, Chan.arriveByte, Chan.pendIf_rx, Chan.evEnabled_rxe]
  refine ⟨!ch.rxEmpty && keep, fun hq => by simp [Chan.rxEmpty_iff.2 hq], ?_⟩
  cases ch.rxEmpty <;> cases keep <;> rfl

/-- An arrival is one update of its channel, and may count a draw (R118). -/
theorem State.arrive_eq (s : State) (c : Nat) (x : Byte) (alt : Bool) : ∃ n f,
    s.arrive c x alt = { s with draws := n }.modChan c f ∧ Arrives x alt (s.chan c) (f (s.chan c)) := by
  unfold State.arrive
  split
  · next hf => exact ⟨s.draws, _, rfl, Chan.arrives_arriveFifo hf x alt⟩
  · next hf =>
    have hbyte := Chan.arrives_arriveByte (Bool.eq_false_iff.2 hf) x alt
    split
    · exact ⟨s.draws, _, rfl, hbyte true⟩
    · exact ⟨s.draws + 1, _, rfl, hbyte _⟩

/-- A detected condition (R119). -/
theorem Chan.detect_eq (ch : Chan) (mon : Bool) (n : Nat) : ch.detect mon n = { ch with
    pstat := ch.pstat ||| BitVec.twoPow 8 n
    vPr := ch.vPr.raised (mon && ch.even.getLsbD (8 + n)) } := by
  rw [Chan.detect, Chan.pendIf_pr]
  rfl

/-! Frames. -/

theorem EnvironmentFrame.refl (s : State) : EnvironmentFrame s s := ⟨rfl, rfl, rfl, rfl, fun _ => rfl, rfl, rfl, rfl⟩

theorem EnvironmentFrame.trans (h : EnvironmentFrame s t) (h' : EnvironmentFrame t u) : EnvironmentFrame s u where
  par := h'.par.trans h.par
  nch := h'.nch.trans h.nch
  sched := h'.sched.trans h.sched
  active := h'.active.trans h.active
  memory a := (h'.memory a).trans (h.memory a)
  cbLog := h'.cbLog.trans h.cbLog
  consumer := h'.consumer.trans h.consumer
  statusLog := h'.statusLog.trans h.statusLog

/-- An update of a channel with a count of draws stays inside the frame. -/
theorem EnvironmentFrame.of_modChan {f : Chan → Chan} : EnvironmentFrame s ({ s with draws := n }.modChan c f) :=
  ⟨rfl, State.nch_modChan { s with draws := n } c f, rfl, rfl, fun _ => rfl, rfl, rfl, rfl⟩

/-- An arrival within its frame (R118). -/
theorem State.arrive_frame (hc : c < s.nch) (x : Byte) (alt : Bool) : EnvironmentFrame s (s.arrive c x alt) ∧
    (∀ d, d ≠ c → (s.arrive c x alt).chan d = s.chan d) ∧ Arrives x alt (s.chan c) ((s.arrive c x alt).chan c) := by
  obtain ⟨n, f, hf, ha⟩ := s.arrive_eq c x alt
  refine ⟨hf ▸ .of_modChan, fun d hd => arrive_chan_ne s c d x alt hd, ?_⟩
  rw [hf, State.chan_modChan_same { s with draws := n } c f hc]
  exact ha

/-- The wire's delivery within its frame: an arrival where there is room, nothing where there is none (R120). -/
theorem State.deliver_frame (hd : d < s.nch) (x : Byte) : EnvironmentFrame s (s.deliver d x) ∧
    (∀ e, e ≠ d → (s.deliver d x).chan e = s.chan e) ∧
    (HasRoom (s.chan d) → Arrives x false (s.chan d) ((s.deliver d x).chan d)) ∧
    (¬HasRoom (s.chan d) → (s.deliver d x).chan d = s.chan d) := by
  unfold State.deliver
  split
  · next ht =>
    obtain ⟨hframe, hothers, ha⟩ := State.arrive_frame hd x false
    exact ⟨hframe, hothers, fun _ => ha, fun hroom => absurd (Chan.takesUnit_iff _ |>.1 ht) hroom⟩
  · next ht =>
    exact ⟨.refl s, fun _ _ => rfl, fun hroom => absurd (Chan.takesUnit_iff _ |>.2 hroom) ht, fun _ => rfl⟩

/-- A shift onto a wire: the sender's update, then the delivery (R117, R120). -/
theorem shiftUnit_wired {x : Byte} {q : List Byte} (hq : (s.chan c).txq = x :: q) (hw : (s.chan c).par.loopTo = some d) :
    shiftUnit c s = (s.modChan c fun ch => ch.shiftOut x).deliver d x := by
  simp only [shiftUnit, hq, hw]

end EnvironmentSteps

end Sys2Proof.Machine

namespace Sys2Proof.Proofs

open Sys2Proof.Machine

/-- Settles O30: the enabled shift is the sender's update of its channel alone. -/
theorem shiftMovesTheHeadToTheLine : Obligations.ShiftMovesTheHeadToTheLine := by
  intro s c hc
  refine ⟨fun u q hr hq hl => ⟨_, execEnvTxShift_unwired hc hr hl hq, .of_modChan,
    fun d hd => State.chan_modChan_ne s c d _ hd, ?_⟩, fun hoff => exec_envTxShift_disabled hc ?_⟩
  · rw [State.chan_modChan_same s c _ hc, Chan.shiftOut_eq hq]
  · rw [State.shiftEnabled_iff]
    rintro ⟨hr, hq⟩
    obtain hstopped | hempty := hoff
    · simp [hstopped] at hr
    · exact hq hempty

/-- Settles O31: after the sender's update the wire delivers, and a shift leaves the room at its own receiver as it was. -/
theorem loopbackDeliversInTheSameStep : Obligations.LoopbackDeliversInTheSameStep := by
  intro s c d u q hc hd hr hq hw
  have hen : s.shiftEnabled c = true := State.shiftEnabled_iff.2 ⟨hr, by simp [hq]⟩
  have hsame := State.chan_modChan_same s c (fun ch => ch.shiftOut u) hc
  rw [Chan.shiftOut_eq hq] at hsame
  have hne := fun e => State.chan_modChan_ne s c e fun ch => ch.shiftOut u
  obtain ⟨hframe, hothers, hroom, hfull⟩ :=
    State.deliver_frame (s := s.modChan c fun ch => ch.shiftOut u) (d := d) (by rwa [State.nch_modChan]) u
  refine ⟨_, exec_envTxShift hc hen, ?_⟩
  rw [shiftUnit_wired hq hw]
  refine ⟨.trans .of_modChan hframe, fun e hec hed => (hothers e hed).trans (hne e hec), fun hdc => ?_, ?_⟩
  · rw [hne d hdc] at hroom hfull
    exact ⟨(hothers c (Ne.symm hdc)).trans hsame, hroom, hfull⟩
  · rintro rfl
    rw [hsame] at hroom hfull
    exact ⟨hroom, hfull⟩

/-- Settles O32: enabled, both forms are an arrival; the enabling condition is room without a wire. -/
theorem arrivalQueuesTheUnitWhereThereIsRoom : Obligations.ArrivalQueuesTheUnitWhereThereIsRoom := by
  intro s c u hc
  refine ⟨fun hroom hwire => ?_, fun hoff => ?_⟩
  · have hen : s.arrivalEnabled c = true := State.arrivalEnabled_iff.2 ⟨hroom, fun ⟨b, hb, h⟩ => hwire b hb h⟩
    exact ⟨⟨_, exec_envRxArrive hc hen, State.arrive_frame hc u false⟩,
      ⟨_, exec_envRxArriveAlt hc hen, State.arrive_frame hc u true⟩⟩
  · refine exec_envRxArrive_disabled hc (fun hen => ?_) u
    obtain ⟨hroom, hwire⟩ := State.arrivalEnabled_iff.1 hen
    exact hoff.elim (absurd hroom) (absurd · hwire)

/-- Settles O33: the flag and the vector are one update of the channel; on a stopped one nothing is detected. -/
theorem detectionSetsTheFlag : Obligations.DetectionSetsTheFlag := by
  intro s c i hc hi
  refine ⟨fun hr => ⟨_, exec_envPFlag hc hi hr, .of_modChan, fun d hd => State.chan_modChan_ne s c d _ hd, ?_⟩,
    fun hr => execEnvPFlag_stopped hc hr hi⟩
  rw [State.chan_modChan_same s c _ hc, Chan.detect_eq]

end Sys2Proof.Proofs

namespace Sys2Proof

/-! What well-formed operations and descriptors name. -/

section WellFormed

variable {nch : Nat} {w : BitVec 80} {i : Instr}

/-- A well-formed operation names a channel that exists (R11, R64 (b)). -/
theorem Instr.ch_lt_of_wf (h : i.wf nch = true) : i.ch < nch := by
  cases i with
  | initOpen _ | initClose _ | setBaud _ _ | abortTx _ | abortRx _ | abortTxRx _ => exact Laws.ChannelExists.of_command h
  | initInvalid c v => exact Laws.ChannelExists.initInvalid c v nch h
  | tx c a b => exact Laws.ChannelExists.tx c a b nch h
  | rx c a b => exact Laws.ChannelExists.rx c a b nch h
  | irqTx _ | irqRx _ | irqProto _ | txDone _ | envTxShift _ | envRxArrive _ _ | envRxArriveAlt _ _ =>
    exact Laws.ChannelExists.of_schedule h
  | envPFlag c n => exact Laws.ChannelExists.envPFlag c n nch h

/-- A descriptor spells a host command (R55, R66). -/
theorem decodeCmd_isCommand (h : decodeCmd nch w = .ok i) : i.isCommand = true := by
  rw [decodeCmd_eq] at h
  split at h
  · cases h
  · unfold decodeOp at h
    split at h
    · cases h
      unfold decodeInit
      split
      · rfl
      · split <;> rfl
    · cases h; rfl
    · split at h <;> cases h; rfl
    · split at h <;> cases h; rfl
    · unfold decodeAbort at h
      split at h
      · cases h; rfl
      · split at h
        · cases h; rfl
        · split at h <;> cases h; rfl
    · cases h

end WellFormed

end Sys2Proof

namespace Sys2Proof.Machine

/-! Refusals. Where its enabling condition holds, an operation is refused only through its callback; the operations are followed
to that callback, and the callback to what the consumer issues. -/

/-- An outcome that is no refusal. -/
def Unrefused (o : Result) : Prop := ∀ r, o ≠ .refused r

/-- What neither faults nor is refused is carried out. -/
theorem Faultless.carriedOut {o : Result} (hf : Faultless o) (hu : Unrefused o) : ∃ t, o = .next t := by
  cases o with
  | next t => exact ⟨t, rfl⟩
  | fault f => exact absurd rfl (hf f)
  | refused r => exact absurd rfl (hu r)

/-- The commands `ws` are admitted: descriptors of commands, none on a suspended transmit direction (R181, U1, U6). -/
def State.Admits (s : State) (ws : List (BitVec 80)) : Prop :=
  ∀ w ∈ ws, ∃ i, decodeCmd s.nch w = .ok i ∧ (targetsTransmit i = true → (s.chan i.ch).txWait = false)

/-- What the consumer issues at the next notification is admitted. -/
def State.ConsumerReady (s : State) : Prop := s.Admits (s.consumer.headD [])

section Outcomes

variable {s : State} {c : Nat}

theorem Unrefused.next {t : State} : Unrefused (.next t) := fun _ h => by cases h

/-- What is carried out is not refused. -/
theorem Unrefused.of_next {o : Result} {t : State} (h : o = .next t) : Unrefused o := h ▸ .next

theorem Unrefused.fault {f : Fault} : Unrefused (.fault f) := fun _ h => by cases h

/-- A sequence is refused through its first part, or through its second part after a next state. -/
theorem Unrefused.andThen {o : Result} {f : State → Result} (ho : Unrefused o)
    (hf : ∀ u, o = .next u → Unrefused (f u)) : Unrefused (andThen o f) := by
  cases o with
  | next u => exact hf u rfl
  | fault r => exact .fault
  | refused r => exact absurd rfl (ho r)

/-- A host command is enabled on the main line, whatever its effect (R178). -/
theorem Unrefused.hostCommand {f : State → State × Status} (hc : c < s.nch) (he : s.hostEnabled = true) :
    Unrefused (hostCommand c f s) := by
  rw [hostCommand_eq c f s hc he]
  exact .next

/-- The handler of a dispatchable vector is refused only in its body (R173, R175). -/
theorem Unrefused.dispatched {k : Vec} {body : State → Result} (hc : c < s.nch) (hd : s.dispatchable c k = true)
    (hb : Unrefused (body (s.enter c k))) :
    Unrefused (dispatchVector c k (fun s' => Machine.andThen (body s') fun t => .next t.leave) s) := by
  rw [dispatchVector_eq c k _ s hc hd]
  exact hb.andThen fun _ _ => .next

end Outcomes

/-! The consumer's turn. -/

section ConsumersTurn

variable {s t : State} {c : Nat}

/-- Admission depends on the number of channels and on who waits. -/
theorem State.Admits.congr {ws : List (BitVec 80)} (h : s.Admits ws) (hn : t.nch = s.nch)
    (hw : ∀ d, (t.chan d).txWait = (s.chan d).txWait) : t.Admits ws := by
  unfold State.Admits
  simp only [hn, hw]
  exact h

theorem State.ConsumerReady.congr (h : s.ConsumerReady) (hq : t.consumer = s.consumer) (hn : t.nch = s.nch)
    (hw : ∀ d, (t.chan d).txWait = (s.chan d).txWait) : t.ConsumerReady := by
  rw [State.ConsumerReady, hq]
  exact State.Admits.congr h hn hw

/-- An update of one channel that writes no wait. -/
theorem State.ConsumerReady.modChan {f : Chan → Chan} (h : s.ConsumerReady)
    (hf : (f (s.chan c)).txWait = (s.chan c).txWait) : (s.modChan c f).ConsumerReady := by
  by_cases hc : c < s.nch
  · refine h.congr rfl (State.nch_modChan s c f) fun d => ?_
    rw [State.chan_modChan s c d f hc]
    split
    · next hd => rw [hf, hd]
    · rfl
  · rwa [State.modChan_of_nch_le f (Nat.not_lt.1 hc)]

theorem State.ConsumerReady.enter (h : s.ConsumerReady) (hc : c < s.nch) (k : Vec) : (s.enter c k).ConsumerReady :=
  h.congr rfl (State.nch_enter s c k) (State.txWait_enter hc k)

/-- Units that moved to memory `m` under an update of their channel (R144, R146). -/
theorem State.ConsumerReady.moved {f : Chan → Chan} (h : s.ConsumerReady) (m : Memory)
    (hf : (f (s.chan c)).txWait = (s.chan c).txWait) : ((s.modChan c f).withMem m).ConsumerReady :=
  (h.modChan hf).congr rfl (State.nch_withMem _ m) fun _ => rfl

/-- Popping a unit writes no wait (R103). -/
theorem State.ConsumerReady.rxPop (h : s.ConsumerReady) (c : Nat) : (s.rxPop c).2.ConsumerReady := by
  unfold State.rxPop
  split
  · exact h.modChan rfl
  · exact h

/-- Every descriptor's command has an effect, whoever issues it (R70 to R90). -/
theorem commandEffect_of_isCommand {i : Instr} (hi : i.isCommand = true) (s : State) : ∃ r, commandEffect i s = some r := by
  cases i with
  | initOpen _ | initClose _ | initInvalid _ _ | setBaud _ _ | tx _ _ _ | rx _ _ _ | abortTx _ | abortRx _ | abortTxRx _ =>
    exact ⟨_, rfl⟩
  | irqTx _ | irqRx _ | irqProto _ | txDone _ | envTxShift _ | envRxArrive _ _ | envRxArriveAlt _ _ | envPFlag _ _ => cases hi

/-- An admitted command is carried out (R181). -/
theorem nestedCommand_unrefused {w : BitVec 80} {i : Instr} (hd : decodeCmd s.nch w = .ok i)
    (hw : targetsTransmit i = true → (s.chan i.ch).txWait = false) : Unrefused (nestedCommand w s) := by
  obtain ⟨r, hr⟩ := commandEffect_of_isCommand (decodeCmd_isCommand hd) s
  have hfree : ¬(targetsTransmit i && (s.chan i.ch).txWait) = true := by simpa using hw
  simp only [nestedCommand, hd, hr, if_neg hfree]
  exact .next

/-- So are admitted commands in order: none changes who waits. -/
theorem nestedCommands_unrefused {ws : List (BitVec 80)} (h : s.Admits ws) : Unrefused (nestedCommands ws s) := by
  induction ws generalizing s with
  | nil => exact .next
  | cons w ws ih =>
    obtain ⟨i, hd, hw⟩ := h w List.mem_cons_self
    have hrest : s.Admits ws := fun v hv => h v (List.mem_cons_of_mem w hv)
    exact (nestedCommand_unrefused hd hw).andThen fun u hu =>
      ih (hrest.congr (nestedCommand_result w s u hu).nch fun d => (nestedCommand_run hu d).frame.2)

theorem callback_unrefused (h : s.ConsumerReady) (r : CbRec) : Unrefused (callback r s) :=
  nestedCommands_unrefused (State.Admits.congr h (State.nch_notify s r) fun _ => rfl)

end ConsumersTurn

/-! The operations. -/

section Operations

variable {s : State} {c : Nat}

/-- The protocol scan (R157, R158). -/
theorem protoScan_unrefused (h : s.ConsumerReady) (c : Nat) : Unrefused (protoScan c s) := by
  unfold protoScan
  split
  · exact .next
  · exact callback_unrefused (h.modChan rfl) _

/-- The unsolicited paths (R141, R142). -/
theorem unsolicited_unrefused (h : s.ConsumerReady) (c : Nat) : Unrefused (unsolicited c s) := by
  have hforward : Unrefused (forwardUnit c (s.rxPop c).1 (s.rxPop c).2) :=
    callback_unrefused (s := (s.rxPop c).2.drawn) (h.rxPop c) _
  unfold unsolicited unsolicitedFifo
  split
  · split
    · exact .next
    · exact hforward
  · exact hforward

/-- The mixed path does nothing or is unsolicited (R143). -/
theorem mixedReceive_unrefused (h : s.ConsumerReady) (c : Nat) : Unrefused (mixedReceive c s) := by
  unfold mixedReceive
  split
  · exact .next
  · exact unsolicited_unrefused h c

theorem completeRx_unrefused (h : s.ConsumerReady) (c : Nat) : Unrefused (completeRx c s) :=
  (callback_unrefused h _).andThen fun _ _ => .next

theorem completeTx_unrefused (h : s.ConsumerReady) (c : Nat) : Unrefused (completeTx c s) :=
  (callback_unrefused (h.modChan rfl) _).andThen fun _ _ => .next

/-- The FIFO path of a receive in flight (R144). -/
theorem solicitedFifo_unrefused (h : s.ConsumerReady) (c : Nat) : Unrefused (solicitedFifo c s) := by
  unfold solicitedFifo
  split
  · exact .fault
  · next q tcb m _ =>
    have hmoved : ((s.modChan c fun ch => { ch with rxq := q, rx := tcb }).withMem m).ConsumerReady := h.moved m rfl
    dsimp only
    split
    · exact .next
    · split
      · exact completeRx_unrefused hmoved c
      · exact .fault

/-- The byte path of a receive in flight (R146). -/
theorem solicitedByte_unrefused (h : s.ConsumerReady) (c : Nat) : Unrefused (solicitedByte c s) := by
  unfold solicitedByte
  dsimp only
  split
  · exact .fault
  · next m _ =>
    have hmoved : (((s.rxPop c).2.modChan c fun ch => { ch with rx := ch.rx.advance }).withMem m).ConsumerReady :=
      (h.rxPop c).moved m rfl
    split
    · exact completeRx_unrefused hmoved c
    · exact .next

/-- The receive handler's body (R140). -/
theorem rxHandler_unrefused (h : s.ConsumerReady) (c : Nat) : Unrefused (rxHandler c s) := by
  unfold rxHandler
  dsimp only
  split
  · split
    · exact solicitedFifo_unrefused h c
    · exact solicitedByte_unrefused h c
  · split
    · exact unsolicited_unrefused h c
    · exact mixedReceive_unrefused h c

/-- The transmit handler's body (R130 to R134). -/
theorem txHandler_unrefused (h : s.ConsumerReady) (c : Nat) : Unrefused (txHandler c s) := by
  unfold txHandler
  dsimp only
  split
  · exact .next
  · split
    · split
      · exact .fault
      · exact .next
    · split
      · exact (completeTx_unrefused h c).andThen fun _ _ => .next
      · exact .next

/-- IRQ.TX (R130). -/
theorem execIrqTx_unrefused (hc : c < s.nch) (hd : s.dispatchable c .tx = true) (h : s.ConsumerReady) :
    Unrefused (execIrqTx c s) := by
  rw [execIrqTx, dispatchVector_eq c .tx _ s hc hd]
  exact txHandler_unrefused (h.enter hc .tx) c

/-- IRQ.PROTO (R155). -/
theorem execIrqProto_unrefused (hc : c < s.nch) (he : (s.par.protoMon && s.dispatchable c .pr) = true)
    (h : s.ConsumerReady) : Unrefused (execIrqProto c s) := by
  obtain ⟨hmon, hd⟩ := Bool.and_eq_true_iff.1 he
  rw [execIrqProto, if_pos hmon]
  exact .dispatched hc hd (protoScan_unrefused (h.enter hc .pr) c)

/-- TXDONE: the wait of the finishing handler is over before the consumer's turn (R134). -/
theorem execTxDone_unrefused (hc : c < s.nch) (he : s.txDoneEnabled c = true) (h : s.consumerAdmitted (some c)) :
    Unrefused (execTxDone c s) := by
  have hready : (s.modChan c fun ch => { ch with txWait := false }).ConsumerReady := by
    intro w hw
    obtain ⟨i, hd, hfree⟩ := h w hw
    refine ⟨i, by rwa [State.nch_modChan], fun ht => ?_⟩
    rw [State.chan_modChan s c i.ch _ hc]
    split
    · rfl
    · next hne => exact (hfree ht).resolve_left fun hf => hne (Option.some.inj hf)
  rw [execTxDone, if_neg (Nat.not_le.2 hc), if_pos he]
  exact (completeTx_unrefused hready c).andThen fun _ _ => .next

/-- An operation without a finishing handler finds the consumer ready (U6). -/
theorem State.consumerAdmitted.ready (h : s.consumerAdmitted none) : s.ConsumerReady := by
  intro w hw
  obtain ⟨i, hd, hfree⟩ := h w hw
  exact ⟨i, hd, fun ht => (hfree ht).resolve_left nofun⟩

/-- A well-formed operation that is enabled is not refused, whatever an admitted consumer issues. -/
theorem exec_unrefused {i : Instr} (hwf : i.wf s.nch = true) (he : s.enabled i = true)
    (h : s.consumerAdmitted (finishingHandler i)) : Unrefused (exec i s) := by
  have hc : i.ch < s.nch := Instr.ch_lt_of_wf hwf
  cases i with
  | initOpen _ | initClose _ | initInvalid _ _ | setBaud _ _ | abortTx _ | abortRx _ | abortTxRx _ => exact .hostCommand hc he
  | tx c a b =>
    rw [exec, execTx, boundedRequest_of_fits (Bool.and_eq_true_iff.1 hwf).2]
    exact .hostCommand hc he
  | rx c a b =>
    rw [exec, execRx, boundedRequest_of_fits (Bool.and_eq_true_iff.1 hwf).2]
    exact .hostCommand hc he
  | irqTx c => exact execIrqTx_unrefused hc he h.ready
  | irqRx c => exact .dispatched hc he (rxHandler_unrefused (h.ready.enter hc .rx) c)
  | irqProto c => exact execIrqProto_unrefused hc he h.ready
  | txDone c => exact execTxDone_unrefused hc he h
  | envTxShift c => exact .of_next (exec_envTxShift hc he)
  | envRxArrive c u => exact .of_next (exec_envRxArrive hc he)
  | envRxArriveAlt c u => exact .of_next (exec_envRxArriveAlt hc he)
  | envPFlag c n => exact .of_next (exec_envPFlag hc (of_decide_eq_true (Bool.and_eq_true_iff.1 hwf).2) he)

end Operations

end Sys2Proof.Machine

namespace Sys2Proof.Proofs

open Sys2Proof.Machine

/-- Settles O56: under the invariant no operation faults, and an enabled one is refused only where the consumer issues what is
not admitted. -/
theorem enabledStepIsCarriedOut : Obligations.EnabledStepIsCarriedOut := by
  intro s i hinv hwf hen hadmitted
  exact (hinv.exec_faultless i).carriedOut (exec_unrefused hwf hen hadmitted)

end Sys2Proof.Proofs

namespace Sys2Proof.Machine

/-! The two queues (R122, R184). The step of an operation has two parts: what the operation itself moves, up to the record it
logs, and what the host commands carried out in that step do after it. Each part is described once, for every channel; both
statements about whole steps read it off. -/

/-- The sending side holds and has sent the same units. -/
structure Chan.SameSent (ch ch' : Chan) : Prop where
  txq : ch'.txq = ch.txq
  txLine : ch'.txLine = ch.txLine
  idx : ch'.tx.idx = ch.tx.idx

/-- So does the receiving side. -/
structure Chan.SameUnits (ch ch' : Chan) : Prop extends Chan.SameSent ch ch' where
  rxq : ch'.rxq = ch.rxq

/-- Of the channels, the memory and the callback port, at most registers of channel `c` beside its queues changed. -/
structure State.SameUnits (c : Nat) (s t : State) : Prop where
  others : ∀ d, d ≠ c → t.chan d = s.chan d
  own : (s.chan c).SameUnits (t.chan c)
  mem : t.mem = s.mem
  cbLog : t.cbLog = s.cbLog

/-- No settings changed, and the consumer has not been notified. -/
structure State.Unreported (s u : State) : Prop extends State.SettingsKept s u where
  cbLog : u.cbLog = s.cbLog
  consumer : u.consumer = s.consumer

/-- The state with the record of a notification, if there is one (R180). -/
def State.reported (s : State) : Option CbRec → State
  | none => s
  | some r => s.notify r

/-- R117, R131, R132: what operation `i` itself does to the units channel `d` sends: some leave at the head for the line, and
`n` bytes of the buffer are pushed at the tail. -/
def Sends (i : Instr) (d : Nat) (s u : State) : Prop :=
  ∃ (left : List Byte) (n : Nat),
    left ++ (u.chan d).txq = (s.chan d).txq ++ s.mem.bytes (s.chan d).tx.address n ∧
    (u.chan d).txLine = (s.chan d).txLine ++ left ∧
    (u.chan d).tx.idx = (s.chan d).tx.idx + BitVec.ofNat 32 n ∧
    (left ≠ [] → i = .envTxShift d ∧ left.length = 1) ∧ (n ≠ 0 → i = .irqTx d)

/-- R118, R120, R141 to R146: what operation `i` itself does to the units channel `d` receives: some are taken at the head and
delivered, and one may arrive at the tail, or meet an occupied buffer (U4). -/
def Receives (i : Instr) (d : Nat) (s u : State) : Prop :=
  ∃ taken arrived : List Byte,
    (taken ++ (u.chan d).rxq = (s.chan d).rxq ++ arrived ∨
      (s.chan d).par.rxCap = 0 ∧ (s.chan d).rxq ≠ [] ∧ taken = [] ∧ arrived ≠ [] ∧
        ((u.chan d).rxq = (s.chan d).rxq ∨ (u.chan d).rxq = arrived)) ∧
    (taken ≠ [] → i = .irqRx d ∧ UnitsDelivered taken d s u) ∧
    (arrived ≠ [] → ∃ x, arrived = [x] ∧ UnitReaches x d i s)

/-- What operation `i` itself makes of `s`: a channel it neither names nor is wired to is as it was. -/
structure UnitsMove (i : Instr) (s u : State) : Prop where
  others : ∀ d, i.ch ≠ d → (i = .envTxShift i.ch → (s.chan i.ch).par.loopTo ≠ some d) → u.chan d = s.chan d
  sends : ∀ d, Sends i d s u
  receives : Memory.wf s.mem → ∀ d, Receives i d s u

/-- What the host commands carried out in the step of `i` from `s` may do to `u`, up to `t`: no memory and no record, nothing
to a channel none of them names, and units are only discarded (R181, R184). -/
structure CommandsAfter (i : Instr) (s u t : State) : Prop where
  mem : t.mem = u.mem
  cbLog : t.cbLog = u.cbLog
  others : ∀ d, i.ch ≠ d → (∀ w ∈ s.consumer.headD [], ∀ j, decodeCmd s.nch w = .ok j → j.ch ≠ d) → t.chan d = u.chan d
  silent : i.isCommand = false → s.consumerSilent → ∀ d, (u.chan d).SameSent (t.chan d)
  txLine : ∀ d, (t.chan d).txLine = (u.chan d).txLine
  txq : ∀ d, (t.chan d).txq = (u.chan d).txq ∨
    (t.chan d).txq <:+ (u.chan d).txq ∧ ∃ j, CarriedOut j i s t ∧ DiscardsQueued j d s
  rxq : ∀ d, (t.chan d).rxq = (u.chan d).rxq ∨
    (t.chan d).rxq = [] ∧ ∃ j, CarriedOut j i s t ∧ DiscardsReceived j d s

/-- The step of `i` in its two parts. -/
def Operates (i : Instr) (s t : State) : Prop := ∃ u, UnitsMove i s u ∧ CommandsAfter i s u t

/-- A handler on channel `c` that has done its moves in `u` ends: at once, or after a notification and the consumer's turn. -/
inductive Ends (c : Nat) (u : State) : Option CbRec → State → Prop where
  | quietly {t : State} (h : State.SameUnits c u t) : Ends c u none t
  | reporting {r : CbRec} {v t : State} (hx : callback r u = .next v) (h : State.SameUnits c v t) : Ends c u (some r) t

section Bookkeeping

variable {s t u : State} {c : Nat}

theorem Chan.SameSent.refl (ch : Chan) : ch.SameSent ch := ⟨rfl, rfl, rfl⟩

theorem Chan.SameUnits.refl (ch : Chan) : ch.SameUnits ch := ⟨.refl ch, rfl⟩

theorem Chan.SameUnits.trans {ch ch' ch'' : Chan} (h : ch.SameUnits ch') (h' : ch'.SameUnits ch'') : ch.SameUnits ch'' :=
  ⟨⟨h'.txq.trans h.txq, h'.txLine.trans h.txLine, h'.idx.trans h.idx⟩, h'.rxq.trans h.rxq⟩

/-- A vector's registers are beside the queues. -/
theorem Chan.SameUnits.modVec (ch : Chan) (k : Vec) (f : VecRegs → VecRegs) : ch.SameUnits (ch.modVec k f) :=
  ⟨⟨Chan.txq_modVec .., Chan.txLine_modVec .., congrArg Tcb.idx (Chan.tx_modVec ..)⟩, Chan.rxq_modVec ..⟩

theorem State.SameUnits.of_chans (hc : t.chans = s.chans) (hm : t.mem = s.mem) (hl : t.cbLog = s.cbLog) :
    State.SameUnits c s t := by
  have hch : ∀ d, t.chan d = s.chan d := fun d => by simp only [State.chan, hc]
  exact ⟨fun d _ => hch d, hch c ▸ .refl _, hm, hl⟩

theorem State.SameUnits.trans (h : State.SameUnits c s t) (h' : State.SameUnits c t u) : State.SameUnits c s u :=
  ⟨fun d hd => (h'.others d hd).trans (h.others d hd), h.own.trans h'.own, h'.mem.trans h.mem, h'.cbLog.trans h.cbLog⟩

/-- An update of channel `c` beside its queues. -/
theorem State.SameUnits.of_modChan {f : Chan → Chan} (hf : (s.chan c).SameUnits (f (s.chan c))) :
    State.SameUnits c s (s.modChan c f) := by
  by_cases hc : c < s.nch
  · exact ⟨fun d hd => State.chan_modChan_ne s c d f hd, (State.chan_modChan_same s c f hc).symm ▸ hf, rfl, rfl⟩
  · rw [State.modChan_of_nch_le f (Nat.not_lt.1 hc)]
    exact .of_chans rfl rfl rfl

/-- Entry of a handler (R175). -/
theorem State.SameUnits.enter (s : State) (c : Nat) (k : Vec) : State.SameUnits c s (s.enter c k) :=
  .trans (t := s.modChan c fun ch => ch.unpend k) (.of_modChan (.modVec _ k _)) (.of_chans rfl rfl rfl)

theorem State.SameUnits.units (h : State.SameUnits c s t) (d : Nat) : (s.chan d).SameUnits (t.chan d) := by
  by_cases hd : d = c
  · exact hd ▸ h.own
  · exact h.others d hd ▸ .refl _

theorem State.Unreported.trans (h : s.Unreported t) (h' : t.Unreported u) : s.Unreported u :=
  ⟨h.toSettingsKept.trans h'.toSettingsKept, h'.cbLog.trans h.cbLog, h'.consumer.trans h.consumer⟩

theorem State.Unreported.refl (s : State) : s.Unreported s := ⟨.of_chans rfl rfl, rfl, rfl⟩

theorem State.Unreported.of_modChan {f : Chan → Chan} (hf : (s.chan c).SettingsKept s.par (f (s.chan c))) :
    s.Unreported (s.modChan c f) :=
  ⟨.of_modChan hf, rfl, rfl⟩

theorem State.Unreported.enter {k : Vec} (hk : k = .pr → s.par.protoMon = true) : s.Unreported (s.enter c k) :=
  ⟨.enter hk, rfl, rfl⟩

@[simp] theorem State.chan_reported (s : State) (o : Option CbRec) (d : Nat) : (s.reported o).chan d = s.chan d := by
  cases o <;> rfl

@[simp] theorem State.mem_reported (s : State) (o : Option CbRec) : (s.reported o).mem = s.mem := by cases o <;> rfl

end Bookkeeping

/-! What the operation itself moves. -/

section Moves

variable {i : Instr} {s t u : State} {c d : Nat}

theorem Sends.of_same (h : (s.chan d).SameSent (u.chan d)) : Sends i d s u :=
  ⟨[], 0, by simp [h.txq], by simp [h.txLine], by simp [h.idx], by simp, by simp⟩

/-- Nothing more happens on the sending side. -/
theorem Sends.trans_same (h : Sends i d s t) (h' : (t.chan d).SameSent (u.chan d)) : Sends i d s u := by
  unfold Sends
  rw [h'.txq, h'.txLine, h'.idx]
  exact h

theorem Receives.of_same (h : (u.chan d).rxq = (s.chan d).rxq) : Receives i d s u :=
  ⟨[], [], .inl (by simp [h]), by simp, by simp⟩

/-- An operation that touches only its own channel. -/
theorem UnitsMove.of_own (ho : ∀ d, d ≠ i.ch → u.chan d = s.chan d) (hs : Sends i i.ch s u)
    (hr : Memory.wf s.mem → Receives i i.ch s u) : UnitsMove i s u := by
  refine ⟨fun d hd _ => ho d (Ne.symm hd), fun d => ?_, fun hm d => ?_⟩
  · by_cases hd : d = i.ch
    · exact hd ▸ hs
    · exact .of_same (ho d hd ▸ .refl _)
  · by_cases hd : d = i.ch
    · exact hd ▸ hr hm
    · exact .of_same (by rw [ho d hd])

/-- Bookkeeping moves no unit, and neither does a record. -/
theorem UnitsMove.of_sameUnits (h : State.SameUnits i.ch s u) (o : Option CbRec) : UnitsMove i s (u.reported o) :=
  .of_own (fun d hd => (u.chan_reported o d).trans (h.others d hd))
    (.of_same (by rw [State.chan_reported]; exact h.own.toSameSent))
    fun _ => .of_same (by rw [State.chan_reported]; exact h.own.rxq)

end Moves

/-! What commands do after it. -/

section Commands

variable {i : Instr} {s t u v : State} {c d : Nat} {o : Option CbRec}

/-- No command at all. -/
theorem CommandsAfter.of_sameUnits (h : State.SameUnits i.ch u t) : CommandsAfter i s u t where
  mem := h.mem
  cbLog := h.cbLog
  others d hd _ := h.others d (Ne.symm hd)
  silent _ _ d := (h.units d).toSameSent
  txLine d := (h.units d).txLine
  txq d := .inl (h.units d).txq
  rxq d := .inl (h.units d).rxq

/-- A host command, carried out as the step itself (R178). -/
theorem CommandsAfter.of_command (hi : i.isCommand = true) (h : OnMainLine i s t) : CommandsAfter i s s t := by
  obtain ⟨r, hr, hc, -, -, rfl⟩ := h
  obtain ⟨n, f, hf, -, hline, htxq, hrxq⟩ := commandEffect_result i s r hr
  have hothers : ∀ d, d ≠ i.ch → (r.1.reply .mainLine r.2).chan d = s.chan d := fun d hd => by
    rw [State.chan_reply, hf, State.chan_modChan_ne _ _ _ _ hd]
    rfl
  have hown : (r.1.reply .mainLine r.2).chan i.ch = f (s.chan i.ch) := by
    rw [State.chan_reply, hf]
    exact State.chan_modChan_same { s with draws := n } i.ch f hc
  refine ⟨by rw [State.mem_reply, hf]; rfl, by rw [State.cbLog_reply, hf]; rfl, fun d hd _ => hothers d (Ne.symm hd),
    fun hn => absurd hi (by simp [hn]), fun d => ?_, fun d => ?_, fun d => ?_⟩
  · rcases eq_or_ne d i.ch with rfl | hd
    · rw [hown, hline]
    · rw [hothers d hd]
  · rcases eq_or_ne d i.ch with rfl | hd
    · rw [hown]
      exact htxq.imp_right fun ⟨hq, hdis⟩ => ⟨hq, i, .inl rfl, hdis⟩
    · exact .inl (by rw [hothers d hd])
  · rcases eq_or_ne d i.ch with rfl | hd
    · rw [hown]
      exact hrxq.imp_right fun ⟨hq, hdis⟩ => ⟨hq, i, .inl rfl, hdis⟩
    · exact .inl (by rw [hothers d hd])

/-- Nested commands leave a channel none of them names (R181, R184). -/
theorem nestedCommands_chan_ne {ws : List (BitVec 80)} (hne : ∀ w ∈ ws, ∀ j, decodeCmd s.nch w = .ok j → j.ch ≠ d)
    (h : nestedCommands ws s = .next t) : t.chan d = s.chan d := by
  induction ws generalizing s with
  | nil => cases h; rfl
  | cons w ws ih =>
    obtain ⟨u, hu, ht⟩ := (andThen_next _ _ _).1 h
    have hn := (nestedCommand_result w s u hu).nch
    obtain ⟨j, r, hd, -, hr, rfl⟩ := nestedCommand_next _ _ _ hu
    obtain ⟨n, f, hf, -⟩ := commandEffect_result _ _ _ hr
    rw [ih (fun v hv k hk => hne v (List.mem_cons_of_mem w hv) k (hn ▸ hk)) ht, State.chan_reply, hf,
      State.chan_modChan_ne _ _ _ _ (hne w List.mem_cons_self j hd).symm]
    rfl

/-- The consumer's commands after a record (R180, R181). -/
theorem CommandsAfter.of_callback {r : CbRec} (hu : s.Unreported u) (hx : callback r u = .next v)
    (ht : State.SameUnits i.ch v t) : CommandsAfter i s (u.notify r) t := by
  have hres := callback_result r u v hx
  rw [hu.consumer] at hres
  have hlog : t.cbLog = s.cbLog ++ [r] := by rw [ht.cbLog, hres.cbLog, State.cbLog_notify, hu.cbLog]
  have hnch : (u.notify r).nch = s.nch := (State.nch_notify u r).trans hu.nch
  have hpar : ∀ d, ((u.notify r).chan d).par = (s.chan d).par := fun d => (hu.chan d).par
  have hcarried : ∀ w ∈ s.consumer.headD [], ∀ j, decodeCmd (u.notify r).nch w = .ok j → CarriedOut j i s t :=
    fun w hw j hj => .inr ⟨by simp [hlog], w, hw, hnch ▸ hj⟩
  refine ⟨ht.mem.trans hres.mem, ht.cbLog.trans hres.cbLog, fun d hd hne => ?_, fun _ hs d => ?_,
    fun d => (ht.units d).txLine.trans (hres.txLine d), fun d => ?_, fun d => ?_⟩
  · rw [ht.others d (Ne.symm hd)]
    rw [callback, hu.consumer] at hx
    exact nestedCommands_chan_ne (fun w hw j hj => hne w hw j (hnch ▸ hj)) hx
  · rw [callback_silent r u (by rw [hu.consumer]; exact hs)] at hx
    cases hx
    exact (ht.units d).toSameSent
  · rw [(ht.units d).txq]
    refine (hres.txq d).imp_right fun ⟨hq, w, hw, j, hj, hdis⟩ => ⟨hq, j, hcarried w hw j hj, ?_⟩
    rwa [DiscardsQueued, hpar d] at hdis
  · rw [(ht.units d).rxq]
    refine (hres.rxq d).imp_right fun ⟨hq, w, hw, j, hj, hdis⟩ => ⟨hq, j, hcarried w hw j hj, ?_⟩
    rwa [DiscardsReceived, hpar d] at hdis

theorem Ends.commandsAfter (h : Ends i.ch u o t) (hu : s.Unreported u) : CommandsAfter i s (u.reported o) t := by
  cases h with
  | quietly h => exact .of_sameUnits h
  | reporting hx h => exact .of_callback hu hx h

/-- Whatever a handler ends with is followed by its return (R176). -/
theorem Ends.leave (h : Ends c u o t) : Ends c u o t.leave := by
  cases h with
  | quietly h => exact .quietly (h.trans (.of_chans rfl rfl rfl))
  | reporting hx h => exact .reporting hx (h.trans (.of_chans rfl rfl rfl))

/-- A handler that moves no unit itself. -/
theorem Ends.operates (h : Ends i.ch u o t) (hu : s.Unreported u) (hs : State.SameUnits i.ch s u) : Operates i s t :=
  ⟨_, .of_sameUnits hs o, h.commandsAfter hu⟩

/-- A step in which nothing is reported and no command is carried out. -/
theorem UnitsMove.operates (h : UnitsMove i s t) : Operates i s t := ⟨t, h, .of_sameUnits (.of_chans rfl rfl rfl)⟩

end Commands

/-! The transmit and the protocol handler. -/

section TransmitMoves

variable {i : Instr} {s t u : State} {c : Nat} {ch ch' : Chan} {m : Memory}

/-- The FIFO fill pushes some number of bytes of the buffer, in order, and the index counts them (R131). -/
theorem fillFifo_pushes {k : Nat} (h : ch.fillFifo m k = .ok ch') : ∃ n, ch' = { ch with
    txq := ch.txq ++ m.bytes ch.tx.address n
    tx := { ch.tx with idx := ch.tx.idx + BitVec.ofNat 32 n } } := by
  induction k generalizing ch with
  | zero => cases h; exact ⟨0, by simp⟩
  | succ k ih =>
    simp only [Chan.fillFifo] at h
    split at h
    · next hc =>
      have hlt : ch.tx.idx < ch.tx.len := of_decide_eq_true (Bool.and_eq_true_iff.1 hc).2
      split at h
      · cases h
      · next ch1 hone =>
        obtain ⟨-, -, rfl⟩ := fillOne_ok _ _ _ hone
        obtain ⟨n, rfl⟩ := ih h
        refine ⟨n + 1, ?_⟩
        rw [Memory.bytes_succ, ← Tcb.advance_add, ← ch.tx.advance_address hlt]
        simp [Tcb.advance]
    · cases h; exact ⟨0, by simp⟩

/-- So does the fill phase of either mode (R131, R132). -/
theorem fill_pushes (h : ch.fill m = .ok ch') : ∃ n, ch' = { ch with
    txq := ch.txq ++ m.bytes ch.tx.address n
    tx := { ch.tx with idx := ch.tx.idx + BitVec.ofNat 32 n } } := by
  unfold Chan.fill at h
  split at h
  · exact fillFifo_pushes h
  · obtain ⟨-, -, rfl⟩ := fillOne_ok _ _ _ h
    exact ⟨1, by simp [Memory.bytes, Tcb.advance]⟩

/-- The fill of a dispatched transmit handler that returns (R131, R132). -/
theorem UnitsMove.of_fill (hc : c < s.nch) (h : ((s.enter c .tx).chan c).fill s.mem = .ok ch') :
    UnitsMove (.irqTx c) s (((s.enter c .tx).modChan c fun _ => ch').leave) := by
  rw [State.chan_enter_same s c .tx hc] at h
  obtain ⟨n, rfl⟩ := fill_pushes h
  rw [State.leave_modChan_enter]
  refine .of_own (fun d hd => State.chan_modChan_ne s c d _ hd) ?_ fun _ => .of_same ?_
  · rw [Instr.ch, Sends, State.chan_modChan_same s c _ hc]
    exact ⟨[], n, rfl, (List.append_nil _).symm, rfl, by simp, fun _ => rfl⟩
  · rw [Instr.ch, State.chan_modChan_same s c _ hc]
    rfl

/-- Completion of a transmit moves no unit (R134). -/
theorem completeTx_operates (hu : s.Unreported u) (hs : State.SameUnits i.ch s u) (h : completeTx i.ch u = .next t) :
    Operates i s t.leave := by
  obtain ⟨v, hv, ht⟩ := (andThen_next _ _ _).1 h
  cases ht
  have hend : Ends i.ch (u.modChan i.ch fun ch => ch.evDisable ch.txEvm) (some _) (v.modChan i.ch Chan.clearTx) :=
    .reporting hv (.of_modChan ⟨⟨rfl, rfl, rfl⟩, rfl⟩)
  exact hend.leave.operates (hu.trans (.of_modChan (.of_eq rfl rfl rfl))) (hs.trans (.of_modChan ⟨⟨rfl, rfl, rfl⟩, rfl⟩))

/-- IRQ.TX (R130 to R134). -/
theorem execIrqTx_operates (h : execIrqTx c s = .next t) : Operates (.irqTx c) s t := by
  obtain ⟨hc, -, hrun⟩ := dispatchVector_next _ _ _ _ _ h
  have hentered : s.Unreported (s.enter c .tx) := .enter nofun
  have hsame := State.SameUnits.enter s c .tx
  obtain ⟨-, rfl⟩ | ⟨-, ⟨-, ch', hfill, rfl⟩ | ⟨-, ⟨-, v, hv, rfl⟩ | ⟨-, rfl⟩⟩⟩ := txHandler_next hrun
  · have hend : Ends c (s.enter c .tx) none (s.enter c .tx).leave := .quietly (.of_chans rfl rfl rfl)
    exact hend.operates (i := .irqTx c) hentered hsame
  · exact (UnitsMove.of_fill hc hfill).operates
  · exact completeTx_operates (i := .irqTx c) hentered hsame hv
  · exact (Ends.quietly (.of_modChan ⟨⟨rfl, rfl, rfl⟩, rfl⟩)).operates (i := .irqTx c) hentered hsame

/-- TXDONE (R134). -/
theorem execTxDone_operates (h : execTxDone c s = .next t) : Operates (.txDone c) s t := by
  unfold execTxDone at h
  split at h
  · cases h
  · split at h
    · obtain ⟨v, hv, ht⟩ := (andThen_next _ _ _).1 h
      cases ht
      exact completeTx_operates (i := .txDone c) (.of_modChan (.of_eq rfl rfl rfl)) (.of_modChan ⟨⟨rfl, rfl, rfl⟩, rfl⟩) hv
    · cases h

/-- The protocol scan clears one flag and reports it, or does nothing (R157, R158). -/
theorem protoScan_ends (h : protoScan c s = .next t) : ∃ u o, s.Unreported u ∧ State.SameUnits c s u ∧ Ends c u o t := by
  unfold protoScan at h
  split at h
  · cases h
    exact ⟨s, none, .refl s, .of_chans rfl rfl rfl, .quietly (.of_chans rfl rfl rfl)⟩
  · exact ⟨_, some _, .of_modChan (.of_eq rfl rfl rfl), .of_modChan ⟨⟨rfl, rfl, rfl⟩, rfl⟩,
      .reporting h (.of_chans rfl rfl rfl)⟩

/-- IRQ.PROTO (R155). -/
theorem execIrqProto_operates (h : execIrqProto c s = .next t) : Operates (.irqProto c) s t := by
  unfold execIrqProto at h
  split at h
  · next hmon =>
    obtain ⟨-, -, hrun⟩ := dispatchVector_next _ _ _ _ _ h
    obtain ⟨v, hv, ht⟩ := (andThen_next _ _ _).1 hrun
    cases ht
    obtain ⟨u, o, hu, hs, hend⟩ := protoScan_ends hv
    exact hend.leave.operates (i := .irqProto c) (.trans (.enter fun _ => hmon) hu) ((State.SameUnits.enter s c .pr).trans hs)
  · cases h

end TransmitMoves

/-! The receive handler. -/

/-- The receive handler on channel `c` takes units from its queue and delivers them, to memory or in the record `o`
(R141, R142, R144, R146). -/
structure Takes (c : Nat) (o : Option CbRec) (s u : State) : Prop extends State.Unreported s u where
  others : ∀ d, d ≠ c → u.chan d = s.chan d
  sent : (s.chan c).SameSent (u.chan c)
  received : Memory.wf s.mem → ∃ taken, taken ++ (u.chan c).rxq = (s.chan c).rxq ∧
    (taken ≠ [] → UnitsDelivered taken c s (u.reported o))

/-- The receive handler's body, from its entry to its end. -/
def Delivers (c : Nat) (s t : State) : Prop := ∃ u o, Takes c o s u ∧ Ends c u o t

section ReceiveMoves

variable {s t u : State} {c : Nat} {o : Option CbRec} {us : List Byte}

/-- Nothing is taken. -/
theorem Delivers.nothing (c : Nat) (s : State) : Delivers c s s :=
  ⟨s, none, ⟨.refl s, fun _ _ => rfl, .refl _, fun _ => ⟨[], rfl, by simp⟩⟩, .quietly (.of_chans rfl rfl rfl)⟩

/-- Delivery in flight: to memory (R144, R146). -/
theorem UnitsDelivered.of_stored (hi : (s.chan c).flags.rxInFlight = true) (h : StoresUnits (s.chan c).rx.address us s u) :
    UnitsDelivered us c s u := by
  rwa [UnitsDelivered, if_pos hi]

/-- Delivery otherwise: one unit in a record (R141, R142). -/
theorem UnitsDelivered.of_forwarded {x : Byte} {p : Word} (hi : ¬(s.chan c).flags.rxInFlight = true)
    (h : u.cbLog = s.cbLog ++ [{ ch := c, event := .charReceived, ptr := p, data := x }]) : UnitsDelivered [x] c s u := by
  rw [UnitsDelivered, if_neg hi]
  exact ⟨x, p, rfl, h⟩

/-- Delivery is about memory and the callback port at the end of the step. -/
theorem UnitsDelivered.congr (h : UnitsDelivered us c s u) (hm : t.mem = u.mem) (hl : t.cbLog = u.cbLog) :
    UnitsDelivered us c s t := by
  unfold UnitsDelivered StoresUnits at *
  rwa [hm, hl]

/-- Entry changes nothing delivery depends on (R175). -/
theorem UnitsDelivered.of_enter (hc : c < s.nch) (h : UnitsDelivered us c (s.enter c .rx) u) : UnitsDelivered us c s u := by
  rw [UnitsDelivered, State.chan_enter_same s c .rx hc] at h
  exact h

@[simp] theorem cbLog_rxPop (s : State) (c : Nat) : (s.rxPop c).2.cbLog = s.cbLog := by
  unfold State.rxPop
  split <;> rfl

@[simp] theorem consumer_rxPop (s : State) (c : Nat) : (s.rxPop c).2.consumer = s.consumer := by
  unfold State.rxPop
  split <;> rfl

theorem State.Unreported.rxPop (s : State) (c : Nat) : s.Unreported (s.rxPop c).2 :=
  ⟨.rxPop s c, cbLog_rxPop s c, consumer_rxPop s c⟩

/-- Units that moved to memory under an update of their channel (R144, R146). -/
theorem State.Unreported.moved {f : Chan → Chan} (m : Memory) (hf : (s.chan c).SettingsKept s.par (f (s.chan c))) :
    s.Unreported ((s.modChan c f).withMem m) :=
  ⟨.moved m hf, rfl, rfl⟩

/-- A pop takes the head unit, or none from an empty queue (R103). -/
theorem rxPop_takes (s : State) (c : Nat) :
    ∃ taken, taken ++ (s.chan c).rxq.tail = (s.chan c).rxq ∧ (taken ≠ [] → taken = [(s.rxPop c).1]) := by
  unfold State.rxPop
  cases (s.chan c).rxq with
  | nil => exact ⟨[], rfl, by simp⟩
  | cons x q => exact ⟨[x], rfl, fun _ => rfl⟩

/-- One unit is forwarded (R141, R142). -/
theorem forwardPopped_delivers (hc : c < s.nch) (hi : ¬(s.chan c).flags.rxInFlight = true)
    (h : forwardUnit c (s.rxPop c).1 (s.rxPop c).2 = .next t) : Delivers c s t := by
  refine ⟨(s.rxPop c).2.drawn, some _, ⟨(State.Unreported.rxPop s c).trans ⟨.of_chans rfl rfl, rfl, rfl⟩,
    fun d hd => rxPop_chan_ne s c d hd, ?_, fun _ => ?_⟩, .reporting h (.of_chans rfl rfl rfl)⟩
  · rw [State.chan_drawn, chan_rxPop s hc]
    exact ⟨rfl, rfl, rfl⟩
  · obtain ⟨taken, hq, hone⟩ := rxPop_takes s c
    refine ⟨taken, by rw [State.chan_drawn, chan_rxPop s hc]; exact hq, fun hne => ?_⟩
    rw [hone hne]
    exact .of_forwarded hi (congrArg (· ++ _) (cbLog_rxPop s c))

/-- The unsolicited paths (R141, R142). -/
theorem unsolicited_delivers (hc : c < s.nch) (hi : ¬(s.chan c).flags.rxInFlight = true) (h : unsolicited c s = .next t) :
    Delivers c s t := by
  unfold unsolicited unsolicitedFifo unsolicitedByte at h
  split at h
  · split at h
    · cases h; exact .nothing c s
    · exact forwardPopped_delivers hc hi h
  · exact forwardPopped_delivers hc hi h

/-- The mixed path (R143). -/
theorem mixedReceive_delivers (hc : c < s.nch) (hi : ¬(s.chan c).flags.rxInFlight = true) (h : mixedReceive c s = .next t) :
    Delivers c s t := by
  unfold mixedReceive at h
  split at h
  · cases h; exact .nothing c s
  · exact unsolicited_delivers hc hi h

/-- Completion of a receive moves no unit (R147). -/
theorem completeRx_ends (h : completeRx c s = .next t) : ∃ r, Ends c s (some r) t := by
  obtain ⟨v, hv, ht⟩ := (andThen_next _ _ _).1 h
  cases ht
  exact ⟨_, .reporting hv (.of_modChan ⟨⟨rfl, rfl, rfl⟩, rfl⟩)⟩

/-- The drain takes what it stores (R144). -/
theorem Takes.of_drain (hc : c < s.nch) (hi : (s.chan c).flags.rxInFlight = true) {q : List Byte} {tcb : Tcb} {m : Memory}
    (hdrain : drain (s.chan c).rxq (s.chan c).rx s.mem = .ok (q, tcb, m)) :
    Takes c o s ((s.modChan c fun ch => { ch with rxq := q, rx := tcb }).withMem m) := by
  refine ⟨.moved m (.of_eq rfl rfl rfl), fun d hd => State.chan_modChan_ne s c d _ hd, ?_, fun hm => ?_⟩
  · rw [State.chan_withMem, State.chan_modChan_same s c _ hc]
    exact ⟨rfl, rfl, rfl⟩
  · obtain ⟨taken, hq, hread, hframe⟩ := drain_units _ _ _ _ _ _ hm hdrain
    refine ⟨taken, by rw [State.chan_withMem, State.chan_modChan_same s c _ hc]; exact hq, fun _ => .of_stored hi ?_⟩
    rw [StoresUnits, State.mem_reported]
    exact ⟨hread, hframe⟩

/-- The FIFO path of a receive in flight: the drain, then a new limit or the completion (R144, R145). -/
theorem solicitedFifo_delivers (hc : c < s.nch) (hi : (s.chan c).flags.rxInFlight = true)
    (h : solicitedFifo c s = .next t) : Delivers c s t := by
  unfold solicitedFifo at h
  split at h
  · cases h
  · next q tcb m hdrain =>
    dsimp only at h
    split at h
    · cases h
      exact ⟨_, none, .of_drain hc hi hdrain, .quietly (.of_modChan ⟨⟨rfl, rfl, rfl⟩, rfl⟩)⟩
    · split at h
      · obtain ⟨r, hend⟩ := completeRx_ends h
        exact ⟨_, some r, .of_drain hc hi hdrain, hend⟩
      · cases h

/-- A stored byte is the only change of memory. -/
theorem StoresUnits.of_write {a : Nat} {x : Byte} (hm : Memory.wf s.mem) (hu : u.mem = s.mem.write a x) :
    StoresUnits a [x] s u := by
  rw [StoresUnits, hu]
  refine ⟨fun k hk => ?_, fun y hy => Memory.read_write_ne _ _ _ _ ?_⟩
  · obtain rfl : k = 0 := by simpa using hk
    exact Memory.read_write_same _ _ _ hm
  · simp only [List.length_singleton] at hy
    omega

/-- The popped unit is the one stored (R146). -/
theorem Takes.of_popped (hc : c < s.nch) (hi : (s.chan c).flags.rxInFlight = true) :
    Takes c o s (((s.rxPop c).2.modChan c fun ch => { ch with rx := ch.rx.advance }).withMem
      (s.mem.write (s.chan c).rx.address (s.rxPop c).1)) := by
  have hcp : c < (s.rxPop c).2.nch := by rwa [nch_rxPop]
  refine ⟨(State.Unreported.rxPop s c).trans (.moved _ (.of_eq rfl rfl rfl)),
    fun d hd => (State.chan_modChan_ne _ c d _ hd).trans (rxPop_chan_ne s c d hd), ?_, fun hm => ?_⟩
  · rw [State.chan_withMem, State.chan_modChan_same _ c _ hcp, chan_rxPop s hc]
    exact ⟨rfl, rfl, rfl⟩
  · obtain ⟨taken, hq, hone⟩ := rxPop_takes s c
    refine ⟨taken, ?_, fun hne => ?_⟩
    · rw [State.chan_withMem, State.chan_modChan_same _ c _ hcp, chan_rxPop s hc]
      exact hq
    · rw [hone hne]
      exact .of_stored hi (.of_write hm (State.mem_reported _ o))

/-- The byte path of a receive in flight: one unit, then perhaps the completion (R146). -/
theorem solicitedByte_delivers (hc : c < s.nch) (hi : (s.chan c).flags.rxInFlight = true)
    (h : solicitedByte c s = .next t) : Delivers c s t := by
  unfold solicitedByte at h
  dsimp only at h
  split at h
  · cases h
  · next m hw =>
    rw [mem_rxPop] at hw
    obtain ⟨-, rfl⟩ := memWrite_ok _ _ _ _ hw
    split at h
    · obtain ⟨r, hend⟩ := completeRx_ends h
      exact ⟨_, some r, .of_popped hc hi, hend⟩
    · cases h
      exact ⟨_, none, .of_popped hc hi, .quietly (.of_chans rfl rfl rfl)⟩

/-- The receive handler's body (R140). -/
theorem rxHandler_delivers (hc : c < s.nch) (h : rxHandler c s = .next t) : Delivers c s t := by
  unfold rxHandler at h
  dsimp only at h
  split at h
  · next hi =>
    split at h
    · exact solicitedFifo_delivers hc hi h
    · exact solicitedByte_delivers hc hi h
  · next hi =>
    split at h
    · exact unsolicited_delivers hc hi h
    · exact mixedReceive_delivers hc hi h

/-- What the handler takes after its entry is what the operation moves (R175). -/
theorem Takes.unitsMove (hc : c < s.nch) (h : Takes c o (s.enter c .rx) u) : UnitsMove (.irqRx c) s (u.reported o) := by
  have hentered := (State.SameUnits.enter s c .rx).own
  refine .of_own (fun d hd => ?_) (.of_same ?_) fun hm => ?_
  · rw [State.chan_reported, h.others d hd, State.chan_enter_ne s c d .rx hd]
  · rw [State.chan_reported]
    exact ⟨h.sent.txq.trans hentered.txq, h.sent.txLine.trans hentered.txLine, h.sent.idx.trans hentered.idx⟩
  · obtain ⟨taken, hq, hdelivered⟩ := h.received hm
    refine ⟨taken, [], .inl ?_, fun hne => ⟨rfl, (hdelivered hne).of_enter hc⟩, by simp⟩
    rw [State.chan_reported, List.append_nil]
    exact hq.trans hentered.rxq

/-- IRQ.RX (R140). -/
theorem execIrqRx_operates (h : execIrqRx c s = .next t) : Operates (.irqRx c) s t := by
  obtain ⟨hc, -, hrun⟩ := dispatchVector_next _ _ _ _ _ h
  obtain ⟨v, hv, ht⟩ := (andThen_next _ _ _).1 hrun
  cases ht
  obtain ⟨u, o, htakes, hend⟩ := rxHandler_delivers (by rwa [State.nch_enter]) hv
  have hquiet : s.Unreported u := .trans (.enter (k := .rx) nofun) htakes.toUnreported
  exact ⟨_, htakes.unitsMove hc, hend.leave.commandsAfter (i := .irqRx c) hquiet⟩

end ReceiveMoves

/-! The environment. -/

section EnvironmentMoves

variable {i : Instr} {s t u : State} {c d : Nat} {x : Byte} {alt : Bool} {ch ch' : Chan}

/-- An arrival appends its unit, or meets an occupied byte-mode buffer (R118, U4); nothing moves on the sending side. -/
theorem Arrives.units (h : Arrives x alt ch ch') : ch.SameSent ch' ∧
    (ch'.rxq = ch.rxq ++ [x] ∨ ch.par.rxCap = 0 ∧ ch.rxq ≠ [] ∧ (ch'.rxq = ch.rxq ∨ ch'.rxq = [x])) := by
  unfold Arrives at h
  split at h
  · next hcap =>
    obtain ⟨keep, hkeep, rfl⟩ := h
    refine ⟨⟨rfl, rfl, rfl⟩, ?_⟩
    by_cases hq : ch.rxq = []
    · exact .inl (by simp [hkeep hq, hq])
    · exact .inr ⟨hcap, hq, by cases keep <;> simp⟩
  · subst h
    exact ⟨⟨rfl, rfl, rfl⟩, .inl rfl⟩

/-- A unit that reaches the receiver of channel `d` and arrives there. -/
theorem Receives.of_arrives (hreach : UnitReaches x d i s) (hq : ch.rxq = (s.chan d).rxq) (hp : ch.par = (s.chan d).par)
    (h : Arrives x alt ch (u.chan d)) : Receives i d s u := by
  have hunits := h.units.2
  rw [hq, hp] at hunits
  exact ⟨[], [x], hunits.imp_right fun ⟨hcap, hne, hrest⟩ => ⟨hcap, hne, rfl, by simp, hrest⟩, by simp,
    fun _ => ⟨x, rfl, hreach⟩⟩

/-- ENV.RXARRIVE and ENV.RXARRIVE.ALT (R118). -/
theorem UnitsMove.of_arrive (hc : i.ch < s.nch) (hreach : UnitReaches x i.ch i s) : UnitsMove i s (s.arrive i.ch x alt) := by
  obtain ⟨-, hothers, harrives⟩ := State.arrive_frame hc x alt
  exact .of_own hothers (.of_same harrives.units.1) fun _ => .of_arrives hreach rfl rfl harrives

/-- A wire's delivery leaves a channel alone, or is an arrival there (R120). -/
theorem State.deliver_chan (s : State) (d : Nat) (x : Byte) (e : Nat) :
    (s.deliver d x).chan e = s.chan e ∨ e = d ∧ Arrives x false (s.chan e) ((s.deliver d x).chan e) := by
  by_cases hd : d < s.nch
  · obtain ⟨-, hothers, hroom, hfull⟩ := State.deliver_frame hd x
    by_cases he : e = d
    · subst he
      by_cases hr : HasRoom (s.chan e)
      · exact .inr ⟨rfl, hroom hr⟩
      · exact .inl (hfull hr)
    · exact .inl (hothers e he)
  · obtain ⟨n, f, hf, -⟩ := s.arrive_eq d x false
    rw [State.modChan_of_nch_le (s := { s with draws := n }) f (Nat.not_lt.1 hd)] at hf
    unfold State.deliver
    split
    · exact .inl (by rw [hf]; rfl)
    · exact .inl rfl

/-- The sender's side of a shift (R117). -/
theorem shiftOut_moves {q : List Byte} (hc : c < s.nch) (hq : (s.chan c).txq = x :: q) (d : Nat) :
    Sends (.envTxShift c) d s (s.modChan c fun ch => ch.shiftOut x) ∧
      ((s.modChan c fun ch => ch.shiftOut x).chan d).rxq = (s.chan d).rxq ∧
      ((s.modChan c fun ch => ch.shiftOut x).chan d).par = (s.chan d).par := by
  by_cases hd : d = c
  · subst hd
    rw [Sends, State.chan_modChan_same s d _ hc, Chan.shiftOut_eq hq]
    exact ⟨⟨[x], 0, by simp [shifted, hq], rfl, by simp [shifted], fun _ => ⟨rfl, rfl⟩, by simp⟩, rfl, rfl⟩
  · rw [Sends, State.chan_modChan_ne s c d _ hd]
    exact ⟨⟨[], 0, by simp, by simp, by simp, by simp, by simp⟩, rfl, rfl⟩

/-- ENV.TXSHIFT, the wire's delivery included (R117, R120). -/
theorem UnitsMove.of_shiftUnit (hc : c < s.nch) : UnitsMove (.envTxShift c) s (shiftUnit c s) := by
  unfold shiftUnit
  split
  · exact .of_sameUnits (.of_chans rfl rfl rfl) none
  · next x q hq =>
    have hmoves := shiftOut_moves hc hq
    have hne := fun d hd => State.chan_modChan_ne s c d (fun ch => ch.shiftOut x) hd
    dsimp only
    split
    · exact .of_own hne (hmoves c).1 fun _ => .of_same (hmoves c).2.1
    · next r hw =>
      have hdeliver := (s.modChan c fun ch => ch.shiftOut x).deliver_chan r x
      refine ⟨fun d hd hwire => ?_, fun d => ?_, fun _ d => ?_⟩
      · obtain hkept | ⟨rfl, -⟩ := hdeliver d
        · exact hkept.trans (hne d (Ne.symm hd))
        · exact absurd hw (hwire rfl)
      · obtain hkept | ⟨-, harrives⟩ := hdeliver d
        · exact (hmoves d).1.trans_same (hkept ▸ .refl _)
        · exact (hmoves d).1.trans_same harrives.units.1
      · obtain ⟨-, hrxq, hpar⟩ := hmoves d
        obtain hkept | ⟨rfl, harrives⟩ := hdeliver d
        · exact .of_same (by rw [hkept, hrxq])
        · exact .of_arrives (.inr (.inr ⟨rfl, hw, by rw [Instr.ch, hq]; rfl⟩)) hrxq hpar harrives

/-- ENV.TXSHIFT (R117). -/
theorem execEnvTxShift_operates (h : execEnvTxShift c s = .next t) : Operates (.envTxShift c) s t := by
  obtain ⟨hc, -, rfl⟩ := environmentStep_next _ _ _ _ _ _ h
  exact (UnitsMove.of_shiftUnit hc).operates

/-- ENV.RXARRIVE (R118). -/
theorem execEnvRxArrive_operates (h : execEnvRxArrive c x s = .next t) : Operates (.envRxArrive c x) s t := by
  obtain ⟨hc, -, rfl⟩ := environmentStep_next _ _ _ _ _ _ h
  exact (UnitsMove.of_arrive (i := .envRxArrive c x) hc (.inl rfl)).operates

/-- ENV.RXARRIVE.ALT (R118). -/
theorem execEnvRxArriveAlt_operates (h : execEnvRxArriveAlt c x s = .next t) : Operates (.envRxArriveAlt c x) s t := by
  obtain ⟨hc, -, rfl⟩ := environmentStep_next _ _ _ _ _ _ h
  exact (UnitsMove.of_arrive (i := .envRxArriveAlt c x) hc (.inr (.inl rfl))).operates

/-- ENV.PFLAG (R119). -/
theorem execEnvPFlag_operates {n : Nat} (h : execEnvPFlag c n s = .next t) : Operates (.envPFlag c n) s t := by
  unfold execEnvPFlag at h
  split at h
  · obtain ⟨-, -, rfl⟩ := environmentStep_next _ _ _ _ _ _ h
    exact (UnitsMove.of_sameUnits (i := .envPFlag c n)
      (.of_modChan (by rw [Chan.detect_eq]; exact ⟨⟨rfl, rfl, rfl⟩, rfl⟩)) none).operates
  · cases h

/-- Every operation. -/
theorem exec_operates (h : exec i s = .next t) : Operates i s t := by
  cases i with
  | initOpen _ | initClose _ | initInvalid _ _ | setBaud _ _ | tx _ _ _ | rx _ _ _ | abortTx _ | abortRx _ | abortTxRx _ =>
    exact ⟨s, .of_sameUnits (.of_chans rfl rfl rfl) none, .of_command (by rfl) (exec_command_next (by rfl) h)⟩
  | irqTx c => exact execIrqTx_operates h
  | irqRx c => exact execIrqRx_operates h
  | irqProto c => exact execIrqProto_operates h
  | txDone c => exact execTxDone_operates h
  | envTxShift c => exact execEnvTxShift_operates h
  | envRxArrive c x => exact execEnvRxArrive_operates h
  | envRxArriveAlt c x => exact execEnvRxArriveAlt_operates h
  | envPFlag c n => exact execEnvPFlag_operates h

end EnvironmentMoves

/-! The order of both queues over a whole step (R122). -/

section Order

variable {i : Instr} {s t u : State} {d : Nat}

/-- With no command in between, what the channel sent and holds grows by what was pushed. -/
theorem Sends.stream (h : Sends i d s u) (ht : (u.chan d).SameSent (t.chan d)) :
    ∃ n, (t.chan d).stream = (s.chan d).stream ++ s.mem.bytes (s.chan d).tx.address n ∧
      (t.chan d).tx.idx = (s.chan d).tx.idx + BitVec.ofNat 32 n ∧ (i ≠ .irqTx d → n = 0) := by
  obtain ⟨left, n, hq, hline, hidx, -, hn⟩ := h
  refine ⟨n, ?_, ht.idx.trans hidx, fun hi => by_contra fun hne => hi (hn hne)⟩
  rw [Chan.stream, Chan.stream, ht.txLine, ht.txq, hline, List.append_assoc, hq, List.append_assoc]

theorem Sends.transmitOrder (h : Sends i d s u) (hc : CommandsAfter i s u t) : TransmitOrder d i s t := by
  obtain ⟨left, n, hq, hline, -, hleft, hn⟩ := h
  refine ⟨left, _, _, hq, (hc.txLine d).trans hline, hleft, fun hne => ⟨hn ?_, by rw [Memory.length_bytes]⟩, hc.txq d⟩
  rintro rfl
  exact hne rfl

theorem Receives.receiveOrder (h : Receives i d s u) (hc : CommandsAfter i s u t) : ReceiveOrder d i s t := by
  obtain ⟨taken, arrived, hq, htaken, harrived⟩ := h
  exact ⟨taken, arrived, _, hq, fun hne => (htaken hne).imp_right fun hd => hd.congr hc.mem hc.cbLog, harrived, hc.rxq d⟩

end Order

end Sys2Proof.Machine

namespace Sys2Proof.Proofs

open Sys2Proof.Machine

/-- Settles O47: the operation itself moves nothing on the channel, and no command carried out in its step names it. -/
theorem channelsDoNotInterfere : Obligations.ChannelsDoNotInterfere := by
  intro s t i d hx hne hwire hcommands
  obtain ⟨u, hmoves, hafter⟩ := exec_operates hx
  exact (hafter.others d hne hcommands).trans (hmoves.others d hne hwire)

/-- Settles O48: what the operation itself moves keeps the order, and the commands of the step only discard. -/
theorem unitsLeaveInTheOrderPushed : Obligations.UnitsLeaveInTheOrderPushed := by
  intro s t i d hx
  obtain ⟨u, hmoves, hafter⟩ := exec_operates hx
  exact ⟨fun hi hs => (hmoves.sends d).stream (hafter.silent hi hs d), (hmoves.sends d).transmitOrder hafter,
    fun hm => (hmoves.receives hm d).receiveOrder hafter⟩

end Sys2Proof.Proofs

namespace Sys2Proof.Machine

/-! The transmit handler as an equation per branch (R130 to R134), and what its invocations leave alone. -/

section TransmitHandler

variable {s t : State} {c : Nat} {f : Chan → Chan} {rs : List CbRec} {r : CbRec}

/-! A handler frame is built up along the handler's own actions: entry, writes to its channel, a report, return. -/

theorem HandlerFrame.refl (c : Nat) (s : State) : HandlerFrame c [] s s :=
  ⟨⟨rfl, rfl, fun _ _ => rfl, rfl⟩, (List.append_nil _).symm, rfl, rfl⟩

theorem HandlerFrame.modChan (h : HandlerFrame c rs s t) (f : Chan → Chan) : HandlerFrame c rs s (t.modChan c f) :=
  ⟨⟨h.par, (State.nch_modChan t c f).trans h.nch, fun d hd => (State.chan_modChan_ne t c d f hd).trans (h.others d hd), h.sched⟩,
    h.cbLog, h.consumer, h.statusLog⟩

theorem HandlerFrame.enter (h : HandlerFrame c rs s t) (k : Vec) : HandlerFrame c rs s (t.enter c k) :=
  { h.modChan fun ch => ch.unpend k with }

theorem HandlerFrame.leave (h : HandlerFrame c rs s t) : HandlerFrame c rs s t.leave := { h with }

theorem HandlerFrame.notify (h : HandlerFrame c [] s t) (r : CbRec) : HandlerFrame c [r] s (t.notify r) :=
  ⟨⟨h.par, h.nch, h.others, h.sched⟩, by rw [State.cbLog_notify, h.cbLog, List.append_nil],
    (congrArg List.tail h.consumer).trans List.drop_one.symm, h.statusLog⟩

/-- A handler whose whole effect is one update of its channel. -/
theorem ServedFrame.of_modChan : ServedFrame c [] s (s.modChan c f) := ⟨(HandlerFrame.refl c s).modChan f, rfl, fun _ => rfl⟩

/-! The branches of the handler. -/

theorem ChanFlags.txInFlight_of_locked_busy {fl : ChanFlags} (hlock : fl.txLock = true) (hbusy : fl.txBusy = true) :
    fl.txInFlight = true := Bool.and_eq_true_iff.2 ⟨hlock, hbusy⟩

theorem Chan.txEmpty_iff {ch : Chan} : ch.txEmpty = true ↔ ch.txq = [] := by simp [Chan.txEmpty, Chan.txLevel]

/-- A dispatchable transmit vector runs the handler (R173). -/
theorem exec_irqTx (hc : c < s.nch) (hd : s.dispatchable c .tx = true) : exec (.irqTx c) s = txHandler c (s.enter c .tx) :=
  dispatchVector_eq c .tx (txHandler c) s hc hd

/-- No transfer in flight (R130). -/
theorem txHandler_stray (hi : (s.chan c).flags.txInFlight = false) : txHandler c s = .next s.leave := if_pos (by simp [hi])

/-- A fill that stops (R102). -/
theorem txHandler_fill_fault (hi : (s.chan c).flags.txInFlight = true) (hlt : (s.chan c).tx.idx < (s.chan c).tx.len)
    {why : Fault} (hfill : (s.chan c).fill s.mem = .error why) : txHandler c s = .fault why := by
  simp only [txHandler, hfill]
  exact (if_neg (by simp [hi])).trans (if_pos hlt)

/-- Everything pushed and nothing queued (R134). -/
theorem txHandler_drained (hi : (s.chan c).flags.txInFlight = true) (hdone : (s.chan c).tx.idx = (s.chan c).tx.len)
    (hq : (s.chan c).txq = []) : txHandler c s = andThen (completeTx c s) fun u => .next u.leave :=
  (if_neg (by simp [hi])).trans ((if_neg (hdone ▸ BitVec.lt_irrefl _)).trans (if_pos (Chan.txEmpty_iff.2 hq)))

/-- Everything pushed and units queued (R133). -/
theorem txHandler_queued (hi : (s.chan c).flags.txInFlight = true) (hdone : (s.chan c).tx.idx = (s.chan c).tx.len)
    (hq : (s.chan c).txq ≠ []) : txHandler c s = .next (s.modChan c fun ch => { ch with txWait := true }) :=
  (if_neg (by simp [hi])).trans ((if_neg (hdone ▸ BitVec.lt_irrefl _)).trans (if_neg (mt Chan.txEmpty_iff.1 hq)))

/-- The handler entered with everything pushed and nothing queued completes (R130, R134). -/
theorem exec_irqTx_drained (hc : c < s.nch) (hd : s.dispatchable c .tx = true)
    (hi : (s.chan c).flags.txInFlight = true) (hdone : (s.chan c).tx.idx = (s.chan c).tx.len) (hq : (s.chan c).txq = []) :
    exec (.irqTx c) s = andThen (completeTx c (s.enter c .tx)) fun u => .next u.leave := by
  have hch := State.chan_enter_same s c .tx hc
  exact (exec_irqTx hc hd).trans (txHandler_drained (hch ▸ hi) (hch ▸ hdone) (hch ▸ hq))

/-! The fill of a buffer that fits. -/

/-- FIFO mode (R131). -/
theorem Chan.fill_fifo {ch : Chan} (m : Memory) (hcap : ch.par.txCap ≠ 0) (hfit : bufferFits ch.tx.ptr ch.tx.len = true)
    (hidx : ch.tx.idx ≤ ch.tx.len) (hlevel : ch.txq.length ≤ ch.par.txCap) : ch.fill m = .ok { ch with
      txq := ch.txq ++ m.bytes ch.tx.address (min (ch.par.txCap - ch.txq.length) ch.tx.remaining)
      tx := { ch.tx with idx := ch.tx.idx + BitVec.ofNat 32 (min (ch.par.txCap - ch.txq.length) ch.tx.remaining) } } := by
  have hfifo : ch.txFifo = true := bne_iff_ne.2 hcap
  exact (if_pos hfifo).trans (fillFifo_eq m _ ch (bufferFits_iff.1 hfit) (if_pos hfifo) rfl hidx hlevel)

/-- Byte mode: one unit, or the fault of a push onto a full buffer (R132, U3). -/
theorem Chan.fill_byte {ch : Chan} (m : Memory) (hcap : ch.par.txCap = 0) (hfit : bufferFits ch.tx.ptr ch.tx.len = true)
    (hlt : ch.tx.idx < ch.tx.len) : ch.fill m = if ch.txFull then .error .pushOnOccupiedBuffer else
      .ok { ch with txq := ch.txq ++ [m.read ch.tx.address], tx := ch.tx.advance } := by
  have hbyte : ¬ch.txFifo = true := by simp [Chan.txFifo, hcap]
  simp only [Chan.fill, if_neg hbyte, Chan.fillOne, memRead_eq (Tcb.address_lt_top hfit hlt), Chan.txPush]
  cases ch.txFull <;> rfl

/-- A byte-mode buffer is full when it holds a unit (R101). -/
theorem Chan.txFull_of_byte {ch : Chan} (hcap : ch.par.txCap = 0) : ch.txFull = (ch.txq.length == 1) := by
  simp [Chan.txFull, Chan.txLevel, Chan.txDepth, Chan.txFifo, hcap]

/-! Completion. -/

/-- The record of a completed transmit (R134). -/
def txCompleteRec (c : Nat) (s : State) : CbRec := { ch := c, event := .txComplete, ptr := (s.chan c).tx.ptr, data := 0 }

/-- A completion whose consumer issues nothing, as one update of the channel and one report (R134). -/
theorem completeTx_silent (hs : s.consumerSilent) : completeTx c s =
    .next ((s.modChan c fun ch => (ch.evDisable ch.txEvm).clearTx).notify (txCompleteRec c s)) := by
  simp only [completeTx, callback_silent _ (s.modChan c _) hs, andThen]
  exact congrArg (fun u => Host.Outcome.next (State.notify u (txCompleteRec c s))) (State.modChan_modChan s c _ _)

/-- Whatever the consumer issues, a completion adds its one record, and its clears come last (R134, R181). -/
theorem completeTx_next (hc : c < s.nch) (h : completeTx c s = .next t) : t.cbLog = s.cbLog ++ [txCompleteRec c s] ∧
    (t.chan c).flags.txLock = false ∧ (t.chan c).flags.txBusy = false ∧ (t.chan c).tx.ptr = 0 := by
  obtain ⟨u, hu, ht⟩ := (andThen_next _ _ _).1 h
  cases ht
  have hres := callback_result _ _ _ hu
  have hcu : c < u.nch := by rw [hres.nch, State.nch_notify, State.nch_modChan]; exact hc
  rw [State.chan_modChan_same u c _ hcu]
  exact ⟨hres.cbLog, rfl, rfl, rfl⟩

/-- An enabled TXDONE ends the wait and completes (R134). -/
theorem exec_txDone (hc : c < s.nch) (he : s.txDoneEnabled c = true) : exec (.txDone c) s =
    andThen (completeTx c (s.modChan c fun ch => { ch with txWait := false })) fun u => .next u.leave :=
  (if_neg (Nat.not_le.2 hc)).trans (if_pos he)

theorem execTxDone_next (h : execTxDone c s = .next t) : c < s.nch ∧
    ∃ u, completeTx c (s.modChan c fun ch => { ch with txWait := false }) = .next u ∧ t = u.leave := by
  unfold execTxDone at h
  split at h
  · cases h
  · next hc =>
    split at h
    · obtain ⟨u, hu, ht⟩ := (andThen_next _ _ _).1 h
      cases ht
      exact ⟨Nat.not_le.1 hc, u, hu, rfl⟩
    · cases h

end TransmitHandler

/-! Nested commands (R181), and the protocol handler that meets a suspended one (U6). -/

section NestedCommands

variable {s : State} {c : Nat} {w : BitVec 80} {ws : List (BitVec 80)} {j : Instr} {a b : Word}

/-- A decoded command off the suspended transmit directions is carried out. -/
theorem nestedCommand_eq {e : State × Status} (hd : decodeCmd s.nch w = .ok j)
    (hw : targetsTransmit j = true → (s.chan j.ch).txWait = false) (he : commandEffect j s = some e) :
    nestedCommand w s = .next (e.1.reply .interrupt e.2) := by
  have hfree : ¬(targetsTransmit j && (s.chan j.ch).txWait) = true := by simpa using hw
  simp only [nestedCommand, hd, he, if_neg hfree]

/-- A command on a suspended transmit direction has no meaning (U6). -/
theorem nestedCommand_suspended (hd : decodeCmd s.nch w = .ok j) (ht : targetsTransmit j = true)
    (hw : (s.chan j.ch).txWait = true) : nestedCommand w s = .refused .nestedOnSuspendedTx := by
  simp only [nestedCommand, hd, ht, hw]
  rfl

/-- A TX on an open channel with a transmit in flight (R90). -/
theorem nestedCommand_tx_busy (hd : decodeCmd s.nch w = .ok (.tx c a b)) (ha : a ≠ 0) (hb : b ≠ 0)
    (hopen : (s.chan c).flags.init = true) (hbusy : (s.chan c).flags.txBusy = true) (hwait : (s.chan c).txWait = false) :
    nestedCommand w s = .next (s.reply .interrupt .busy) := by
  have hcmd : cmdTx c a b s = (s, .busy) :=
    cmdTx_of_rejected (by rw [hopen, hbusy, requestRejected_open _ ha hb]; rfl)
  exact nestedCommand_eq hd (fun _ => hwait) (congrArg some hcmd)

/-- An RX on an open channel whose receive direction is free (R86, R90). -/
theorem nestedCommand_rx_accepted (hd : decodeCmd s.nch w = .ok (.rx c a b)) (ha : a ≠ 0) (hb : b ≠ 0)
    (hopen : (s.chan c).flags.init = true) (hbusy : (s.chan c).flags.rxBusy = false) (hlock : (s.chan c).flags.rxLock = false) :
    nestedCommand w s = .next ((s.modChan c fun ch => ch.acceptRx a b).reply .interrupt .success) := by
  have hcmd : cmdRx c a b s = (s.modChan c fun ch => ch.acceptRx a b, .success) :=
    cmdRx_of_accepted (by rw [hopen, hbusy, hlock, requestRejected_open _ ha hb]; rfl)
  exact nestedCommand_eq hd nofun (congrArg some hcmd)

/-- A callback during a transmit that does not wait, answered with a TX and an RX for the channel: the one is busy, the other
recorded (R181, C1). -/
theorem callback_tx_then_rx {w' : BitVec 80} {a' b' : Word} (r : CbRec) (hq : s.consumer.headD [] = [w, w'])
    (hd : decodeCmd s.nch w = .ok (.tx c a b)) (hd' : decodeCmd s.nch w' = .ok (.rx c a' b'))
    (ha : a ≠ 0) (hb : b ≠ 0) (ha' : a' ≠ 0) (hb' : b' ≠ 0) (hopen : (s.chan c).flags.init = true)
    (hbusy : (s.chan c).flags.txBusy = true) (hwait : (s.chan c).txWait = false)
    (hrxBusy : (s.chan c).flags.rxBusy = false) (hrxLock : (s.chan c).flags.rxLock = false) : callback r s =
      .next ((((s.notify r).reply .interrupt .busy).modChan c fun ch => ch.acceptRx a' b').reply .interrupt .success) := by
  have hfirst : nestedCommand w (s.notify r) = .next ((s.notify r).reply .interrupt .busy) :=
    nestedCommand_tx_busy (by rwa [State.nch_notify]) ha hb hopen hbusy hwait
  have hsecond : nestedCommand w' ((s.notify r).reply .interrupt .busy) = .next _ :=
    nestedCommand_rx_accepted (by rwa [State.nch_reply, State.nch_notify]) ha' hb' hopen hrxBusy hrxLock
  simp only [callback, hq, nestedCommands, hfirst, hsecond, andThen]

/-- A callback whose consumer first commands a suspended transmit direction is refused whole (log 10). -/
theorem callback_suspended (r : CbRec) (hq : s.consumer.headD [] = w :: ws) (hd : decodeCmd s.nch w = .ok j)
    (ht : targetsTransmit j = true) (hw : (s.chan j.ch).txWait = true) : callback r s = .refused .nestedOnSuspendedTx := by
  have hfirst : nestedCommand w (s.notify r) = .refused .nestedOnSuspendedTx :=
    nestedCommand_suspended (by rwa [State.nch_notify]) ht hw
  rw [callback, hq, nestedCommands, hfirst]
  rfl

/-- A flagged and enabled condition makes the scan report one (R157). -/
theorem protoScan_reports {i : Nat} {ev : Event} (hm : (i, ev) ∈ faultTable) (hf : (s.chan c).protoFlagged i = true)
    (he : (s.chan c).protoEnabled i = true) : ∃ n r, protoScan c s = callback r (s.modChan c fun ch => ch.clearFlag n) := by
  obtain ⟨x, hx⟩ : ∃ x, (s.chan c).firstFault = some x :=
    Option.isSome_iff_exists.1 (List.find?_isSome.2 ⟨(i, ev), hm, by simp [hf, he]⟩)
  refine ⟨x.1, { ch := c, event := x.2, ptr := 0, data := 0 }, ?_⟩
  simp only [protoScan, hx]

end NestedCommands

end Sys2Proof.Machine

namespace Sys2Proof.Proofs

open Sys2Proof.Machine

/-- Settles O18: the handler's fill is the FIFO fill, and the dispatch clears only the pending bit. -/
theorem fifoFillPushesWhatFits : Obligations.FifoFillPushesWhatFits := by
  intro s c hc hd hlock hbusy hcap hlt hlevel hfit
  have hfill := Chan.fill_fifo (ch := (s.chan c).unpend .tx) s.mem hcap hfit (BitVec.le_of_lt hlt) hlevel
  exact ⟨_, _, execIrqTx_fills hc hd (ChanFlags.txInFlight_of_locked_busy hlock hbusy) hlt hfill, .of_modChan, rfl,
    State.chan_modChan_same s c _ hc⟩

/-- Settles O22: both steps complete the transmit, and the completion clears after the consumer's commands. -/
theorem transmitCompletionSurvivesNestedCommands : Obligations.TransmitCompletionSurvivesNestedCommands := by
  rintro s t c (hx | ⟨hx, hlock, hbusy, hdone, hq⟩)
  · obtain ⟨hc, u, hu, rfl⟩ := execTxDone_next hx
    have hrec := completeTx_next (by rwa [State.nch_modChan]) hu
    rwa [txCompleteRec, State.chan_modChan_same s c _ hc] at hrec
  · obtain ⟨hc, hd, -⟩ := dispatchVector_next c .tx _ s t hx
    rw [exec_irqTx_drained hc hd (ChanFlags.txInFlight_of_locked_busy hlock hbusy) hdone hq, andThen_next] at hx
    obtain ⟨u, hu, ht⟩ := hx
    cases ht
    have hrec := completeTx_next (by rwa [State.nch_enter]) hu
    rwa [txCompleteRec, State.chan_enter_same s c .tx hc] at hrec

/-- Settles O40: the TX finds its own transmit still busy, the RX a free receive direction, and the clears come last. -/
theorem requestInItsOwnCallbackIsBusy : Obligations.RequestInItsOwnCallbackIsBusy := by
  intro s c a b a' b' w w' hc hd hopen hlock hbusy hwait hdone hq hrxLock hrxBusy ha hb ha' hb' hw hw' hcons
  have hx := exec_irqTx_drained hc hd (ChanFlags.txInFlight_of_locked_busy hlock hbusy) hdone hq
  have hnch : ((s.enter c .tx).modChan c fun ch => ch.evDisable ch.txEvm).nch = s.nch := by
    rw [State.nch_modChan, State.nch_enter]
  have hch : ((s.enter c .tx).modChan c fun ch => ch.evDisable ch.txEvm).chan c =
      ((s.chan c).unpend .tx).evDisable (s.chan c).txEvm := by
    rw [State.chan_modChan_same _ c _ (by rwa [State.nch_enter]), State.chan_enter_same s c .tx hc]
    rfl
  rw [completeTx, callback_tx_then_rx (s := (s.enter c .tx).modChan c _) _ hcons (hnch ▸ hw) (hnch ▸ hw') ha hb ha' hb'
    (hch ▸ hopen) (hch ▸ hbusy) (hch ▸ hwait) (hch ▸ hrxBusy) (hch ▸ hrxLock)] at hx
  refine ⟨_, hx, List.append_assoc .., ?_⟩
  rw [State.chan_leave, State.chan_modChan_same _ c _ (by simpa using hc), State.chan_reply,
    State.chan_modChan_same _ c _ (by simpa using hc), State.chan_reply, State.chan_notify, hch, acceptRx_registers]
  refine ⟨rfl, rfl, ?_⟩
  simp [Chan.clearTx, Chan.evDisable, hopen]

/-- Settles O41: the first command of the consumer's turn is refused, and with it the handler. -/
theorem nestedCommandOnASuspendedTransmitIsRefused : Obligations.NestedCommandOnASuspendedTransmitIsRefused := by
  intro s c i ev w ws j hc hmon hd hm hflag hen hq hw ht hwait
  have hce : c < (s.enter c .pr).nch := by rwa [State.nch_enter]
  have hch := State.chan_enter_same s c .pr hc
  obtain ⟨n, r, hscan⟩ := protoScan_reports (s := s.enter c .pr) hm (by rw [hch]; exact hflag) (by rw [hch]; exact hen)
  have hcall : callback r ((s.enter c .pr).modChan c fun ch => ch.clearFlag n) = .refused .nestedOnSuspendedTx :=
    callback_suspended r hq (by rwa [State.nch_modChan, State.nch_enter]) ht
      (by rw [(State.SameContexts.of_modChan hce rfl rfl).txWait, State.txWait_enter hc]; exact hwait)
  refine (if_pos hmon).trans ((dispatchVector_eq c .pr _ s hc hd).trans ?_)
  rw [hscan, hcall]
  rfl

/-- Settles O17: the handler returns at once. -/
theorem strayTransmitInterruptDoesNothing : Obligations.StrayTransmitInterruptDoesNothing := by
  intro s c hc hd hstray
  have hi : ((s.enter c .tx).chan c).flags.txInFlight = false := by
    rw [State.chan_enter_same s c .tx hc]
    exact Bool.eq_false_iff.2 (mt Bool.and_eq_true_iff.1 hstray)
  have hx : exec (.irqTx c) s = .next (s.modChan c fun ch => ch.unpend .tx) := (exec_irqTx hc hd).trans (txHandler_stray hi)
  exact ⟨_, hx, .of_modChan, State.chan_modChan_same s c _ hc⟩

/-- Settles O19: a unit in the buffer decides whether the one push succeeds. -/
theorem byteFillPushesOneUnit : Obligations.ByteFillPushesOneUnit := by
  intro s c hc hd hlock hbusy hcap hlt hfit
  have hi := ChanFlags.txInFlight_of_locked_busy hlock hbusy
  have hfill := Chan.fill_byte (ch := (s.chan c).unpend .tx) s.mem hcap hfit hlt
  rw [Chan.txFull_of_byte (ch := (s.chan c).unpend .tx) hcap] at hfill
  refine ⟨fun hq => ?_, fun hone => ?_⟩
  · have hempty : ((s.chan c).unpend .tx).txq = [] := hq
    rw [hempty] at hfill
    exact ⟨_, execIrqTx_fills hc hd hi hlt hfill, .of_modChan, State.chan_modChan_same s c _ hc⟩
  · have hch := State.chan_enter_same s c .tx hc
    exact (exec_irqTx hc hd).trans (txHandler_fill_fault (hch ▸ hi) (hch ▸ hlt)
      (hch ▸ hfill.trans (if_pos (beq_iff_eq.2 hone))))

/-- Settles O20: the handler sets TXWAIT and does not return. -/
theorem transmitHandlerWaitsForTheQueue : Obligations.TransmitHandlerWaitsForTheQueue := by
  intro s c hc hd hlock hbusy hdone hq
  have hch := State.chan_enter_same s c .tx hc
  have hx := (exec_irqTx hc hd).trans
    (txHandler_queued (hch ▸ ChanFlags.txInFlight_of_locked_busy hlock hbusy) (hch ▸ hdone) (hch ▸ hq))
  refine ⟨_, hx, ((HandlerFrame.refl c s).enter .tx).modChan _, fun _ => rfl, rfl, ?_⟩
  rw [State.chan_modChan_same _ c _ (by rwa [State.nch_enter]), hch]
  rfl

/-- Settles O21: both steps run the silent completion, one from the entered handler, one from the wait. -/
theorem transmitCompletion : Obligations.TransmitCompletion := by
  intro s c hc hs
  refine ⟨fun hd hlock hbusy hdone hq => ?_, fun hwait htop hq => ?_⟩
  · have hi := ChanFlags.txInFlight_of_locked_busy hlock hbusy
    refine ⟨_, execIrqTx_completes hc hd hi (hdone ▸ BitVec.lt_irrefl _) (Chan.txEmpty_iff.2 hq) hs,
      ⟨((HandlerFrame.refl c s).modChan _).notify _, rfl, fun _ => rfl⟩, ?_⟩
    rw [State.chan_notify, State.chan_modChan_same s c _ hc, ← Chan.txEvm_eq]
    rfl
  · have he : s.txDoneEnabled c = true := by simp [State.txDoneEnabled, hwait, htop, Chan.txEmpty_iff.2 hq]
    have hover : (s.modChan c fun ch => { ch with txWait := false }).consumerSilent := hs
    have hx := exec_txDone hc he
    rw [completeTx_silent hover, txCompleteRec, State.chan_modChan_same s c _ hc, State.modChan_modChan] at hx
    refine ⟨_, hx, (((HandlerFrame.refl c s).modChan _).notify _).leave, fun _ => rfl, rfl, ?_⟩
    rw [State.chan_leave, State.chan_notify, State.chan_modChan_same s c _ hc, ← Chan.txEvm_eq]
    rfl

end Sys2Proof.Proofs

namespace Sys2Proof.Machine

/-! The receive handler as an equation per branch (R140 to R147), where it reports for a consumer that issues nothing, and what
its invocations leave alone. -/

section ReceiveHandler

variable {s t u : State} {c : Nat} {rs : List CbRec}

theorem HandlerFrame.draws (h : HandlerFrame c rs s t) (n : Nat) : HandlerFrame c rs s { t with draws := n } := { h with }

theorem HandlerFrame.withMem (h : HandlerFrame c rs s t) (m : Memory) : HandlerFrame c rs s (t.withMem m) := { h with }

/-- Where units lie is about memory alone. -/
theorem StoresUnits.congr {a : Nat} {us : List Byte} (h : StoresUnits a us s u) (hm : t.mem = u.mem) : StoresUnits a us s t := by
  rwa [StoresUnits, hm]

/-! The branches of the handler. -/

theorem ChanFlags.rxInFlight_of_locked_busy {fl : ChanFlags} (hlock : fl.rxLock = true) (hbusy : fl.rxBusy = true) :
    fl.rxInFlight = true := Bool.and_eq_true_iff.2 ⟨hlock, hbusy⟩

theorem Chan.rxFifo_iff {ch : Chan} : ch.rxFifo = true ↔ ch.par.rxCap ≠ 0 := bne_iff_ne

/-- A dispatchable receive vector runs the handler's body and returns (R173, R176). -/
theorem exec_irqRx (hc : c < s.nch) (hd : s.dispatchable c .rx = true) (hbody : rxHandler c (s.enter c .rx) = .next u) :
    exec (.irqRx c) s = .next u.leave := by
  refine (dispatchVector_eq c .rx (fun s' => andThen (rxHandler c s') fun u => .next u.leave) s hc hd).trans ?_
  rw [hbody]
  rfl

/-- A receive in flight in FIFO mode (R144). -/
theorem rxHandler_fifo (hi : (s.chan c).flags.rxInFlight = true) (hcap : (s.chan c).par.rxCap ≠ 0) :
    rxHandler c s = solicitedFifo c s := (if_pos hi).trans (if_pos (Chan.rxFifo_iff.2 hcap))

/-- A receive in flight in byte mode (R146). -/
theorem rxHandler_byte (hi : (s.chan c).flags.rxInFlight = true) (hcap : (s.chan c).par.rxCap = 0) :
    rxHandler c s = solicitedByte c s := (if_pos hi).trans (if_neg (mt Chan.rxFifo_iff.1 (not_not.2 hcap)))

/-- No request outstanding (R141, R142). -/
theorem rxHandler_idle (hlock : (s.chan c).flags.rxLock = false) (hbusy : (s.chan c).flags.rxBusy = false) :
    rxHandler c s = unsolicited c s := by
  simp [rxHandler, ChanFlags.rxInFlight, ChanFlags.rxIdle, hlock, hbusy]

/-- Exactly one of lock and busy (R143). -/
theorem rxHandler_mixed (hne : (s.chan c).flags.rxLock ≠ (s.chan c).flags.rxBusy) : rxHandler c s = mixedReceive c s := by
  have hbits : ∀ a b : Bool, a ≠ b → (a && b) = false ∧ (!a && !b) = false := by decide
  obtain ⟨hi, hidle⟩ := hbits _ _ hne
  exact (if_neg (Bool.eq_false_iff.1 hi)).trans (if_neg (Bool.eq_false_iff.1 hidle))

/-! Units that are forwarded (R141, R142). -/

/-- The channel without its oldest received unit (R103). -/
def Chan.dropOldest (ch : Chan) : Chan := { ch with rxq := ch.rxq.tail }

/-- Updates that agree on the channel are one update. -/
theorem State.modChan_congr {f g : Chan → Chan} (h : f (s.chan c) = g (s.chan c)) : s.modChan c f = s.modChan c g := by
  rw [State.modChan_eq_replace s c f, h, ← State.modChan_eq_replace s c g]

/-- A pop in either case: it answers the oldest unit if there is one, and may count a draw (R103). -/
theorem rxPop_eq (s : State) (c : Nat) : ∃ n x, s.rxPop c = (x, { s with draws := n }.modChan c Chan.dropOldest) ∧
    ∀ y q, (s.chan c).rxq = y :: q → x = y := by
  unfold State.rxPop
  split
  · next y q hq =>
    exact ⟨s.draws, y, Prod.ext rfl (State.modChan_congr (s := s) (by rw [Chan.dropOldest, hq]; rfl)),
      fun z q' h => (List.cons.inj (hq.symm.trans h)).1⟩
  · next hq =>
    have hsame : (s.drawn.chan c).dropOldest = id (s.drawn.chan c) := by
      rw [State.chan_drawn, Chan.dropOldest, hq, List.tail_nil, ← hq]
      rfl
    exact ⟨s.draws + 1, Config.drawUnit s.draws, Prod.ext rfl ((State.modChan_congr hsame).trans (State.modChan_id _ c)).symm,
      fun y q h => by simp [hq] at h⟩

/-- A popped unit is forwarded to a consumer that issues nothing (R141, R142). -/
theorem forwardPopped_silent (hs : s.consumerSilent) : ∃ n x p,
    forwardUnit c (s.rxPop c).1 (s.rxPop c).2 = .next (({ s with draws := n }.modChan c Chan.dropOldest).notify
      { ch := c, event := .charReceived, ptr := p, data := x }) ∧
    ∀ y q, (s.chan c).rxq = y :: q → x = y := by
  obtain ⟨n, x, hpop, hx⟩ := rxPop_eq s c
  rw [hpop]
  exact ⟨n + 1, x, _, callback_silent _ (State.drawn _) hs, hx⟩

/-- An empty FIFO forwards nothing (R142). -/
theorem unsolicited_empty (hcap : (s.chan c).par.rxCap ≠ 0) (hq : (s.chan c).rxq = []) : unsolicited c s = .next s :=
  (if_pos (Chan.rxFifo_iff.2 hcap)).trans (if_pos (Chan.rxEmpty_iff.2 hq))

/-- A unit in the FIFO, and byte mode whatever its buffer holds, forwards one (R141, R142). -/
theorem unsolicited_unit (h : (s.chan c).par.rxCap = 0 ∨ (s.chan c).rxq ≠ []) :
    unsolicited c s = forwardUnit c (s.rxPop c).1 (s.rxPop c).2 := by
  unfold unsolicited
  split
  · next hfifo => exact if_neg (mt Chan.rxEmpty_iff.1 (h.resolve_left (Chan.rxFifo_iff.1 hfifo)))
  · rfl

/-- A body that does nothing (R142, R143). -/
theorem irqRx_forwardsNothing (hc : c < s.nch) (hd : s.dispatchable c .rx = true)
    (hbody : rxHandler c (s.enter c .rx) = .next (s.enter c .rx)) : ∃ t, exec (.irqRx c) s = .next t ∧ ForwardsNothing c s t :=
  ⟨s.modChan c fun ch => ch.unpend .rx, exec_irqRx hc hd hbody, .of_modChan, State.chan_modChan_same s c _ hc⟩

/-- A body that takes the unsolicited path with a unit to forward (R141, R142, R143). -/
theorem irqRx_forwardsOneUnit (hc : c < s.nch) (hd : s.dispatchable c .rx = true) (hs : s.consumerSilent)
    (hunit : (s.chan c).par.rxCap = 0 ∨ (s.chan c).rxq ≠ [])
    (hbody : rxHandler c (s.enter c .rx) = unsolicited c (s.enter c .rx)) :
    ∃ t, exec (.irqRx c) s = .next t ∧ ForwardsOneUnit c s t := by
  have hch := State.chan_enter_same s c .rx hc
  have hce : c < (s.enter c .rx).nch := by rwa [State.nch_enter]
  obtain ⟨n, x, p, hforward, hx⟩ := forwardPopped_silent (s := s.enter c .rx) (c := c) hs
  rw [unsolicited_unit (by rw [hch]; exact hunit), hforward] at hbody
  rw [hch] at hx
  refine ⟨_, exec_irqRx hc hd hbody, x, p,
    ⟨(((((HandlerFrame.refl c s).enter .rx).draws n).modChan _).notify _).leave, rfl, fun _ => rfl⟩, hx, ?_⟩
  rw [State.chan_leave, State.chan_notify, State.chan_modChan_same { s.enter c .rx with draws := n } c _ hce]
  show ((s.enter c .rx).chan c).dropOldest = _
  rw [hch]
  rfl

/-! Units that are stored (R144, R146). -/

/-- The drain of a queue that does not reach the length sets the new limit (R144, R145). -/
theorem solicitedFifo_short (hm : Memory.wf s.mem) (hfit : bufferFits (s.chan c).rx.ptr (s.chan c).rx.len = true)
    (hshort : (s.chan c).rx.idx.toNat + (s.chan c).rxq.length < (s.chan c).rx.len.toNat) :
    ∃ m, solicitedFifo c s = .next (((s.modChan c fun ch => { ch with
        rxq := []
        rx := { (s.chan c).rx with idx := (s.chan c).rx.idx + BitVec.ofNat 32 (s.chan c).rxq.length } }).withMem m).modChan c
      fun ch => ch.rxSetLimit ((s.chan c).rx.len.toNat - ((s.chan c).rx.idx.toNat + (s.chan c).rxq.length))) ∧
      StoresUnits (s.chan c).rx.address (s.chan c).rxq s (s.withMem m) := by
  have hall : (s.chan c).rxq.length ≤ (s.chan c).rx.remaining := by unfold Tcb.remaining; omega
  have hidx : ((s.chan c).rx.idx + BitVec.ofNat 32 (s.chan c).rxq.length).toNat =
      (s.chan c).rx.idx.toNat + (s.chan c).rxq.length := by
    have := (s.chan c).rx.len.isLt
    simp only [BitVec.toNat_add, BitVec.toNat_ofNat]
    omega
  obtain ⟨m, hdrain, -, hread, hframe⟩ := drain_eq (s.chan c).rxq (s.chan c).rx s.mem hm (bufferFits_iff.1 hfit) (by omega)
  rw [List.drop_eq_nil_of_le hall, Nat.min_eq_left hall] at hdrain
  simp only [List.take_of_length_le hall] at hread hframe
  refine ⟨m, ?_, hread, hframe⟩
  simp only [solicitedFifo, hdrain]
  rw [if_pos (BitVec.lt_def.2 (hidx ▸ hshort)), Tcb.remaining, hidx]

/-- The drain of a queue that reaches the length stops there (R144). -/
theorem solicitedFifo_full (hm : Memory.wf s.mem) (hfit : bufferFits (s.chan c).rx.ptr (s.chan c).rx.len = true)
    (hlt : (s.chan c).rx.idx < (s.chan c).rx.len)
    (hfull : (s.chan c).rx.len.toNat ≤ (s.chan c).rx.idx.toNat + (s.chan c).rxq.length) :
    ∃ m, solicitedFifo c s = completeRx c ((s.modChan c fun ch => { ch with
        rxq := (s.chan c).rxq.drop (s.chan c).rx.remaining
        rx := { (s.chan c).rx with idx := (s.chan c).rx.len } }).withMem m) ∧
      StoresUnits (s.chan c).rx.address ((s.chan c).rxq.take (s.chan c).rx.remaining) s (s.withMem m) := by
  have hwanted : (s.chan c).rx.remaining ≤ (s.chan c).rxq.length := by unfold Tcb.remaining; omega
  have hidx : (s.chan c).rx.idx + BitVec.ofNat 32 (s.chan c).rx.remaining = (s.chan c).rx.len := by
    have := (s.chan c).rx.len.isLt
    have : (s.chan c).rx.idx.toNat < (s.chan c).rx.len.toNat := hlt
    apply BitVec.eq_of_toNat_eq
    simp only [BitVec.toNat_add, BitVec.toNat_ofNat, Tcb.remaining]
    omega
  obtain ⟨m, hdrain, -, hread, hframe⟩ :=
    drain_eq (s.chan c).rxq (s.chan c).rx s.mem hm (bufferFits_iff.1 hfit) (Nat.le_of_lt hlt)
  rw [Nat.min_eq_right hwanted, hidx] at hdrain
  refine ⟨m, ?_, hread, hframe⟩
  simp only [solicitedFifo, hdrain]
  rw [if_neg (BitVec.lt_irrefl _), if_pos hlt]

/-- The channel with its oldest unit taken for the buffer (R146). -/
def Chan.takeUnit (ch : Chan) : Chan := { ch.dropOldest with rx := ch.rx.advance }

/-- What the handler makes of its channel in byte mode with any unit but the last: entered and moved (R146). -/
theorem Chan.takeUnit_unpend (ch : Chan) : (ch.unpend .rx).takeUnit =
    { ch with rxq := ch.rxq.tail, rx := { ch.rx with idx := ch.rx.idx + 1 }, vRx := ch.vRx.served } := rfl

/-- The byte path stores one unit and looks whether that was the last (R146). -/
theorem solicitedByte_eq (hc : c < s.nch) (hm : Memory.wf s.mem)
    (hfit : bufferFits (s.chan c).rx.ptr (s.chan c).rx.len = true) (hlt : (s.chan c).rx.idx < (s.chan c).rx.len) :
    ∃ n x m, solicitedByte c s = (if (s.chan c).rx.advance.idx = (s.chan c).rx.len then
        completeRx c (({ s with draws := n }.modChan c Chan.takeUnit).withMem m) else
        .next (({ s with draws := n }.modChan c Chan.takeUnit).withMem m)) ∧
      StoresUnits (s.chan c).rx.address [x] s (s.withMem m) ∧ ∀ y q, (s.chan c).rxq = y :: q → x = y := by
  obtain ⟨n, x, hpop, hx⟩ := rxPop_eq s c
  refine ⟨n, x, _, ?_, .of_write hm rfl, hx⟩
  have hwrite : memWrite s.mem (s.chan c).rx.address x = .ok _ := memWrite_eq (Tcb.address_lt_top hfit hlt)
  simp only [solicitedByte, hpop, State.mem_modChan, hwrite, State.modChan_modChan, State.chan_withMem]
  rw [State.chan_modChan_same { s with draws := n } c _ hc]
  rfl

/-! Completion. -/

/-- What completion clears in FIFO mode (R147). -/
theorem Chan.clearRx_fifo {ch : Chan} (hcap : ch.par.rxCap ≠ 0) : ch.clearRx = { ch with
    even := ch.even &&& ~~~(0x0018 : EventMask), flags := { ch.flags with rxBusy := false, rxLock := false } } := by
  rw [Chan.clearRx, Chan.rxEvm_eq, if_neg hcap]
  rfl

/-- What the handler makes of its channel in byte mode with the last unit: entered, moved, cleared (R146, R147). -/
theorem Chan.clearRx_takeUnit {ch : Chan} (hcap : ch.par.rxCap = 0) (hlast : ch.rx.advance.idx = ch.rx.len) :
    (ch.unpend .rx).takeUnit.clearRx = { ch with
      rxq := ch.rxq.tail
      rx := { ch.rx with idx := ch.rx.len }
      even := ch.even &&& ~~~(0x0004 : EventMask)
      flags := { ch.flags with rxBusy := false, rxLock := false }
      vRx := ch.vRx.served } := by
  have hrx : ch.rx.advance = { ch.rx with idx := ch.rx.len } := congrArg (fun i => { ch.rx with idx := i }) hlast
  have hmask : ch.rxEvm = 0x0004 := (Chan.rxEvm_eq ch).trans (if_pos hcap)
  rw [← hrx, ← hmask]
  rfl

/-- A completion whose consumer issues nothing, as one update of the channel and one report (R147). -/
theorem completeRx_silent (hs : s.consumerSilent) : completeRx c s = .next ((s.modChan c Chan.clearRx).notify
    { ch := c, event := .rxComplete, ptr := (s.chan c).rx.ptr, data := 0 }) := by
  rw [completeRx, callback_silent _ s hs]
  rfl

/-- A body that ends in the completion of what it has moved so far (R147). -/
theorem irqRx_completes (hc : c < s.nch) (hd : s.dispatchable c .rx = true) (hs : s.consumerSilent)
    (hbody : rxHandler c (s.enter c .rx) = completeRx c u) (hframe : HandlerFrame c [] s u)
    (hactive : u.active.tail = s.active) : ∃ t, exec (.irqRx c) s = .next t ∧
      HandlerFrame c [{ ch := c, event := .rxComplete, ptr := (u.chan c).rx.ptr, data := 0 }] s t ∧ t.active = s.active ∧
      t.mem = u.mem ∧ t.chan c = (u.chan c).clearRx := by
  have hsilent : u.consumerSilent := by rw [State.consumerSilent, hframe.consumer]; exact hs
  rw [completeRx_silent hsilent] at hbody
  exact ⟨_, exec_irqRx hc hd hbody, ((hframe.modChan _).notify _).leave, hactive, rfl,
    State.chan_modChan_same u c _ (hframe.nch ▸ hc)⟩

end ReceiveHandler

end Sys2Proof.Machine

namespace Sys2Proof.Proofs

open Sys2Proof.Machine

/-- Settles O25: every unit is wanted, so the drain empties the queue and the limit is set from what is left. -/
theorem fifoDrainShrinksTheLimit : Obligations.FifoDrainShrinksTheLimit := by
  intro s c hc hd hm hlock hbusy hcap hfit hshort
  have hch := State.chan_enter_same s c .rx hc
  obtain ⟨m, hbody, hstores⟩ := solicitedFifo_short (s := s.enter c .rx) (c := c) hm (hch ▸ hfit) (hch ▸ hshort)
  rw [← rxHandler_fifo (hch ▸ ChanFlags.rxInFlight_of_locked_busy hlock hbusy) (hch ▸ hcap)] at hbody
  rw [hch] at hstores
  refine ⟨_, exec_irqRx hc hd hbody,
    (((((HandlerFrame.refl c s).enter .rx).modChan _).withMem m).modChan _).leave, rfl, hstores, ?_⟩
  rw [State.chan_leave, State.chan_modChan_same _ c _ (by simpa using hc), State.chan_withMem,
    State.chan_modChan_same _ c _ (by simpa using hc), hch]
  rfl

/-- Settles O26: the drain stops at the length, and the completion follows it. -/
theorem fifoDrainCompletesAtTheLength : Obligations.FifoDrainCompletesAtTheLength := by
  intro s c hc hd hm hs hlock hbusy hcap hfit hlt hfull
  have hch := State.chan_enter_same s c .rx hc
  obtain ⟨m, hbody, hstores⟩ := solicitedFifo_full (s := s.enter c .rx) (c := c) hm (hch ▸ hfit) (hch ▸ hlt) (hch ▸ hfull)
  rw [← rxHandler_fifo (hch ▸ ChanFlags.rxInFlight_of_locked_busy hlock hbusy) (hch ▸ hcap)] at hbody
  rw [hch] at hstores
  obtain ⟨t, hx, hframe, hactive, hmem, hchan⟩ := irqRx_completes hc hd hs hbody
    ((((HandlerFrame.refl c s).enter .rx).modChan _).withMem m) rfl
  rw [State.chan_withMem, State.chan_modChan_same _ c _ (by simpa using hc), hch] at hframe hchan
  exact ⟨t, hx, hframe, hactive, hstores.congr hmem, hchan.trans (Chan.clearRx_fifo hcap)⟩

/-- Settles O23: only an empty FIFO has nothing to forward. -/
theorem unsolicitedReceiveForwardsOneUnit : Obligations.UnsolicitedReceiveForwardsOneUnit := by
  intro s c hc hd hs hlock hbusy
  have hch := State.chan_enter_same s c .rx hc
  have hbody : rxHandler c (s.enter c .rx) = unsolicited c (s.enter c .rx) := rxHandler_idle (hch ▸ hlock) (hch ▸ hbusy)
  exact ⟨fun hcap hq => irqRx_forwardsNothing hc hd (hbody.trans (unsolicited_empty (hch ▸ hcap) (hch ▸ hq))),
    fun hunit => irqRx_forwardsOneUnit hc hd hs hunit hbody⟩

/-- Settles O24: the mixed path does nothing or is the unsolicited one, which does nothing on an empty FIFO. -/
theorem mixedReceiveFollowsThePolicy : Obligations.MixedReceiveFollowsThePolicy := by
  intro s c hc hd hs hne
  have hch := State.chan_enter_same s c .rx hc
  have hbody : rxHandler c (s.enter c .rx) = mixedReceive c (s.enter c .rx) := rxHandler_mixed (hch ▸ hne)
  have hnoop : s.par.mixed = .noop → mixedReceive c (s.enter c .rx) = .next (s.enter c .rx) := fun hp => by
    simp only [mixedReceive, State.par_enter, hp]
  have hpolicy : s.par.mixed = .unsolicited → mixedReceive c (s.enter c .rx) = unsolicited c (s.enter c .rx) := fun hp => by
    simp only [mixedReceive, State.par_enter, hp]
  refine ⟨fun hnothing => irqRx_forwardsNothing hc hd (hbody.trans ?_),
    fun hp hunit => irqRx_forwardsOneUnit hc hd hs hunit (hbody.trans (hpolicy hp))⟩
  cases hp : s.par.mixed with
  | noop => exact hnoop hp
  | unsolicited =>
    obtain ⟨hcap, hq⟩ := hnothing.resolve_left (by simp [hp])
    exact (hpolicy hp).trans (unsolicited_empty (hch ▸ hcap) (hch ▸ hq))

/-- Settles O27: the byte path stores its unit in either case, and the index decides whether it completes. -/
theorem byteReceiveStoresOneUnit : Obligations.ByteReceiveStoresOneUnit := by
  intro s c hc hd hm hs hlock hbusy hcap hfit hlt
  have hch := State.chan_enter_same s c .rx hc
  have hce : c < (s.enter c .rx).nch := by rwa [State.nch_enter]
  obtain ⟨n, x, m, hbody, hstores, hx⟩ := solicitedByte_eq (s := s.enter c .rx) (c := c) hce hm (hch ▸ hfit) (hch ▸ hlt)
  rw [← rxHandler_byte (hch ▸ ChanFlags.rxInFlight_of_locked_busy hlock hbusy) (hch ▸ hcap), hch] at hbody
  rw [hch] at hstores hx
  have hidx := (s.chan c).rx.advance_idx hlt
  have hmoved := ((((HandlerFrame.refl c s).enter .rx).draws n).modChan Chan.takeUnit).withMem m
  have hchan : ((({ s.enter c .rx with draws := n } : State).modChan c Chan.takeUnit).withMem m).chan c =
      ((s.chan c).unpend .rx).takeUnit :=
    (State.chan_modChan_same { s.enter c .rx with draws := n } c _ hce).trans (congrArg Chan.takeUnit hch)
  by_cases hlast : (s.chan c).rx.advance.idx = (s.chan c).rx.len
  · obtain ⟨t, hexec, hframe, hactive, hmem, hend⟩ :=
      irqRx_completes hc hd hs (hbody.trans (if_pos hlast)) hmoved rfl
    rw [hchan] at hframe hend
    rw [hlast] at hidx
    exact ⟨t, x, hexec, hactive, hx, hstores.congr hmem, fun hmore => absurd hidx (by omega),
      fun _ => ⟨hframe, hend.trans (Chan.clearRx_takeUnit hcap hlast)⟩⟩
  · have hmore : (s.chan c).rx.idx.toNat + 1 ≠ (s.chan c).rx.len.toNat := fun h => hlast (BitVec.eq_of_toNat_eq (hidx.trans h))
    exact ⟨_, x, exec_irqRx hc hd (hbody.trans (if_neg hlast)), rfl, hx, hstores.congr rfl,
      fun _ => ⟨hmoved.leave, hchan.trans (Chan.takeUnit_unpend _)⟩, fun h => absurd h hmore⟩

end Sys2Proof.Proofs

namespace Sys2Proof.Machine

/-! The protocol handler as an equation per outcome of the scan (R155 to R158), for a consumer that issues nothing. -/

section ProtocolHandler

variable {s u : State} {c i : Nat} {ev : Event} {ch : Chan}

/-- The scan order is the order of the indices into PSTAT (R156). -/
theorem faultTable_ascending : faultTable.Pairwise fun x y => x.1 < y.1 := by decide

/-- The table names the five conditions of PSTAT (R27, R156). -/
theorem faultTable_index_lt : ∀ x ∈ faultTable, x.1 < 5 := by decide

/-- A flagged and enabled entry with none at a lower index is the one found: the entries before it have lower indices. -/
theorem Chan.firstFault_eq_some (hm : (i, ev) ∈ faultTable) (hf : ch.protoFlagged i = true) (he : ch.protoEnabled i = true)
    (hfirst : ∀ j < i, ¬(ch.protoFlagged j = true ∧ ch.protoEnabled j = true)) : ch.firstFault = some (i, ev) := by
  obtain ⟨before, after, htable⟩ := List.append_of_mem hm
  have hlower : ∀ x ∈ before, x.1 < i := fun x hx =>
    (List.pairwise_append.1 (htable ▸ faultTable_ascending)).2.2 x hx (i, ev) List.mem_cons_self
  refine List.find?_eq_some_iff_append.2 ⟨Bool.and_eq_true_iff.2 ⟨hf, he⟩, before, after, htable, fun x hx => ?_⟩
  have hclear := mt Bool.and_eq_true_iff.1 (hfirst x.1 (hlower x hx))
  simpa only [Bool.not_eq_true', Bool.not_eq_true] using hclear

/-- With no condition both flagged and enabled, none is found. -/
theorem Chan.firstFault_eq_none (h : ∀ j < 5, ¬(ch.protoFlagged j = true ∧ ch.protoEnabled j = true)) :
    ch.firstFault = none :=
  List.find?_eq_none.2 fun x hx hmatch => h x.1 (faultTable_index_lt x hx) (Bool.and_eq_true_iff.1 hmatch)

/-- A scan that finds nothing (R158). -/
theorem protoScan_none (h : (s.chan c).firstFault = none) : protoScan c s = .next s := by
  simp only [protoScan, h]

/-- A scan that finds a condition, as one update of the channel and one report (R157). -/
theorem protoScan_some_silent (hs : s.consumerSilent) (h : (s.chan c).firstFault = some (i, ev)) : protoScan c s =
    .next ((s.modChan c fun ch => ch.clearFlag i).notify { ch := c, event := ev, ptr := 0, data := 0 }) := by
  simp only [protoScan, h]
  exact callback_silent _ (s.modChan c _) hs

/-- A dispatchable protocol vector runs the scan and returns (R155, R173, R176). -/
theorem exec_irqProto (hc : c < s.nch) (hmon : s.par.protoMon = true) (hd : s.dispatchable c .pr = true)
    (hscan : protoScan c (s.enter c .pr) = .next u) : exec (.irqProto c) s = .next u.leave := by
  refine (if_pos hmon).trans ((dispatchVector_eq c .pr _ s hc hd).trans ?_)
  rw [hscan]
  rfl

end ProtocolHandler

end Sys2Proof.Machine

namespace Sys2Proof.Proofs

open Sys2Proof.Machine

/-- Settles O28: dispatch leaves the flags and the enables alone, so the scan of the entered channel finds what the statement
names, or nothing. -/
theorem protocolScanReportsTheFirstMatch : Obligations.ProtocolScanReportsTheFirstMatch := by
  intro s c hc hmon hd hs
  have hch := State.chan_enter_same s c .pr hc
  refine ⟨fun i ev hm hf he hfirst => ?_, fun hnone => ?_⟩
  · have hfault : ((s.chan c).unpend .pr).firstFault = some (i, ev) := Chan.firstFault_eq_some hm hf he hfirst
    have hscan := protoScan_some_silent (s := s.enter c .pr) hs (hch ▸ hfault)
    refine ⟨_, exec_irqProto hc hmon hd hscan,
      ⟨((((HandlerFrame.refl c s).enter .pr).modChan _).notify _).leave, rfl, fun _ => rfl⟩, ?_⟩
    rw [State.chan_leave, State.chan_notify, State.chan_modChan_same _ c _ (by rwa [State.nch_enter]), hch]
    rfl
  · have hfault : ((s.chan c).unpend .pr).firstFault = none := Chan.firstFault_eq_none hnone
    exact ⟨_, exec_irqProto hc hmon hd (protoScan_none (hch ▸ hfault)), .of_modChan, State.chan_modChan_same s c _ hc⟩

end Sys2Proof.Proofs

namespace Sys2Proof.Machine

/-! Dispatch (R173), the host's turn (R178), a command that fails (R166), and the interrupt table (R183). -/

section Turns

variable {s : State} {c : Nat} {k : Vec} {i : Instr}

theorem VecRegs.wants_iff {v : VecRegs} : v.wants = true ↔ v.en = true ∧ v.pend = true := Bool.and_eq_true_iff

/-- A priority may preempt what runs now (R173). -/
theorem State.outranksRunning_iff {p : BitVec 8} : s.outranksRunning p = true ↔
    s.active = [] ∨ ∃ h rest, s.active = h :: rest ∧ p < ((s.chan h.1).vec h.2).prio := by
  unfold State.outranksRunning
  split
  · next ha => simp [ha]
  · next h rest ha => simp [ha]

/-- No enabled and pending vector has a lower priority number than `p` (R173). -/
theorem State.noneMoreUrgent_iff {p : BitVec 8} :
    (s.allVecs.all fun o => !(((s.chan o.1).vec o.2).wants && decide (((s.chan o.1).vec o.2).prio < p))) = true ↔
      ∀ d < s.nch, ∀ j, ((s.chan d).vec j).en = true → ((s.chan d).vec j).pend = true →
        ¬((s.chan d).vec j).prio < p := by
  simp only [List.all_eq_true, Prod.forall, State.mem_allVecs, VecRegs.wants_iff, Bool.not_eq_true', Bool.and_eq_false_imp,
    decide_eq_false_iff_not, and_imp]
  exact ⟨fun h d hd j => h d j hd, fun h d j hd => h d hd j⟩

/-- The three conditions of R173. -/
theorem State.dispatchable_iff : s.dispatchable c k = true ↔
    (((s.chan c).vec k).en = true ∧ ((s.chan c).vec k).pend = true) ∧
    (s.active = [] ∨ ∃ h rest, s.active = h :: rest ∧ ((s.chan c).vec k).prio < ((s.chan h.1).vec h.2).prio) ∧
    ∀ d < s.nch, ∀ j, ((s.chan d).vec j).en = true → ((s.chan d).vec j).pend = true →
      ¬((s.chan d).vec j).prio < ((s.chan c).vec k).prio := by
  simp only [State.dispatchable, Bool.and_eq_true, VecRegs.wants_iff, State.outranksRunning_iff, State.noneMoreUrgent_iff,
    and_assoc]

/-- On a channel that exists a handler whose vector is not dispatchable is refused for that reason (log 2). -/
theorem dispatchVector_undispatchable {body : State → Result} (hc : c < s.nch) (hd : s.dispatchable c k = false) :
    dispatchVector c k body s = .refused .notDispatchable :=
  (if_neg (Nat.not_le.2 hc)).trans (if_neg (Bool.eq_false_iff.1 hd))

/-- So is the operation that dispatches it; IRQ.PROTO without protocol monitoring is refused alike (R155, R159). -/
theorem exec_irqOf_undispatchable (hc : c < s.nch) (hd : s.dispatchable c k = false) :
    exec (irqOf c k) s = .refused .notDispatchable := by
  cases k with
  | tx => exact dispatchVector_undispatchable hc hd
  | rx => exact (dispatchVector_undispatchable hc hd : execIrqRx c s = _)
  | pr =>
    cases hmon : s.par.protoMon with
    | false => exact execIrqProto_unmonitored hmon
    | true => exact (if_pos hmon).trans (dispatchVector_undispatchable hc hd)

/-- The strict reading of R178 (log 8). -/
theorem State.hostEnabled_strict (hstrict : s.par.hostRelaxed = false) :
    s.hostEnabled = true ↔ s.active = [] ∧ ∀ c < s.nch, ∀ k, s.dispatchable c k = false := by
  rw [← State.anyDispatchable_eq_false]
  simp [State.hostEnabled, hstrict]

/-- On a channel that exists a command is refused as held off where the host may not step (R178, log 2). -/
theorem hostCommand_heldOff {f : State → State × Status} (hc : c < s.nch) (he : s.hostEnabled = false) :
    hostCommand c f s = .refused .hostHeldOff :=
  (if_neg (Nat.not_le.2 hc)).trans (if_neg (Bool.eq_false_iff.1 he))

/-- A well-formed command is a host command on its channel: its buffer, if it has one, fits (R64 (f), R178). -/
theorem exec_command_eq (hi : i.isCommand = true) (hwf : i.wf s.nch = true) : ∃ f, exec i s = hostCommand i.ch f s := by
  cases i with
  | initOpen _ | initClose _ | initInvalid _ _ | setBaud _ _ | abortTx _ | abortRx _ | abortTxRx _ => exact ⟨_, rfl⟩
  | tx _ _ _ | rx _ _ _ => exact ⟨_, boundedRequest_of_fits (Bool.and_eq_true_iff.1 hwf).2⟩
  | irqTx _ | irqRx _ | irqProto _ | txDone _ | envTxShift _ | envRxArrive _ _ | envRxArriveAlt _ _ | envPFlag _ _ => cases hi

/-- A command that does not answer Success has at most counted a draw (R166). -/
theorem commandEffect_failed {r : State × Status} (h : commandEffect i s = some r) (hst : r.2 ≠ .success) :
    ∃ n, r.1 = { s with draws := n } := by
  cases i with
  | initOpen c =>
    cases h
    unfold cmdInitOpen at hst
    split at hst <;> exact absurd rfl hst
  | initClose c =>
    cases h
    unfold cmdInitClose at hst ⊢
    split
    · exact ⟨s.draws, rfl⟩
    · next hs => simp [hs] at hst
  | initInvalid c v => cases h; exact ⟨s.draws, rfl⟩
  | setBaud c v =>
    cases h
    by_cases hv : v ∈ s.par.baudWl
    · cases hx : (s.chan c).flags.anyTransfer with
      | true => exact ⟨s.draws, by rw [cmdSetBaud_of_transfer hv hx]⟩
      | false =>
        rw [cmdSetBaud_of_idle hv hx] at hst ⊢
        split at hst
        · exact absurd rfl hst
        · next hno => exact ⟨s.draws + 1, by rw [if_neg hno]; rfl⟩
    · exact ⟨s.draws, by rw [cmdSetBaud_of_unlisted hv]⟩
  | tx c a b =>
    cases h
    cases hrej : requestRejected a b (s.chan c).flags.init ((s.chan c).flags.txBusy || (s.chan c).flags.txLock) with
    | some st => exact ⟨s.draws, by rw [cmdTx_of_rejected hrej]⟩
    | none => exact absurd (by rw [cmdTx_of_accepted hrej]) hst
  | rx c a b =>
    cases h
    cases hrej : requestRejected a b (s.chan c).flags.init ((s.chan c).flags.rxBusy || (s.chan c).flags.rxLock) with
    | some st => exact ⟨s.draws, by rw [cmdRx_of_rejected hrej]⟩
    | none => exact absurd (by rw [cmdRx_of_accepted hrej]) hst
  | abortTx _ | abortRx _ | abortTxRx _ => cases h; exact absurd rfl hst
  | irqTx _ | irqRx _ | irqProto _ | txDone _ | envTxShift _ | envRxArrive _ _ | envRxArriveAlt _ _ | envPFlag _ _ => cases h

/-- Where the interrupt numbers are distinct, the table finds the vector its number belongs to (R170, R183). -/
theorem State.vectorOfIrq_irqNumber (hc : c < s.nch) (hdistinct : s.irqNumbers.Nodup) :
    s.vectorOfIrq ((s.chan c).irqNumber k) = some (c, k) := by
  have hmem : (c, k) ∈ s.allVecs := (s.mem_allVecs c k).2 hc
  unfold State.vectorOfIrq
  cases hfind : s.allVecs.find? fun v => (s.chan v.1).irqNumber v.2 == (s.chan c).irqNumber k with
  | none => exact absurd (beq_self_eq_true _) (List.find?_eq_none.1 hfind (c, k) hmem)
  | some v =>
    have hsame := List.find?_some hfind
    exact congrArg some (List.inj_on_of_nodup_map hdistinct (List.mem_of_find?_eq_some hfind) hmem (eq_of_beq hsame))

end Turns

end Sys2Proof.Machine

namespace Sys2Proof.Proofs

open Sys2Proof.Machine

/-- Settles O35: the model's test says R173 condition by condition, and dispatch makes it first. -/
theorem handlerRunsOnlyWhenDispatchable : Obligations.HandlerRunsOnlyWhenDispatchable := fun _ _ _ hc =>
  ⟨State.dispatchable_iff, exec_irqOf_undispatchable hc⟩

/-- Settles O36: a well-formed command is carried out or held off, as the host may step or not. -/
theorem hostWaitsForInterrupts : Obligations.HostWaitsForInterrupts := by
  intro s i hwf hi hstrict
  have hc := Instr.ch_lt_of_wf hwf
  obtain ⟨f, hexec⟩ := exec_command_eq hi hwf
  rw [hexec, ← State.hostEnabled_strict hstrict]
  cases he : s.hostEnabled with
  | true => simp [hostCommand_eq _ _ _ hc he]
  | false => simp [hostCommand_heldOff hc he]

/-- Settles O42: distinct numbers make the table's search unambiguous. -/
theorem interruptNumberNamesItsVector : Obligations.InterruptNumberNamesItsVector := fun _ _ _ =>
  State.vectorOfIrq_irqNumber

/-- Settles O43: the status on the port is the command's own, and no branch that answers it writes a register. -/
theorem failedCommandChangesNothing : Obligations.FailedCommandChangesNothing := by
  intro s t i st hi hexec hlog hst
  obtain ⟨r, hr, -, -, -, rfl⟩ := exec_command_next hi hexec
  have hport : r.1.statusLog = s.statusLog := by
    obtain ⟨n, f, hf, -⟩ := commandEffect_result i s r hr
    rw [hf]
    rfl
  have hown : r.2 = st := by
    rw [State.statusLog_reply, hport] at hlog
    simpa using hlog
  obtain ⟨n, hn⟩ := commandEffect_failed hr (hown ▸ hst)
  rw [hn]
  rfl

end Sys2Proof.Proofs

namespace Sys2Proof.Machine

/-! Pending bits, enables, ACTIVE and the callback port (R167, R171 to R180). Between entry and return a handler pends and enables
at most, leaves ACTIVE alone and emits at most one record of its channel, and so do commands and the environment, which emit
none. It holds of every state, so the operations are followed without the invariant. -/

/-- No pending bit is cleared and the vector is not disabled (R171, R172). -/
structure VecRegs.Raises (v v' : VecRegs) : Prop where
  pend : v.pend = true → v'.pend = true
  en : v.en = true → v'.en = true

/-- So it is with every vector of a channel, and its transmit handler waits or not as before. -/
structure Chan.Raises (ch ch' : Chan) : Prop where
  txWait : ch'.txWait = ch.txWait
  vec : ∀ k, (ch.vec k).Raises (ch'.vec k)

/-- So it is with every channel, no handler is entered or left, and the records `rs` go to the callback port. -/
structure State.Emits (rs : List CbRec) (s t : State) : Prop where
  active : t.active = s.active
  cbLog : t.cbLog = s.cbLog ++ rs
  chan : ∀ d, (s.chan d).Raises (t.chan d)

/-- What a handler of channel `c` does between its entry and its return: at most one record, of that channel (R180). -/
def State.Serves (c : Nat) (s t : State) : Prop := s.Emits [] t ∨ ∃ r : CbRec, r.ch = c ∧ s.Emits [r] t

section Raising

variable {v : VecRegs} {ch ch' ch'' : Chan}

theorem VecRegs.Raises.refl (v : VecRegs) : v.Raises v := ⟨id, id⟩

/-- An event pends its vector or leaves it (R171). -/
theorem VecRegs.Raises.raised (v : VecRegs) (b : Bool) : v.Raises (v.raised b) := ⟨fun h => by simp [VecRegs.raised, h], id⟩

/-- Enabling a vector (R115). -/
theorem VecRegs.Raises.enabled (v : VecRegs) (p : BitVec 8) : v.Raises { v with en := true, prio := p } := ⟨id, fun _ => rfl⟩

theorem Chan.Raises.of_vectors (hw : ch'.txWait = ch.txWait) (htx : ch.vTx.Raises ch'.vTx) (hrx : ch.vRx.Raises ch'.vRx)
    (hpr : ch.vPr.Raises ch'.vPr) : ch.Raises ch' where
  txWait := hw
  vec
    | .tx => htx
    | .rx => hrx
    | .pr => hpr

/-- The interrupt registers are not written. -/
theorem Chan.Raises.of_eq (hw : ch'.txWait = ch.txWait) (htx : ch'.vTx = ch.vTx) (hrx : ch'.vRx = ch.vRx)
    (hpr : ch'.vPr = ch.vPr) : ch.Raises ch' :=
  .of_vectors hw (htx ▸ .refl _) (hrx ▸ .refl _) (hpr ▸ .refl _)

theorem Chan.Raises.trans (h : ch.Raises ch') (h' : ch'.Raises ch'') : ch.Raises ch'' :=
  ⟨h'.txWait.trans h.txWait, fun k => ⟨(h'.vec k).pend ∘ (h.vec k).pend, (h'.vec k).en ∘ (h.vec k).en⟩⟩

/-- Opening enables vectors (R75). -/
theorem Chan.raises_openClosed (ch : Chan) (protoMon : Bool) : ch.Raises (ch.openClosed protoMon) := by
  rw [openClosed_eq]
  refine .of_vectors rfl (.enabled _ _) (.enabled _ _) ?_
  cases protoMon
  · exact .refl _
  · exact .enabled _ _

/-- An accepted TX pends the transmit vector (R85). -/
theorem Chan.raises_acceptTx (ch : Chan) (a b : Word) : ch.Raises (ch.acceptTx a b) := by
  rw [acceptTx_registers]
  exact .of_vectors rfl ⟨fun _ => rfl, id⟩ (.refl _) (.refl _)

/-- An accepted RX writes no interrupt register (R86). -/
theorem Chan.raises_acceptRx (ch : Chan) (a b : Word) : ch.Raises (ch.acceptRx a b) := by
  rw [acceptRx_registers]
  exact .of_eq rfl rfl rfl rfl

/-- A shift pends the transmit vector or leaves it (R117). -/
theorem Chan.raises_shiftOut (ch : Chan) (u : Byte) : ch.Raises (ch.shiftOut u) := by
  rw [Chan.shiftOut, Chan.pendIf_tx]
  exact .of_vectors rfl (.raised _ _) (.refl _) (.refl _)

/-- An arrival pends the receive vector or leaves it (R118). -/
theorem Arrives.raises {u : Byte} {alt : Bool} (h : Arrives u alt ch ch') : ch.Raises ch' := by
  unfold Arrives at h
  split at h
  · obtain ⟨keep, -, rfl⟩ := h
    exact .of_vectors rfl (.refl _) (.raised _ _) (.refl _)
  · subst h
    exact .of_vectors rfl (.refl _) (.raised _ _) (.refl _)

/-- A detected condition pends the protocol vector or leaves it (R119). -/
theorem Chan.raises_detect (ch : Chan) (protoMon : Bool) (i : Nat) : ch.Raises (ch.detect protoMon i) := by
  rw [Chan.detect_eq]
  exact .of_vectors rfl (.refl _) (.refl _) (.raised _ _)

end Raising

section Emitting

variable {s t u : State} {c : Nat} {rs : List CbRec}

theorem State.Emits.of_chans (hc : t.chans = s.chans) (ha : t.active = s.active) (hl : t.cbLog = s.cbLog ++ rs) :
    s.Emits rs t :=
  ⟨ha, hl, fun d => by simp only [State.chan, hc]; exact .of_eq rfl rfl rfl rfl⟩

theorem State.Emits.refl (s : State) : s.Emits [] s := .of_chans rfl rfl (List.append_nil _).symm

/-- Something silent comes first. -/
theorem State.Emits.after (h : t.Emits rs u) (h' : s.Emits [] t) : s.Emits rs u :=
  ⟨h.active.trans h'.active, by rw [h.cbLog, h'.cbLog, List.append_nil], fun d => (h'.chan d).trans (h.chan d)⟩

/-- Something silent comes last. -/
theorem State.Emits.before (h : s.Emits rs t) (h' : t.Emits [] u) : s.Emits rs u :=
  ⟨h'.active.trans h.active, by rw [h'.cbLog, List.append_nil, h.cbLog], fun d => (h.chan d).trans (h'.chan d)⟩

/-- An update of one channel. -/
theorem State.Emits.of_modChan {f : Chan → Chan} (hf : (s.chan c).Raises (f (s.chan c))) : s.Emits [] (s.modChan c f) := by
  by_cases hc : c < s.nch
  · refine ⟨rfl, (List.append_nil _).symm, fun d => ?_⟩
    rw [State.chan_modChan s c d f hc]
    split
    · next hd => exact hd ▸ hf
    · exact .of_eq rfl rfl rfl rfl
  · rw [State.modChan_of_nch_le f (Nat.not_lt.1 hc)]
    exact .refl s

/-- An update of one channel with a count of draws. -/
theorem State.Emits.of_drawn_modChan {n : Nat} {f : Chan → Chan} (hf : (s.chan c).Raises (f (s.chan c))) :
    s.Emits [] ({ s with draws := n }.modChan c f) :=
  .after (.of_modChan (s := { s with draws := n }) hf) (.of_chans rfl rfl (List.append_nil _).symm)

/-- Units that moved to memory under an update of their channel. -/
theorem State.Emits.moved {f : Chan → Chan} (m : Memory) (hf : (s.chan c).Raises (f (s.chan c))) :
    s.Emits [] ((s.modChan c f).withMem m) :=
  .before (.of_modChan hf) (.of_chans rfl rfl (List.append_nil _).symm)

/-! Commands and callbacks. -/

/-- ABORT.TX writes no interrupt register (R87). -/
theorem State.emits_cmdAbortTx (c : Nat) (s : State) : s.Emits [] (cmdAbortTx c s).1 := by
  obtain ⟨n, f, hf, -⟩ := cmdAbortTx_eq c s
  rw [hf]
  exact .of_drawn_modChan (.of_eq rfl rfl rfl rfl)

/-- SETBAUD writes none either (R78). -/
theorem State.emits_cmdSetBaud (c : Nat) (v : Word) (s : State) : s.Emits [] (cmdSetBaud c v s).1 := by
  unfold cmdSetBaud
  split
  · exact .refl s
  · split
    · exact .refl s
    · split
      · exact .of_drawn_modChan (.of_eq rfl rfl rfl rfl)
      · exact .of_chans rfl rfl (List.append_nil _).symm

/-- Every command, whoever issues it (R75 to R90). -/
theorem commandEffect_emits {i : Instr} {r : State × Status} (h : commandEffect i s = some r) : s.Emits [] r.1 := by
  cases i with
  | initOpen c =>
    cases h
    unfold cmdInitOpen
    split
    · exact .refl s
    · exact .of_modChan (Chan.raises_openClosed _ _)
  | initClose c =>
    cases h
    unfold cmdInitClose
    split
    · exact .refl s
    · next ch hs =>
      obtain ⟨-, rfl⟩ := stop_some _ _ hs
      exact .of_modChan (.of_eq rfl rfl rfl rfl)
  | initInvalid c v => cases h; exact .refl s
  | setBaud c v => cases h; exact s.emits_cmdSetBaud c v
  | tx c a b =>
    cases h
    unfold cmdTx
    dsimp only
    split
    · exact .refl s
    · exact .of_modChan (Chan.raises_acceptTx _ a b)
  | rx c a b =>
    cases h
    unfold cmdRx
    dsimp only
    split
    · exact .refl s
    · exact .of_modChan (Chan.raises_acceptRx _ a b)
  | abortTx c => cases h; exact s.emits_cmdAbortTx c
  | abortRx c => cases h; exact .of_modChan (.of_eq rfl rfl rfl rfl)
  | abortTxRx c => cases h; exact (s.emits_cmdAbortTx c).before (.of_modChan (.of_eq rfl rfl rfl rfl))
  | irqTx _ | irqRx _ | irqProto _ | txDone _ | envTxShift _ | envRxArrive _ _ | envRxArriveAlt _ _ | envPFlag _ _ => cases h

/-- A status on its port is no record and touches no channel. -/
theorem State.emits_reply (s : State) (x : Ctx) (st : Status) : s.Emits [] (s.reply x st) :=
  .of_chans rfl rfl (List.append_nil _).symm

/-- A host command on the main line (R178). -/
theorem OnMainLine.emits {i : Instr} (h : OnMainLine i s t) : s.Emits [] t := by
  obtain ⟨r, hr, -, -, -, rfl⟩ := h
  exact (commandEffect_emits hr).before (r.1.emits_reply _ _)

/-- A consumer's nested commands emit no record (R167, R181). -/
theorem nestedCommands_emits {ws : List (BitVec 80)} (h : nestedCommands ws s = .next t) : s.Emits [] t := by
  induction ws generalizing s with
  | nil => cases h; exact .refl _
  | cons w ws ih =>
    obtain ⟨u, hu, ht⟩ := (andThen_next _ _ _).1 h
    obtain ⟨i, r, -, -, hr, rfl⟩ := nestedCommand_next _ _ _ hu
    exact ((commandEffect_emits hr).before (r.1.emits_reply _ _)).before (ih ht)

/-- A callback emits its record alone (R180). -/
theorem callback_emits {r : CbRec} (h : callback r s = .next t) : s.Emits [r] t :=
  .before (t := s.notify r) (.of_chans rfl rfl rfl) (nestedCommands_emits h)

/-! Environment steps. -/

/-- An arrival (R118). -/
theorem State.emits_arrive (s : State) (c : Nat) (x : Byte) (alt : Bool) : s.Emits [] (s.arrive c x alt) := by
  obtain ⟨n, f, hf, harrives⟩ := s.arrive_eq c x alt
  rw [hf]
  exact .of_drawn_modChan harrives.raises

/-- The wire's delivery (R120). -/
theorem State.emits_deliver (s : State) (d : Nat) (x : Byte) : s.Emits [] (s.deliver d x) := by
  unfold State.deliver
  split
  · exact s.emits_arrive d x false
  · exact .refl s

/-- A shift, the wire's delivery included (R117, R120). -/
theorem emits_shiftUnit (c : Nat) (s : State) : s.Emits [] (shiftUnit c s) := by
  unfold shiftUnit
  split
  · exact .refl s
  · next x q _ =>
    have hshift : s.Emits [] (s.modChan c fun ch => ch.shiftOut x) := .of_modChan (Chan.raises_shiftOut _ x)
    dsimp only
    split
    · exact hshift
    · next d _ => exact hshift.before (State.emits_deliver _ d x)

/-- ENV.TXSHIFT (R117). -/
theorem execEnvTxShift_emits (h : execEnvTxShift c s = .next t) : s.Emits [] t := by
  obtain ⟨-, -, rfl⟩ := environmentStep_next _ _ _ _ _ _ h
  exact emits_shiftUnit c s

/-- ENV.RXARRIVE (R118). -/
theorem execEnvRxArrive_emits {x : Byte} (h : execEnvRxArrive c x s = .next t) : s.Emits [] t := by
  obtain ⟨-, -, rfl⟩ := environmentStep_next _ _ _ _ _ _ h
  exact s.emits_arrive c x false

/-- ENV.RXARRIVE.ALT (R118). -/
theorem execEnvRxArriveAlt_emits {x : Byte} (h : execEnvRxArriveAlt c x s = .next t) : s.Emits [] t := by
  obtain ⟨-, -, rfl⟩ := environmentStep_next _ _ _ _ _ _ h
  exact s.emits_arrive c x true

/-- ENV.PFLAG (R119). -/
theorem execEnvPFlag_emits {i : Nat} (h : execEnvPFlag c i s = .next t) : s.Emits [] t := by
  unfold execEnvPFlag at h
  split at h
  · obtain ⟨-, -, rfl⟩ := environmentStep_next _ _ _ _ _ _ h
    exact .of_modChan (Chan.raises_detect _ _ i)
  · cases h

end Emitting

/-! Handlers, from entry to return. -/

section Serving

variable {s t u : State} {c : Nat}

theorem State.Serves.refl (c : Nat) (s : State) : s.Serves c s := .inl (.refl s)

theorem State.Serves.after (h : t.Serves c u) (h' : s.Emits [] t) : s.Serves c u :=
  h.imp (·.after h') fun ⟨r, hr, hrec⟩ => ⟨r, hr, hrec.after h'⟩

/-- A callback about the handler's channel, with something silent after it. -/
theorem State.Serves.of_callback {r : CbRec} (hr : r.ch = c) (h : callback r s = .next t) (h' : t.Emits [] u) : s.Serves c u :=
  .inr ⟨r, hr, (callback_emits h).before h'⟩

theorem State.Serves.active (h : s.Serves c t) : t.active = s.active := by
  obtain h | ⟨r, -, h⟩ := h <;> exact h.active

theorem State.Serves.chan (h : s.Serves c t) (d : Nat) : (s.chan d).Raises (t.chan d) := by
  obtain h | ⟨r, -, h⟩ := h <;> exact h.chan d

theorem State.Serves.cbLog (h : s.Serves c t) : t.cbLog = s.cbLog ∨ ∃ r : CbRec, t.cbLog = s.cbLog ++ [r] ∧ r.ch = c := by
  obtain h | ⟨r, hr, h⟩ := h
  · exact .inl (h.cbLog.trans (List.append_nil _))
  · exact .inr ⟨r, h.cbLog, hr⟩

/-- The protocol scan (R157, R158). -/
theorem protoScan_serves (h : protoScan c s = .next t) : s.Serves c t := by
  unfold protoScan at h
  split at h
  · cases h; exact .refl c s
  · exact (State.Serves.of_callback rfl h (.refl t)).after (.of_modChan (.of_eq rfl rfl rfl rfl))

/-- A pop writes no interrupt register (R103). -/
theorem State.emits_rxPop (s : State) (c : Nat) : s.Emits [] (s.rxPop c).2 := by
  obtain ⟨n, x, hpop, -⟩ := rxPop_eq s c
  rw [hpop]
  exact .of_drawn_modChan (.of_eq rfl rfl rfl rfl)

/-- One unit is forwarded (R141, R142). -/
theorem forwardPopped_serves (h : forwardUnit c (s.rxPop c).1 (s.rxPop c).2 = .next t) : s.Serves c t :=
  (State.Serves.of_callback rfl h (.refl t)).after
    ((s.emits_rxPop c).before (.of_chans rfl rfl (List.append_nil _).symm))

/-- The unsolicited paths (R141, R142). -/
theorem unsolicited_serves (h : unsolicited c s = .next t) : s.Serves c t := by
  unfold unsolicited unsolicitedFifo unsolicitedByte at h
  split at h
  · split at h
    · cases h; exact .refl c s
    · exact forwardPopped_serves h
  · exact forwardPopped_serves h

/-- The mixed path (R143). -/
theorem mixedReceive_serves (h : mixedReceive c s = .next t) : s.Serves c t := by
  unfold mixedReceive at h
  split at h
  · cases h; exact .refl c s
  · exact unsolicited_serves h

/-- Completion of a receive (R147). -/
theorem completeRx_serves (h : completeRx c s = .next t) : s.Serves c t := by
  obtain ⟨u, hu, ht⟩ := (andThen_next _ _ _).1 h
  cases ht
  exact .of_callback rfl hu (.of_modChan (.of_eq rfl rfl rfl rfl))

/-- The FIFO path of a receive in flight (R144). -/
theorem solicitedFifo_serves (h : solicitedFifo c s = .next t) : s.Serves c t := by
  unfold solicitedFifo at h
  split at h
  · cases h
  · next q tcb m _ =>
    have hmoved : s.Emits [] ((s.modChan c fun ch => { ch with rxq := q, rx := tcb }).withMem m) :=
      .moved m (.of_eq rfl rfl rfl rfl)
    dsimp only at h
    split at h
    · cases h; exact .inl (hmoved.before (.of_modChan (.of_eq rfl rfl rfl rfl)))
    · split at h
      · exact (completeRx_serves h).after hmoved
      · cases h

/-- The byte path of a receive in flight (R146). -/
theorem solicitedByte_serves (h : solicitedByte c s = .next t) : s.Serves c t := by
  unfold solicitedByte at h
  dsimp only at h
  split at h
  · cases h
  · next m _ =>
    have hmoved : s.Emits [] (((s.rxPop c).2.modChan c fun ch => { ch with rx := ch.rx.advance }).withMem m) :=
      (s.emits_rxPop c).before (.moved m (.of_eq rfl rfl rfl rfl))
    split at h
    · exact (completeRx_serves h).after hmoved
    · cases h; exact .inl hmoved

/-- The receive handler's body (R140). -/
theorem rxHandler_serves (h : rxHandler c s = .next t) : s.Serves c t := by
  unfold rxHandler at h
  dsimp only at h
  split at h
  · split at h
    · exact solicitedFifo_serves h
    · exact solicitedByte_serves h
  · split at h
    · exact unsolicited_serves h
    · exact mixedReceive_serves h

/-- Completion of a transmit (R134). -/
theorem completeTx_serves (h : completeTx c s = .next t) : s.Serves c t := by
  obtain ⟨u, hu, ht⟩ := (andThen_next _ _ _).1 h
  cases ht
  exact (State.Serves.of_callback rfl hu (.of_modChan (.of_eq rfl rfl rfl rfl))).after
    (.of_modChan (.of_eq rfl rfl rfl rfl))

end Serving

/-! Operations. -/

/-- How an operation meets the interrupt system: it is no handler; or a handler that enters, serves and returns (R175, R176);
or a transmit handler left waiting on ACTIVE (R133); or the end of such a wait (R134). -/
inductive Interrupts (i : Instr) (s t : State) : Prop where
  | none (h : s.Emits [] t)
  | served (c : Nat) (k : Vec) (hi : i = irqOf c k) (hc : c < s.nch) (u : State) (h : (s.enter c k).Serves c u)
    (ht : t = u.leave)
  | suspended (c : Nat) (hi : i = .irqTx c) (hc : c < s.nch)
    (ht : t = (s.enter c .tx).modChan c fun ch => { ch with txWait := true })
  | resumed (c : Nat) (hi : i = .txDone c) (hc : c < s.nch) (htop : s.active.head? = some (c, .tx)) (u : State)
    (h : (s.modChan c fun ch => { ch with txWait := false }).Serves c u) (ht : t = u.leave)

section Operations

variable {s t : State} {c : Nat}

/-- A handler whose body is followed by its return (R175, R176). -/
theorem Interrupts.of_dispatch {k : Vec} {body : State → Result} (hbody : ∀ {v w}, body v = .next w → v.Serves c w)
    (h : dispatchVector c k (fun v => andThen (body v) fun w => .next w.leave) s = .next t) : Interrupts (irqOf c k) s t := by
  obtain ⟨hc, -, hrun⟩ := dispatchVector_next _ _ _ _ _ h
  obtain ⟨u, hu, ht⟩ := (andThen_next _ _ _).1 hrun
  cases ht
  exact .served c k rfl hc u (hbody hu) rfl

/-- IRQ.TX returns but in its last branch (R130 to R134). -/
theorem execIrqTx_interrupts (h : execIrqTx c s = .next t) : Interrupts (.irqTx c) s t := by
  obtain ⟨hc, -, hrun⟩ := dispatchVector_next _ _ _ _ _ h
  obtain ⟨-, rfl⟩ | ⟨-, ⟨-, ch', hfill, rfl⟩ | ⟨-, ⟨-, u, hu, rfl⟩ | ⟨-, rfl⟩⟩⟩ := txHandler_next hrun
  · exact .served c .tx rfl hc _ (.refl c _) rfl
  · obtain ⟨q, n, rfl⟩ := fill_frame hfill
    exact .served c .tx rfl hc _ (.inl (.of_modChan (.of_eq rfl rfl rfl rfl))) rfl
  · exact .served c .tx rfl hc u (completeTx_serves hu) rfl
  · exact .suspended c rfl hc rfl

/-- IRQ.PROTO (R155). -/
theorem execIrqProto_interrupts (h : execIrqProto c s = .next t) : Interrupts (.irqProto c) s t := by
  unfold execIrqProto at h
  split at h
  · exact .of_dispatch (k := .pr) protoScan_serves h
  · cases h

/-- TXDONE (R134). -/
theorem execTxDone_interrupts (h : execTxDone c s = .next t) : Interrupts (.txDone c) s t := by
  have hen : s.txDoneEnabled c = true := by
    by_contra hen
    obtain ⟨r, hr⟩ := execTxDone_refused (Bool.eq_false_iff.2 hen)
    cases hr.symm.trans h
  simp only [State.txDoneEnabled, Bool.and_eq_true, beq_iff_eq] at hen
  obtain ⟨⟨-, htop⟩, -⟩ := hen
  obtain ⟨hc, u, hu, rfl⟩ := execTxDone_next h
  exact .resumed c rfl hc htop u (completeTx_serves hu) rfl

/-- Every operation. -/
theorem exec_interrupts {i : Instr} (h : exec i s = .next t) : Interrupts i s t := by
  cases i with
  | initOpen _ | initClose _ | initInvalid _ _ | setBaud _ _ | tx _ _ _ | rx _ _ _ | abortTx _ | abortRx _ | abortTxRx _ =>
    exact .none (exec_command_next (by rfl) h).emits
  | irqTx c => exact execIrqTx_interrupts h
  | irqRx c => exact .of_dispatch (k := .rx) rxHandler_serves h
  | irqProto c => exact execIrqProto_interrupts h
  | txDone c => exact execTxDone_interrupts h
  | envTxShift c => exact .none (execEnvTxShift_emits h)
  | envRxArrive c x => exact .none (execEnvRxArrive_emits h)
  | envRxArriveAlt c x => exact .none (execEnvRxArriveAlt_emits h)
  | envPFlag c n => exact .none (execEnvPFlag_emits h)

/-- Entry clears the pending bit of the vector entered and touches no other (R175). -/
theorem State.vec_enter (hc : c < s.nch) (k : Vec) (d : Nat) (j : Vec) :
    ((s.enter c k).chan d).vec j = (s.chan d).vec j ∨
      irqOf c k = irqOf d j ∧ ((s.enter c k).chan d).vec j = ((s.chan d).vec j).served := by
  by_cases hd : d = c
  · subst hd
    rw [State.chan_enter_same s d k hc, Chan.unpend, Chan.vec_modVec]
    split
    · next hj => subst hj; exact .inr ⟨rfl, rfl⟩
    · exact .inl rfl
  · exact .inl (by rw [State.chan_enter_ne s c d k hd])

/-- Waiting is no vector register (R29). -/
theorem State.vec_setWait (hc : c < s.nch) (b : Bool) (d : Nat) (k : Vec) :
    ((s.modChan c fun ch => { ch with txWait := b }).chan d).vec k = (s.chan d).vec k := by
  rw [State.chan_modChan s c d _ hc]
  split
  · next hd => subst hd; cases k <;> rfl
  · rfl

/-- Across an operation a vector's registers are raised, from what they were or, if it is the vector's dispatch, from what that
leaves of them (R171, R172, R175). -/
theorem Interrupts.vec {i : Instr} (h : Interrupts i s t) (d : Nat) (j : Vec) :
    ∃ v, (v = (s.chan d).vec j ∨ i = irqOf d j ∧ v = ((s.chan d).vec j).served) ∧ v.Raises ((t.chan d).vec j) := by
  cases h with
  | none h => exact ⟨_, .inl rfl, (h.chan d).vec j⟩
  | served c k hi hc u h ht =>
    subst hi ht
    exact ⟨_, State.vec_enter hc k d j, (h.chan d).vec j⟩
  | suspended c hi hc ht =>
    subst hi ht
    refine ⟨_, State.vec_enter hc .tx d j, ?_⟩
    rw [State.vec_setWait (by rwa [State.nch_enter])]
    exact .refl _
  | resumed c hi hc htop u h ht =>
    subst ht
    exact ⟨_, .inl (State.vec_setWait hc false d j), (h.chan d).vec j⟩

end Operations

end Sys2Proof.Machine

namespace Sys2Proof.Proofs

open Sys2Proof.Machine

/-- Settles O37: what follows a dispatch, or happens without one, only raises the vector's registers. -/
theorem pendingClearedByDispatchAloneEnablesStay : Obligations.PendingClearedByDispatchAloneEnablesStay := by
  intro s t i c k hexec
  obtain ⟨v, rfl | ⟨hi, rfl⟩, hraises⟩ := (exec_interrupts hexec).vec c k
  · exact ⟨fun hp _ => hraises.pend hp, hraises.en⟩
  · exact ⟨fun _ hne => absurd hi hne, hraises.en⟩

/-- Settles O38: a handler that is served leaves ACTIVE as it found it, so only a wait and its end show. -/
theorem onlyAWaitingHandlerStaysActive : Obligations.OnlyAWaitingHandlerStaysActive := by
  intro s t i hexec
  cases exec_interrupts hexec with
  | none h => exact .inl h.active
  | served c k hi hc u h ht =>
    subst ht
    exact .inl (congrArg List.tail h.active)
  | suspended c hi hc ht =>
    subst ht
    refine .inr (.inl ⟨c, hi, rfl, ?_⟩)
    rw [State.chan_modChan_same _ c _ (by rwa [State.nch_enter])]
  | resumed c hi hc htop u h ht =>
    subst ht
    obtain ⟨rest, hactive⟩ := List.head?_eq_some_iff.1 htop
    refine .inr (.inr ⟨c, hi, ?_, ?_⟩)
    · rw [State.active_leave, h.active, State.active_modChan, hactive]
      rfl
    · rw [State.chan_leave, (h.chan c).txWait, State.chan_modChan_same s c _ hc]

/-- Settles O39: commands and the environment emit nothing, and a handler makes at most one callback. -/
theorem onlyHandlersEmitRecords : Obligations.OnlyHandlersEmitRecords := by
  intro s t i hexec
  cases exec_interrupts hexec with
  | none h => exact .inl (h.cbLog.trans (List.append_nil _))
  | served c k hi hc u h ht =>
    subst hi ht
    refine h.cbLog.imp_right fun hrec => ?_
    cases k with
    | tx => exact ⟨⟨c, .inl rfl⟩, hrec⟩
    | rx => exact ⟨⟨c, .inr (.inl rfl)⟩, hrec⟩
    | pr => exact ⟨⟨c, .inr (.inr (.inl rfl))⟩, hrec⟩
  | suspended c hi hc ht => subst ht; exact .inl rfl
  | resumed c hi hc htop u h ht =>
    subst hi ht
    exact h.cbLog.imp_right fun hrec => ⟨⟨c, .inr (.inr (.inr rfl))⟩, hrec⟩

end Sys2Proof.Proofs

namespace Sys2Proof.Machine

/-! What is enabled at reset (R202). -/

section Reset

/-- Every number reads as a channel at reset in the reset state, one that names no channel too (R32, log 30). -/
theorem State.exists_chan_resetWith (p : Params) (ps : List ChanParams) (c : Nat) :
    ∃ q, (State.resetWith p ps).chan c = Chan.reset q := by
  by_cases hc : c < ps.length
  · exact ⟨_, State.chan_resetWith p ps c hc⟩
  · exact ⟨Config.defaultChan c, by
      simp [State.chan, State.resetWith, List.getD_eq_getElem?_getD, List.getElem?_eq_none (Nat.not_lt.1 hc)]⟩

/-- At reset no vector asks for service (R32). -/
theorem State.wants_resetWith (p : Params) (ps : List ChanParams) (c : Nat) (k : Vec) :
    (((State.resetWith p ps).chan c).vec k).wants = false := by
  obtain ⟨q, hq⟩ := State.exists_chan_resetWith p ps c
  rw [hq]
  cases k <;> rfl

theorem State.dispatchable_resetWith (p : Params) (ps : List ChanParams) (c : Nat) (k : Vec) :
    (State.resetWith p ps).dispatchable c k = false := by
  simp [State.dispatchable, State.wants_resetWith p ps c k]

theorem State.hostEnabled_resetWith (p : Params) (ps : List ChanParams) : (State.resetWith p ps).hostEnabled = true :=
  State.hostEnabled_of_quiet rfl fun d _ k => State.wants_resetWith p ps d k

/-- At reset the host may step, and no other agent (R202). -/
theorem State.enabled_resetWith (p : Params) (ps : List ChanParams) (i : Instr) :
    (State.resetWith p ps).enabled i = i.isCommand := by
  obtain ⟨q, hq⟩ := State.exists_chan_resetWith p ps i.ch
  cases i with
  | initOpen _ | initClose _ | initInvalid _ _ | setBaud _ _ | tx _ _ _ | rx _ _ _ | abortTx _ | abortRx _ | abortTxRx _ =>
    exact State.hostEnabled_resetWith p ps
  | irqTx c | irqRx c => exact State.dispatchable_resetWith p ps c _
  | irqProto c => exact Bool.and_eq_false_iff.2 (.inr (State.dispatchable_resetWith p ps c .pr))
  | txDone c | envTxShift c | envRxArrive c _ | envRxArriveAlt c _ | envPFlag c _ =>
    rw [Instr.ch] at hq
    simp [State.enabled, State.txDoneEnabled, State.shiftEnabled, State.arrivalEnabled, Chan.takesUnit, hq, Chan.reset,
      Instr.isCommand]

end Reset

end Sys2Proof.Machine

namespace Sys2Proof.Proofs

open Sys2Proof.Machine

/-- Settles O52: at reset the enabled operations are the commands, and a command that is enabled and well-formed is carried
out. -/
theorem onlyTheHostStepsAfterReset : Obligations.OnlyTheHostStepsAfterReset := by
  intro p ps i hwf
  have hen := State.enabled_resetWith p ps i
  constructor
  · rintro ⟨t, ht⟩
    by_contra hi
    obtain ⟨r, hr⟩ := exec_refused_of_disabled (hen.trans (Bool.eq_false_iff.2 hi))
    cases hr.symm.trans ht
  · intro hi
    rw [← State.nch_resetWith p ps] at hwf
    obtain ⟨f, hf⟩ := exec_command_eq hi hwf
    exact ⟨_, hf.trans (hostCommand_eq _ f _ (Instr.ch_lt_of_wf hwf) (State.hostEnabled_resetWith p ps))⟩

/-- Settles O50: the close writes RUN and INIT, and the open after it only what it loads. -/
theorem closeAndReopenIsNoReset : Obligations.CloseAndReopenIsNoReset := by
  intro s t u c hq hclose hopen
  obtain ⟨-, -, hc, he, -⟩ := exec_command_next rfl hclose
  obtain ⟨-, -, hc', he', -⟩ := exec_command_next rfl hopen
  obtain ⟨t', ht', hframe, hchan⟩ := (closeLooksAtTheTransmitQueueOnly s c hc he).2 hq
  obtain ⟨u', hu', hframe', -, hloaded⟩ := openLoadsAClosedChannel t c hc' he'
  cases hclose.symm.trans ht'
  cases hopen.symm.trans hu'
  have hreopened := hloaded (by rw [hchan])
  rw [hchan] at hreopened
  rw [hreopened, hframe'.active, hframe.active, hframe'.cbLog, hframe.cbLog]
  refine ⟨rfl, rfl, rfl, rfl, rfl, fun k => ?_, rfl, rfl, rfl, rfl, rfl, rfl⟩
  cases k with
  | tx | rx => rfl
  | pr => cases hmon : t.par.protoMon <;> simp [Chan.vec]

end Sys2Proof.Proofs

namespace Sys2Proof.Machine

/-! The requests of a channel: its transfer flags, the receive control block and the receive limit (R13, R14, R19, R25). Only
host commands, the receive handler and the two completions write them, so what an operation can do to them is said once. -/

/-- The registers of the requests are as before. -/
structure Chan.SameRequests (ch ch' : Chan) : Prop where
  par : ch'.par = ch.par
  flags : ch'.flags = ch.flags
  rx : ch'.rx = ch.rx
  rxLim : ch'.rxLim = ch.rxLim

/-- A run of command effects, with changes beside the requests in between. -/
abbrev Chan.RequestRun (p : Params) : Chan → Chan → Prop :=
  Relation.ReflTransGen fun ch ch' => ch.SameRequests ch' ∨ Chan.Commanded p ch ch'

/-- R219 of one channel: the limit asks for no more units than are still wanted. -/
def Chan.LimitWithin (ch : Chan) : Prop :=
  ch.rxFifo = true → ch.flags.rxInFlight = true → ch.rxLim.toNat + 1 ≤ ch.rx.remaining

/-- What an operation can do to the requests of a channel. -/
inductive Chan.Advances (p : Params) (ch ch' : Chan) : Prop where
  /-- Commands at most (R75 to R90). -/
  | commanded (h : Chan.RequestRun p ch ch')
  /-- A transmit in flight completes after its notification's commands (R134). -/
  | sent (hi : ch.flags.txInFlight = true) {v : Chan} (h : Chan.RequestRun p ch v) (ht : ch' = v.clearTx)
  /-- A receive in flight has moved units and goes on (R144 to R146). -/
  | moved (hi : ch.flags.rxInFlight = true) (hf : ch'.flags = ch.flags) (hl : ch'.LimitWithin)
  /-- It has moved units and completes after its notification's commands (R147). -/
  | received (hi : ch.flags.rxInFlight = true) {u v : Chan} (hu : u.flags = ch.flags) (h : Chan.RequestRun p u v)
    (ht : ch' = v.clearRx)

/-- So are those of every channel, and the shared parameters. -/
structure State.SameRequests (s t : State) : Prop where
  par : t.par = s.par
  chan : ∀ d, (s.chan d).SameRequests (t.chan d)

/-- What an operation can do to the requests of the machine's channels. -/
def State.Advances (s t : State) : Prop := ∀ d, (s.chan d).Advances s.par (t.chan d)

section ChannelRequests

variable {p : Params} {ch ch' ch'' : Chan}

theorem Chan.SameRequests.refl (ch : Chan) : ch.SameRequests ch := ⟨rfl, rfl, rfl, rfl⟩

theorem Chan.SameRequests.trans (h : ch.SameRequests ch') (h' : ch'.SameRequests ch'') : ch.SameRequests ch'' :=
  ⟨h'.par.trans h.par, h'.flags.trans h.flags, h'.rx.trans h.rx, h'.rxLim.trans h.rxLim⟩

/-- A vector's registers are beside the requests. -/
theorem Chan.SameRequests.modVec (ch : Chan) (k : Vec) (f : VecRegs → VecRegs) : ch.SameRequests (ch.modVec k f) :=
  ⟨Chan.par_modVec .., Chan.flags_modVec .., Chan.rx_modVec .., Chan.rxLim_modVec ..⟩

/-- A shift is beside the requests (R117). -/
theorem Chan.SameRequests.shiftOut (ch : Chan) (x : Byte) : ch.SameRequests (ch.shiftOut x) := by
  rw [Chan.shiftOut, Chan.pendIf_tx]
  exact ⟨rfl, rfl, rfl, rfl⟩

/-- So is an arrival (R118), -/
theorem Arrives.sameRequests {x : Byte} {alt : Bool} (h : Arrives x alt ch ch') : ch.SameRequests ch' := by
  unfold Arrives at h
  split at h
  · obtain ⟨keep, -, rfl⟩ := h
    exact ⟨rfl, rfl, rfl, rfl⟩
  · subst h
    exact ⟨rfl, rfl, rfl, rfl⟩

/-- and a detected condition (R119). -/
theorem Chan.SameRequests.detect (ch : Chan) (protoMon : Bool) (i : Nat) : ch.SameRequests (ch.detect protoMon i) := by
  rw [Chan.detect_eq]
  exact ⟨rfl, rfl, rfl, rfl⟩

/-- Something beside the requests comes first. -/
theorem Chan.Advances.after (h : ch'.Advances p ch'') (h' : ch.SameRequests ch') : ch.Advances p ch'' := by
  cases h with
  | commanded h => exact .commanded (.head (.inl h') h)
  | sent hi h ht => exact .sent (h'.flags ▸ hi) (.head (.inl h') h) ht
  | moved hi hf hl => exact .moved (h'.flags ▸ hi) (hf.trans h'.flags) hl
  | received hi hu h ht => exact .received (h'.flags ▸ hi) (hu.trans h'.flags) h ht

end ChannelRequests

section StateRequests

variable {s t u : State} {c : Nat}

theorem State.SameRequests.of_chans (hp : t.par = s.par) (hc : t.chans = s.chans) : s.SameRequests t :=
  ⟨hp, fun d => by simp only [State.chan, hc]; exact .refl _⟩

theorem State.SameRequests.refl (s : State) : s.SameRequests s := .of_chans rfl rfl

theorem State.SameRequests.trans (h : s.SameRequests t) (h' : t.SameRequests u) : s.SameRequests u :=
  ⟨h'.par.trans h.par, fun d => (h.chan d).trans (h'.chan d)⟩

/-- An update of one channel beside its requests. -/
theorem State.SameRequests.of_modChan {f : Chan → Chan} (hf : (s.chan c).SameRequests (f (s.chan c))) :
    s.SameRequests (s.modChan c f) := by
  by_cases hc : c < s.nch
  · refine ⟨rfl, fun d => ?_⟩
    rw [State.chan_modChan s c d f hc]
    split
    · next hd => exact hd ▸ hf
    · exact .refl _
  · rw [State.modChan_of_nch_le f (Nat.not_lt.1 hc)]
    exact .refl s

/-- An update with a count of draws. -/
theorem State.SameRequests.of_drawn_modChan {n : Nat} {f : Chan → Chan} (hf : (s.chan c).SameRequests (f (s.chan c))) :
    s.SameRequests ({ s with draws := n }.modChan c f) :=
  .trans (t := { s with draws := n }) (.of_chans rfl rfl) (.of_modChan hf)

theorem State.SameRequests.advances (h : s.SameRequests t) : s.Advances t := fun d => .commanded (.single (.inl (h.chan d)))

theorem State.Advances.after (h : t.Advances u) (h' : s.SameRequests t) : s.Advances u := fun d =>
  Chan.Advances.after (h'.par ▸ h d) (h'.chan d)

/-- The return is beside the requests too (R176). -/
theorem State.Advances.leave (h : s.Advances t) : s.Advances t.leave := h

/-! Commands and callbacks. -/

/-- A host command finds no transmit handler waiting, so its effect is a run of command effects (R178, U6). -/
theorem State.Inv.command_run (h : s.Inv) {i : Instr} (hi : i.isCommand = true) (hx : exec i s = .next t) (d : Nat) :
    Chan.CommandRun s.par (s.chan d) (t.chan d) := by
  obtain ⟨r, hr, hc, hen, hfit, rfl⟩ := exec_command_next hi hx
  have hidle : s.active = [] := List.isEmpty_iff.1 (Bool.and_eq_true_iff.1 hen).1
  exact commandEffect_chan_run hr hc hfit (fun _ => h.txWait_of_idle hidle hc) d

theorem Chan.CommandRun.requestRun {p : Params} {ch ch' : Chan} (h : Chan.CommandRun p ch ch') : Chan.RequestRun p ch ch' :=
  Relation.ReflTransGen.mono (fun _ _ => Or.inr) _ _ h

theorem callback_requestRun {r : CbRec} (h : callback r s = .next t) (d : Nat) :
    Chan.RequestRun s.par (s.chan d) (t.chan d) :=
  (callback_run h d).requestRun

theorem callback_advances {r : CbRec} (h : callback r s = .next t) : s.Advances t := fun d =>
  .commanded (callback_requestRun h d)

/-! Environment steps. -/

/-- An arrival (R118). -/
theorem State.sameRequests_arrive (s : State) (c : Nat) (x : Byte) (alt : Bool) : s.SameRequests (s.arrive c x alt) := by
  obtain ⟨n, f, hf, harrives⟩ := s.arrive_eq c x alt
  rw [hf]
  exact .of_drawn_modChan harrives.sameRequests

/-- The wire's delivery (R120). -/
theorem State.sameRequests_deliver (s : State) (d : Nat) (x : Byte) : s.SameRequests (s.deliver d x) := by
  unfold State.deliver
  split
  · exact s.sameRequests_arrive d x false
  · exact .refl s

/-- A shift, the wire's delivery included (R117, R120). -/
theorem sameRequests_shiftUnit (c : Nat) (s : State) : s.SameRequests (shiftUnit c s) := by
  unfold shiftUnit
  split
  · exact .refl s
  · next x q _ =>
    have hshift : s.SameRequests (s.modChan c fun ch => ch.shiftOut x) := .of_modChan (.shiftOut _ x)
    dsimp only
    split
    · exact hshift
    · next d _ => exact hshift.trans (State.sameRequests_deliver _ d x)

/-- ENV.TXSHIFT (R117). -/
theorem execEnvTxShift_advances (h : execEnvTxShift c s = .next t) : s.Advances t := by
  obtain ⟨-, -, rfl⟩ := environmentStep_next _ _ _ _ _ _ h
  exact (sameRequests_shiftUnit c s).advances

/-- ENV.RXARRIVE (R118). -/
theorem execEnvRxArrive_advances {x : Byte} (h : execEnvRxArrive c x s = .next t) : s.Advances t := by
  obtain ⟨-, -, rfl⟩ := environmentStep_next _ _ _ _ _ _ h
  exact (s.sameRequests_arrive c x false).advances

/-- ENV.RXARRIVE.ALT (R118). -/
theorem execEnvRxArriveAlt_advances {x : Byte} (h : execEnvRxArriveAlt c x s = .next t) : s.Advances t := by
  obtain ⟨-, -, rfl⟩ := environmentStep_next _ _ _ _ _ _ h
  exact (s.sameRequests_arrive c x true).advances

/-- ENV.PFLAG (R119). -/
theorem execEnvPFlag_advances {i : Nat} (h : execEnvPFlag c i s = .next t) : s.Advances t := by
  unfold execEnvPFlag at h
  split at h
  · obtain ⟨-, -, rfl⟩ := environmentStep_next _ _ _ _ _ _ h
    exact (State.SameRequests.of_modChan (.detect _ _ i)).advances
  · cases h

/-! Handlers. -/

/-- Entry of a handler (R175). -/
theorem State.sameRequests_enter (s : State) (c : Nat) (k : Vec) : s.SameRequests (s.enter c k) :=
  .trans (t := s.modChan c fun ch => ch.unpend k) (.of_modChan (.modVec _ k _)) (.of_chans rfl rfl)

/-- A handler that runs to its return in one step (R175, R176). -/
theorem dispatchVector_advances {k : Vec} {body : State → Result}
    (hbody : ∀ {v w}, c < v.nch → body v = .next w → v.Advances w)
    (h : dispatchVector c k (fun v => andThen (body v) fun w => .next w.leave) s = .next t) : s.Advances t := by
  obtain ⟨hc, -, hrun⟩ := dispatchVector_next _ _ _ _ _ h
  obtain ⟨u, hu, ht⟩ := (andThen_next _ _ _).1 hrun
  cases ht
  exact (hbody (by rwa [State.nch_enter]) hu).leave.after (s.sameRequests_enter c k)

/-- The protocol scan (R157, R158). -/
theorem protoScan_advances (h : protoScan c s = .next t) : s.Advances t := by
  unfold protoScan at h
  split at h
  · cases h; exact (State.SameRequests.refl s).advances
  · exact (callback_advances h).after (.of_modChan ⟨rfl, rfl, rfl, rfl⟩)

/-- IRQ.PROTO (R155). -/
theorem execIrqProto_advances (h : execIrqProto c s = .next t) : s.Advances t := by
  unfold execIrqProto at h
  split at h
  · exact dispatchVector_advances (fun _ => protoScan_advances) h
  · cases h

/-- Completion of a transmit in flight (R134). -/
theorem completeTx_advances (hc : c < s.nch) (hi : (s.chan c).flags.txInFlight = true) (h : completeTx c s = .next t) :
    s.Advances t := by
  obtain ⟨u, hu, ht⟩ := (andThen_next _ _ _).1 h
  cases ht
  have hoff : s.SameRequests (s.modChan c fun ch => ch.evDisable ch.txEvm) := .of_modChan ⟨rfl, rfl, rfl, rfl⟩
  have hrun : ∀ d, Chan.RequestRun s.par (s.chan d) (u.chan d) := fun d =>
    .head (.inl (hoff.chan d)) (callback_requestRun hu d)
  have hcu : c < u.nch := by rwa [(callback_contexts hu).nch, State.nch_modChan]
  intro d
  by_cases hd : d = c
  · subst hd
    exact .sent hi (hrun d) (State.chan_modChan_same u d _ hcu)
  · rw [State.chan_modChan_ne u c d _ hd]
    exact .commanded (hrun d)

/-- IRQ.TX (R130 to R134). -/
theorem execIrqTx_advances (h : execIrqTx c s = .next t) : s.Advances t := by
  obtain ⟨hc, -, hrun⟩ := dispatchVector_next _ _ _ _ _ h
  refine State.Advances.after ?_ (s.sameRequests_enter c .tx)
  obtain ⟨-, rfl⟩ | ⟨hi, ⟨-, ch', hfill, rfl⟩ | ⟨-, ⟨-, u, hu, rfl⟩ | ⟨-, rfl⟩⟩⟩ := txHandler_next hrun
  · exact (State.SameRequests.of_chans rfl rfl).advances
  · obtain ⟨q, n, rfl⟩ := fill_frame hfill
    exact (State.SameRequests.of_modChan ⟨rfl, rfl, rfl, rfl⟩).advances
  · exact (completeTx_advances (by rwa [State.nch_enter]) hi hu).leave
  · exact (State.SameRequests.of_modChan ⟨rfl, rfl, rfl, rfl⟩).advances

/-- TXDONE happens only where it is enabled (R134, log 2). -/
theorem txDoneEnabled_of_execTxDone (h : execTxDone c s = .next t) : s.txDoneEnabled c = true := by
  by_contra hen
  obtain ⟨r, hr⟩ := execTxDone_refused (Bool.eq_false_iff.2 hen)
  cases hr.symm.trans h

/-- TXDONE: a waiting handler's transmit is in flight (R133, R134). -/
theorem State.Inv.execTxDone_advances (h : s.Inv) (hx : execTxDone c s = .next t) : s.Advances t := by
  have hen := txDoneEnabled_of_execTxDone hx
  simp only [State.txDoneEnabled, Bool.and_eq_true] at hen
  obtain ⟨⟨hwait, -⟩, -⟩ := hen
  obtain ⟨hc, u, hu, rfl⟩ := execTxDone_next hx
  have hi := ((h.channels c hc).waiting hwait).1
  have hended : s.SameRequests (s.modChan c fun ch => { ch with txWait := false }) := .of_modChan ⟨rfl, rfl, rfl, rfl⟩
  exact (completeTx_advances (by rwa [State.nch_modChan]) ((hended.chan c).flags ▸ hi) hu).leave.after hended

/-! The receive handler. -/

/-- A pop (R103). -/
theorem State.sameRequests_rxPop (s : State) (c : Nat) : s.SameRequests (s.rxPop c).2 := by
  obtain ⟨n, x, hpop, -⟩ := rxPop_eq s c
  rw [hpop]
  exact .of_drawn_modChan ⟨rfl, rfl, rfl, rfl⟩

/-- One unit is forwarded (R141, R142). -/
theorem forwardPopped_advances (h : forwardUnit c (s.rxPop c).1 (s.rxPop c).2 = .next t) : s.Advances t :=
  (callback_advances h).after ((s.sameRequests_rxPop c).trans (.of_chans rfl rfl))

/-- The unsolicited paths (R141, R142). -/
theorem unsolicited_advances (h : unsolicited c s = .next t) : s.Advances t := by
  unfold unsolicited unsolicitedFifo unsolicitedByte at h
  split at h
  · split at h
    · cases h; exact (State.SameRequests.refl s).advances
    · exact forwardPopped_advances h
  · exact forwardPopped_advances h

/-- The mixed path (R143). -/
theorem mixedReceive_advances (h : mixedReceive c s = .next t) : s.Advances t := by
  unfold mixedReceive at h
  split at h
  · cases h; exact (State.SameRequests.refl s).advances
  · exact unsolicited_advances h

/-- Memory and channels are written independently. -/
theorem State.modChan_withMem (s : State) (m : Memory) (c : Nat) (f : Chan → Chan) :
    (s.withMem m).modChan c f = (s.modChan c f).withMem m := rfl

/-- Channel `c` alone has moved units of its receive in flight. -/
theorem State.Advances.of_moved {f : Chan → Chan} (m : Memory) (hc : c < s.nch)
    (hi : (s.chan c).flags.rxInFlight = true) (hf : (f (s.chan c)).flags = (s.chan c).flags)
    (hl : (f (s.chan c)).LimitWithin) : s.Advances ((s.modChan c f).withMem m) := by
  intro d
  rw [State.chan_withMem]
  by_cases hd : d = c
  · subst hd
    rw [State.chan_modChan_same s d f hc]
    exact .moved hi hf hl
  · rw [State.chan_modChan_ne s c d f hd]
    exact .commanded .refl

/-- Completion of a receive in flight that has moved units (R147). -/
theorem completeMoved_advances {f : Chan → Chan} {m : Memory} (hc : c < s.nch) (hi : (s.chan c).flags.rxInFlight = true)
    (hf : (f (s.chan c)).flags = (s.chan c).flags) (h : completeRx c ((s.modChan c f).withMem m) = .next t) :
    s.Advances t := by
  obtain ⟨u, hu, ht⟩ := (andThen_next _ _ _).1 h
  cases ht
  have hcu : c < u.nch := by rwa [(callback_contexts hu).nch, State.nch_withMem, State.nch_modChan]
  intro d
  have hrun := callback_requestRun hu d
  rw [State.chan_withMem] at hrun
  by_cases hd : d = c
  · subst hd
    rw [State.chan_modChan_same s d f hc] at hrun
    exact .received hi hf hrun (State.chan_modChan_same u d _ hcu)
  · rw [State.chan_modChan_ne s c d f hd] at hrun
    rw [State.chan_modChan_ne u c d _ hd]
    exact .commanded hrun

/-- LIMIT asks for no more than remains (R106). -/
theorem Chan.rxLim_rxSetLimit_lt (ch : Chan) {n : Nat} (h : 0 < n) : (ch.rxSetLimit n).rxLim.toNat + 1 ≤ n := by
  have hmod := Nat.mod_le (min n ch.par.rxCap - 1) (2 ^ 32)
  rw [Chan.rxSetLimit, BitVec.toNat_ofNat, rxLimitFor]
  omega

/-- The FIFO path of a receive in flight: a new limit from what remains, or the completion (R144, R145). -/
theorem solicitedFifo_advances (hc : c < s.nch) (hi : (s.chan c).flags.rxInFlight = true)
    (h : solicitedFifo c s = .next t) : s.Advances t := by
  unfold solicitedFifo at h
  split at h
  · cases h
  · next q tcb m _ =>
    dsimp only at h
    split at h
    · next hlt =>
      cases h
      have hlimit := (s.chan c).rxLim_rxSetLimit_lt (Nat.sub_pos_of_lt hlt)
      rw [State.modChan_withMem, State.modChan_modChan]
      exact .of_moved m hc hi rfl fun _ _ => hlimit
    · split at h
      · exact completeMoved_advances hc hi (by rfl) h
      · cases h

/-- The byte path of a receive in flight, which has no limit (R146). -/
theorem solicitedByte_advances (hc : c < s.nch) (hi : (s.chan c).flags.rxInFlight = true)
    (hbyte : (s.chan c).rxFifo = false) (h : solicitedByte c s = .next t) : s.Advances t := by
  have hcp : c < (s.rxPop c).2.nch := by rwa [nch_rxPop]
  have hpop := s.sameRequests_rxPop c
  have hip : ((s.rxPop c).2.chan c).flags.rxInFlight = true := (hpop.chan c).flags ▸ hi
  have hbytep : ((s.rxPop c).2.chan c).rxFifo = false := by rwa [Chan.rxFifo, (hpop.chan c).par]
  refine State.Advances.after ?_ hpop
  unfold solicitedByte at h
  dsimp only at h
  split at h
  · cases h
  · next m _ =>
    split at h
    · exact completeMoved_advances hcp hip (by rfl) h
    · cases h
      exact .of_moved m hcp hip rfl fun hf => absurd hf (Bool.eq_false_iff.1 hbytep)

/-- The receive handler's body (R140). -/
theorem rxHandler_advances (hc : c < s.nch) (h : rxHandler c s = .next t) : s.Advances t := by
  unfold rxHandler at h
  dsimp only at h
  split at h
  · next hi =>
    split at h
    · exact solicitedFifo_advances hc hi h
    · next hbyte => exact solicitedByte_advances hc hi (Bool.eq_false_iff.2 hbyte) h
  · split at h
    · exact unsolicited_advances h
    · exact mixedReceive_advances h

/-! Every operation, and every step. -/

/-- From a state of the invariant: commands meet no waiting handler, and a wait is for a transmit in flight. -/
theorem State.Inv.exec_advances (h : s.Inv) {i : Instr} (hx : exec i s = .next t) : s.Advances t := by
  cases i with
  | initOpen _ | initClose _ | initInvalid _ _ | setBaud _ _ | tx _ _ _ | rx _ _ _ | abortTx _ | abortRx _ | abortTxRx _ =>
    exact fun d => .commanded (h.command_run (by rfl) hx d).requestRun
  | irqTx c => exact execIrqTx_advances hx
  | irqRx c => exact dispatchVector_advances rxHandler_advances hx
  | irqProto c => exact execIrqProto_advances hx
  | txDone c => exact h.execTxDone_advances hx
  | envTxShift c => exact execEnvTxShift_advances hx
  | envRxArrive c x => exact execEnvRxArrive_advances hx
  | envRxArriveAlt c x => exact execEnvRxArriveAlt_advances hx
  | envPFlag c n => exact execEnvPFlag_advances hx

/-- A host store touches no channel, so a step does what its operation does. -/
theorem State.Inv.step_advances (h : s.Inv) (hx : step s = .next t) : t.nch = s.nch ∧ s.Advances t := by
  obtain ⟨a, b, rfl⟩ | ⟨i, hx⟩ := step_next hx
  · exact ⟨by rw [State.nch_hostStore, State.nch_afterFetch], (State.SameRequests.of_chans rfl rfl).advances⟩
  · exact ⟨(exec_settings hx).nch.trans s.nch_afterFetch, (h.afterFetch.exec_advances hx).after (.of_chans rfl rfl)⟩

end StateRequests

/-! A direction left locked by an abort (R204). -/

/-- A transmit direction locked and not busy stays so, and a receive direction alike. -/
structure ChanFlags.KeepsAbandoned (f f' : ChanFlags) : Prop where
  tx : f.txLock = true ∧ f.txBusy = false → f'.txLock = true ∧ f'.txBusy = false
  rx : f.rxLock = true ∧ f.rxBusy = false → f'.rxLock = true ∧ f'.rxBusy = false

section Abandoned

variable {f f' f'' : ChanFlags} {p : Params} {ch ch' : Chan}

theorem ChanFlags.KeepsAbandoned.refl (f : ChanFlags) : f.KeepsAbandoned f := ⟨id, id⟩

theorem ChanFlags.KeepsAbandoned.trans (h : f.KeepsAbandoned f') (h' : f'.KeepsAbandoned f'') : f.KeepsAbandoned f'' :=
  ⟨h'.tx ∘ h.tx, h'.rx ∘ h.rx⟩

/-- A request is accepted on an unlocked direction alone, and an abort keeps the lock (R85 to R88). -/
theorem Chan.Commanded.keepsAbandoned (h : Chan.Commanded p ch ch') : ch.flags.KeepsAbandoned ch'.flags := by
  cases h with
  | opened => rw [openClosed_eq]; exact ⟨id, id⟩
  | closed => exact ⟨id, id⟩
  | rated => exact ⟨id, id⟩
  | sent a b _ _ _ _ _ _ hlock =>
    rw [acceptTx_registers]
    exact ⟨fun h => absurd h.1 (by simp [hlock]), id⟩
  | received a b _ _ _ _ _ hlock =>
    rw [acceptRx_registers]
    exact ⟨id, fun h => absurd h.1 (by simp [hlock])⟩
  | txAborted => exact ⟨fun h => ⟨h.1, rfl⟩, id⟩
  | rxAborted => exact ⟨id, fun h => ⟨h.1, rfl⟩⟩

theorem Chan.RequestRun.keepsAbandoned (h : Chan.RequestRun p ch ch') : ch.flags.KeepsAbandoned ch'.flags := by
  induction h with
  | refl => exact .refl _
  | tail _ hstep ih =>
    refine ih.trans ?_
    obtain hsame | hcommand := hstep
    · exact hsame.flags ▸ .refl _
    · exact hcommand.keepsAbandoned

/-- A completion frees a direction that was in flight, so not one an abort left (R134, R147). -/
theorem Chan.Advances.keepsAbandoned (h : ch.Advances p ch') : ch.flags.KeepsAbandoned ch'.flags := by
  cases h with
  | commanded h => exact h.keepsAbandoned
  | sent hi h ht =>
    subst ht
    exact ⟨fun hab => by simp [ChanFlags.txInFlight, hab.2] at hi, h.keepsAbandoned.rx⟩
  | moved hi hf hl => exact hf ▸ .refl _
  | received hi hu h ht =>
    subst ht
    exact ⟨fun hab => h.keepsAbandoned.tx (hu ▸ hab), fun hab => by simp [ChanFlags.rxInFlight, hab.2] at hi⟩

end Abandoned

/-! The receive limit (R219). -/

section Limit

variable {p : Params} {ch ch' : Chan}

theorem limitWithinRequest_iff {s : State} : LimitWithinRequest s ↔ ∀ c < s.nch, (s.chan c).LimitWithin := .rfl

theorem Chan.LimitWithin.congr (h : ch.LimitWithin) (hs : ch.SameRequests ch') : ch'.LimitWithin := by
  unfold Chan.LimitWithin Chan.rxFifo at *
  rwa [hs.par, hs.flags, hs.rx, hs.rxLim]

/-- Opening sets the limit to RXLIM0 = 0, which a receive in flight still wants, and an accepted RX to what its length allows
(R75, R86, R106). -/
theorem Chan.Commanded.limitWithin (h : Chan.Commanded p ch ch') (h0 : ch.par.rxLim0 = 0) (hl : ch.LimitWithin) :
    ch'.LimitWithin := by
  cases h with
  | opened =>
    rw [openClosed_eq]
    intro hf hi
    have hwanted : ch.rxLim.toNat + 1 ≤ ch.rx.remaining := hl hf hi
    show ch.par.rxLim0.toNat + 1 ≤ ch.rx.remaining
    rw [h0]
    exact (Nat.le_add_left 1 _).trans hwanted
  | closed => exact hl
  | rated => exact hl
  | sent a b => rw [acceptTx_registers]; exact hl
  | received a b _ hb =>
    rw [acceptRx_registers]
    intro hf _
    have hcap : ch.par.rxCap ≠ 0 := Chan.rxFifo_iff.1 hf
    have hpos : 0 < b.toNat := (BitVec.pos_iff_ne_zero b).2 hb
    have hlimit := ch.rxLim_rxSetLimit_lt hpos
    show (if ch.par.rxCap = 0 then ch.rxLim else BitVec.ofNat 32 (min b.toNat ch.par.rxCap - 1)).toNat + 1 ≤ b.toNat
    rwa [if_neg hcap]
  | txAborted => exact hl
  | rxAborted => exact fun _ hi => by simp [Chan.abandonRx, Chan.evDisable, ChanFlags.rxInFlight] at hi

theorem Chan.RequestRun.limitWithin (h : Chan.RequestRun p ch ch') (h0 : ch.par.rxLim0 = 0) (hl : ch.LimitWithin) :
    ch'.par.rxLim0 = 0 ∧ ch'.LimitWithin := by
  induction h with
  | refl => exact ⟨h0, hl⟩
  | tail _ hstep ih =>
    obtain ⟨h0, hl⟩ := ih
    obtain hsame | hcommand := hstep
    · exact ⟨hsame.par ▸ h0, hl.congr hsame⟩
    · exact ⟨hcommand.frame.1 ▸ h0, hcommand.limitWithin h0 hl⟩

/-- The handlers write the limit with the index, or end the receive. -/
theorem Chan.Advances.limitWithin (h : ch.Advances p ch') (h0 : ch.par.rxLim0 = 0) (hl : ch.LimitWithin) :
    ch'.LimitWithin := by
  cases h with
  | commanded h => exact (h.limitWithin h0 hl).2
  | sent hi h ht => subst ht; exact (h.limitWithin h0 hl).2
  | moved hi hf hl => exact hl
  | received hi hu h ht =>
    subst ht
    exact fun _ hi => by simp [Chan.clearRx, Chan.evDisable, ChanFlags.rxInFlight] at hi

end Limit

end Sys2Proof.Machine

namespace Sys2Proof.Proofs

open Sys2Proof.Machine

/-- Settles O49: no request is accepted on a locked direction, and only a direction in flight is freed. -/
theorem lockLeftByAbortIsAbsorbing : Obligations.LockLeftByAbortIsAbsorbing := by
  intro s t c h _ hstep
  have hkept := ((h.step_advances hstep).2 c).keepsAbandoned
  exact ⟨fun hl hb => hkept.tx ⟨hl, hb⟩, fun hl hb => hkept.rx ⟨hl, hb⟩⟩

/-- Settles O58: with RXLIM0 = 0 every write of the limit asks for no more than the receive in flight wants. -/
theorem receiveLimitStaysWithinTheRequest : Obligations.ReceiveLimitStaysWithinTheRequest := by
  intro s t h h0 hl hstep
  obtain ⟨hn, hadvances⟩ := h.step_advances hstep
  rw [limitWithinRequest_iff] at hl ⊢
  rw [hn]
  exact fun c hc => (hadvances c).limitWithin (h0 c hc) (hl c hc)

end Sys2Proof.Proofs
